-- ==== Sys2Proof/Word.lean ====
section
/-! DEFINITION. The bit-vector types the spec treats as bits: the command word and its operand field (30_encoding.md R93)
and a symbol (00_scope.md R6, `SYM_BITS` = 8). Node indices, ranks, counts and weights are natural numbers, because the
engine only copies, compares and counts with them (42_tree_update_engine.md R163). -/

namespace Sys2Proof

/-- A command word, 16 bits (30_encoding.md R93). -/
abbrev CmdWord := BitVec 16

/-- The opcode field `cmd[15:12]` (30_encoding.md R93). -/
abbrev Opcode := BitVec 4

/-- The operand field `cmd[11:0]` (30_encoding.md R93, R95). -/
abbrev Arg := BitVec 12

/-- A symbol: a byte value (00_scope.md R6, R13). -/
abbrev Sym := BitVec 8

end Sys2Proof
end

