-- ==== Sys2Proof/Config.lean ====
section
/-! DEFINITION. The parameters of the hardware (00_scope.md R6). `WEIGHT_BITS` is OPEN: the machine takes it as the plain
field `State.weightBits` (log 2), and this file holds only its default. No value that an instruction leaves in a reachable
state is open in this spec, so there is no free value here. -/

namespace Sys2Proof.Config

/-- `ALPHABET`: valid symbols are 0 to 255 (00_scope.md R6). -/
def alphabet : Nat := 256

/-- `MAX_NODES`: one initial node and two per distinct symbol (00_scope.md R6). -/
def maxNodes : Nat := 513

/-- `IDX_BITS`: the width of a node index, a rank and a node count (00_scope.md R6, 10_state.md R25, R28, R32, R34). -/
def idxBits : Nat := 10

/-- `MAX_DEPTH`: no leaf is deeper (00_scope.md R6). -/
def maxDepth : Nat := 256

/-- The default of the OPEN parameter `WEIGHT_BITS` (00_scope.md R6, 92_eei_decisions.md D11). -/
def defaultWeightBits : Nat := 32

/-- `DATA_BITS` = max(`WEIGHT_BITS`, 10), the width of the response data field: it holds a weight and an index
(00_scope.md R6). -/
def dataBits (weightBits : Nat) : Nat := max weightBits idxBits

end Sys2Proof.Config
end

