-- ==== Sys2Proof/Syntax.lean ====
section
/-! DEFINITION. The fourteen commands as syntax (30_encoding.md R96), their operand classes (R94) and the shape of a row of
the opcode table. -/

namespace Sys2Proof

/-- A command. As in 30_encoding.md R105 a command with an operand keeps the whole 12-bit `arg`; its range check belongs to
the command's meaning. -/
inductive Instr where
  /-- `NOP` (40_session_control.md R121). -/
  | nop
  /-- `INIT` (40_session_control.md R122). -/
  | init
  /-- `LOOKUP s` (41_symbol_leaf_mapper.md R140). -/
  | lookup (arg : Arg)
  /-- `INSERT s` (42_tree_update_engine.md R150). -/
  | insert (arg : Arg)
  /-- `PATHS s` (43_tree_readout.md R191). -/
  | paths (arg : Arg)
  /-- `PATHN n` (43_tree_readout.md R192). -/
  | pathn (arg : Arg)
  /-- `RDSR r` (40_session_control.md R123). -/
  | rdsr (arg : Arg)
  /-- `RDW n` (43_tree_readout.md R193). -/
  | rdw (arg : Arg)
  /-- `RDSYM n` (43_tree_readout.md R194). -/
  | rdsym (arg : Arg)
  /-- `RDPAR n` (43_tree_readout.md R195). -/
  | rdpar (arg : Arg)
  /-- `RDLEFT n` (43_tree_readout.md R196). -/
  | rdleft (arg : Arg)
  /-- `RDRIGHT n` (43_tree_readout.md R197). -/
  | rdright (arg : Arg)
  /-- `RDRANK n` (43_tree_readout.md R198). -/
  | rdrank (arg : Arg)
  /-- `RDORD k` (43_tree_readout.md R199). -/
  | rdord (arg : Arg)
  deriving DecidableEq, Repr

/-- The operand classes of 30_encoding.md R94. -/
inductive OperandClass where
  | none
  | sym
  | node
  | rank
  | sr
  deriving DecidableEq, Repr

/-- One row of the opcode table: a word `w` is the command when `w &&& mask = pattern` (30_encoding.md R96). -/
structure TableRow where
  mnemonic : String
  cls      : OperandClass
  pattern  : CmdWord
  mask     : CmdWord
  deriving DecidableEq, Repr

end Sys2Proof
end

