-- ==== Sys2Proof/WellFormed.lean ====
section
/-! DEFINITION. Which commands have an encoding. The one restriction of the command format that a term of `Instr` can break
is the register number of `RDSR`, whose `arg[11:2]` must be 0 (30_encoding.md R96, R98). A symbol above 255 or an index at or
above `NCOUNT` is a legal encoding that faults when it executes (30_encoding.md R94, R99), so it is well formed here. -/

namespace Sys2Proof

/-- The command has a command word that decodes to it (30_encoding.md R96, R98). -/
def Instr.wf : Instr → Bool
  | .nop => true
  | .init => true
  | .lookup _ => true
  | .insert _ => true
  | .paths _ => true
  | .pathn _ => true
  | .rdsr r => decide (r.toNat ≤ 3)
  | .rdw _ => true
  | .rdsym _ => true
  | .rdpar _ => true
  | .rdleft _ => true
  | .rdright _ => true
  | .rdrank _ => true
  | .rdord _ => true

end Sys2Proof
end

