-- ==== Sys2Proof/Decode.lean ====
section
/-! DEFINITION. The decoder, total on command words (30_encoding.md R93, R97, R98, R105), the opcode table (R96) and the
encoder written from that table. -/

namespace Sys2Proof

/-- Why a word is an illegal command. -/
inductive DecodeReject where
  /-- Opcode 0xE or 0xF (30_encoding.md R97). -/
  | reservedOpcode (op : Opcode)
  /-- `NOP` or `INIT` with a non-zero operand, or `RDSR` with an operand above 3 (30_encoding.md R98). -/
  | reservedOperand (op : Opcode) (arg : Arg)
  deriving DecidableEq, Repr

/-- `op = cmd[15:12]` (30_encoding.md R93). -/
def opField (w : CmdWord) : Opcode := w.extractLsb' 12 4

/-- `arg = cmd[11:0]` (30_encoding.md R93, R95). -/
def argField (w : CmdWord) : Arg := w.extractLsb' 0 12

/-- The command with opcode `op` and operand `arg` (30_encoding.md R105). -/
def decodeFields (op : Opcode) (arg : Arg) : Except DecodeReject Instr :=
  match op.toNat with
  | 0x0 => if arg = 0 then .ok .nop else .error (.reservedOperand op arg)
  | 0x1 => if arg = 0 then .ok .init else .error (.reservedOperand op arg)
  | 0x2 => .ok (.lookup arg)
  | 0x3 => .ok (.insert arg)
  | 0x4 => .ok (.paths arg)
  | 0x5 => .ok (.pathn arg)
  | 0x6 => if arg.toNat ≤ 3 then .ok (.rdsr arg) else .error (.reservedOperand op arg)
  | 0x7 => .ok (.rdw arg)
  | 0x8 => .ok (.rdsym arg)
  | 0x9 => .ok (.rdpar arg)
  | 0xA => .ok (.rdleft arg)
  | 0xB => .ok (.rdright arg)
  | 0xC => .ok (.rdrank arg)
  | 0xD => .ok (.rdord arg)
  | _ => .error (.reservedOpcode op)

/-- The decode function of 30_encoding.md R105; it does not read the state. -/
def decode (w : CmdWord) : Except DecodeReject Instr := decodeFields (opField w) (argField w)

/-- The instruction the decoder reads from a table word of `nbits` bits (every bit above `nbits` is 0; a command is one
16-bit word, 30_encoding.md R102), or `none` where the decoder refuses it. -/
def decodeTableWord (nbits w : Nat) : Option Instr :=
  match decode (BitVec.ofNat 16 (w % 2 ^ nbits)) with
  | .ok i => some i
  | .error _ => none

/-- The table of 30_encoding.md R96. -/
def opcodeTable : List TableRow :=
  [ ⟨"NOP", .none, 0x0000, 0xFFFF⟩,
    ⟨"INIT", .none, 0x1000, 0xFFFF⟩,
    ⟨"LOOKUP", .sym, 0x2000, 0xF000⟩,
    ⟨"INSERT", .sym, 0x3000, 0xF000⟩,
    ⟨"PATHS", .sym, 0x4000, 0xF000⟩,
    ⟨"PATHN", .node, 0x5000, 0xF000⟩,
    ⟨"RDSR", .sr, 0x6000, 0xFFFC⟩,
    ⟨"RDW", .node, 0x7000, 0xF000⟩,
    ⟨"RDSYM", .node, 0x8000, 0xF000⟩,
    ⟨"RDPAR", .node, 0x9000, 0xF000⟩,
    ⟨"RDLEFT", .node, 0xA000, 0xF000⟩,
    ⟨"RDRIGHT", .node, 0xB000, 0xF000⟩,
    ⟨"RDRANK", .node, 0xC000, 0xF000⟩,
    ⟨"RDORD", .rank, 0xD000, 0xF000⟩ ]

/-- The word is a word of the table's row (30_encoding.md R96). -/
def TableRow.selects (r : TableRow) (w : CmdWord) : Bool := decide (w &&& r.mask = r.pattern)

/-- The opcode of a command (30_encoding.md R96, column `op`). -/
def opcodeOf : Instr → Opcode
  | .nop => 0x0
  | .init => 0x1
  | .lookup _ => 0x2
  | .insert _ => 0x3
  | .paths _ => 0x4
  | .pathn _ => 0x5
  | .rdsr _ => 0x6
  | .rdw _ => 0x7
  | .rdsym _ => 0x8
  | .rdpar _ => 0x9
  | .rdleft _ => 0xA
  | .rdright _ => 0xB
  | .rdrank _ => 0xC
  | .rdord _ => 0xD

/-- The operand field of a command (30_encoding.md R93, R94: 0 for the class `none`). -/
def argOf : Instr → Arg
  | .nop => 0
  | .init => 0
  | .lookup a => a
  | .insert a => a
  | .paths a => a
  | .pathn a => a
  | .rdsr a => a
  | .rdw a => a
  | .rdsym a => a
  | .rdpar a => a
  | .rdleft a => a
  | .rdright a => a
  | .rdrank a => a
  | .rdord a => a

/-- The mnemonic of a command (30_encoding.md R96). -/
def mnemonicOf : Instr → String
  | .nop => "NOP"
  | .init => "INIT"
  | .lookup _ => "LOOKUP"
  | .insert _ => "INSERT"
  | .paths _ => "PATHS"
  | .pathn _ => "PATHN"
  | .rdsr _ => "RDSR"
  | .rdw _ => "RDW"
  | .rdsym _ => "RDSYM"
  | .rdpar _ => "RDPAR"
  | .rdleft _ => "RDLEFT"
  | .rdright _ => "RDRIGHT"
  | .rdrank _ => "RDRANK"
  | .rdord _ => "RDORD"

/-- The command word of a command: opcode above operand (30_encoding.md R93). -/
def encode (i : Instr) : CmdWord := opcodeOf i ++ argOf i

end Sys2Proof
end

