-- ==== Sys2Proof/Machine/State.lean ====
section
/-! DEFINITION. The state of the machine as plain data (10_state.md R20), the response (30_encoding.md R100), the input pins
(30_encoding.md R90), the reset state (10_state.md R42) and the reasons a step can stop. -/

namespace Sys2Proof.Machine

/-- A response status and the contents of `FLT`: exactly five values, since codes 5 to 15 are never produced
(60_exceptions.md R250, 93_implementation_defined.md U8). -/
inductive Status where
  | ok
  | illegalCmd
  | alphabet
  | badIndex
  | weightOverflow
  deriving DecidableEq, Repr

/-- A response (30_encoding.md R100). A field a command does not use is 0 (R100). The pair `len`, `path` is the list of
path bits, the branch at the root first; its length is `len` (20_memory.md R62, 43_tree_readout.md R190). -/
structure Response where
  status : Status := .ok
  flag   : Bool := false
  data   : Nat := 0
  path   : List Bool := []
  deriving DecidableEq, Repr

/-- One entry of the node store (10_state.md R28). An optional value stands for a valid bit and a value (00_scope.md R10):
`sym` for `SYMV`, `SYM`; `par` for `PARV`, `PAR`; `kids` for `KIDV`, `LEFT`, `RIGHT`. -/
structure Node where
  weight : Nat
  sym    : Option Sym
  par    : Option Nat
  kids   : Option (Nat × Nat)
  deriving DecidableEq, Repr

/-- A child slot of an internal node. -/
inductive Side where
  | left
  | right
  deriving DecidableEq, Repr

/-- The symbol index: the seen symbols with their leaves (10_state.md R34), keys strictly rising. A symbol with no entry is
one with `SIDXV` = 0. -/
abbrev SymIndex := List (Sym × Nat)

/-- One sample of the input pins at a clock edge (30_encoding.md R90). -/
structure PortIn where
  rst      : Bool
  cmdValid : Bool
  cmd      : CmdWord
  rspReady : Bool
  deriving DecidableEq, Repr

/-- The machine. `root` to `sidx` are the architectural state (10_state.md R20); `rsp` is the response port (30_encoding.md
R92); `weightBits` is the OPEN parameter (00_scope.md R6) and `inputs` the pin samples the host will drive, both the model's
own (log 2, log 8). Entries at or above `NCOUNT` are not held (93_implementation_defined.md U4, log 3). -/
structure State where
  /-- `WEIGHT_BITS` (00_scope.md R6); nothing writes it. -/
  weightBits : Nat
  /-- `ROOT` (10_state.md R21). -/
  root : Nat
  /-- `NYT` (10_state.md R22). -/
  nyt : Nat
  /-- `NCOUNT` (10_state.md R23). -/
  ncount : Nat
  /-- `FLT` (10_state.md R24). -/
  flt : Status
  /-- The node store, entries `0 .. NCOUNT-1` (10_state.md R28, R30). -/
  nodes : List Node
  /-- `ORD`, ranks `0 .. NCOUNT-1` (10_state.md R32). -/
  ord : List Nat
  /-- `SIDXV`, `SIDX` (10_state.md R34). -/
  sidx : SymIndex
  /-- The response port: `some r` while `rsp_valid` is 1 (30_encoding.md R92). -/
  rsp : Option Response
  /-- The pin samples the host will drive, the next one first (30_encoding.md R90). -/
  inputs : List PortIn
  deriving DecidableEq, Repr

/-- The reset state of an engine built with `WEIGHT_BITS` = `wb` (10_state.md R42, 70_reset_and_hazards.md R280, R281). -/
def State.resetOf (wb : Nat) : State where
  weightBits := wb
  root := 0
  nyt := 0
  ncount := 1
  flt := .ok
  nodes := [⟨0, none, none, none⟩]
  ord := [0]
  sidx := []
  rsp := none
  inputs := []

/-- The machine right after reset, with the default `WEIGHT_BITS` (10_state.md R42, 00_scope.md R6). -/
def State.reset : State := State.resetOf Config.defaultWeightBits

/-- Why the machine is stuck. An engine fault of 60_exceptions.md R250 is no member: it is a next state. Each of these is
raised only in a state the hardware cannot enter (93_implementation_defined.md U6, U9); each is safe, because the model stops
where the spec gives no result (log 6). -/
inductive Fault where
  /-- `swap` of a node without a parent (93_implementation_defined.md U6); raised by `INSERT`; safe. -/
  | swapWithoutParent
  /-- `rank` of a node that is not exactly once in `ORD` (93_implementation_defined.md U9); raised by `RDRANK` and `INSERT`;
  safe. -/
  | rankUndefined
  /-- A child slot of a parent that does not hold the node exactly once (10_state.md R31, 93_implementation_defined.md U9);
  raised by `INSERT`; safe. -/
  | slotUndefined
  /-- `path` of a node whose parent links are no root path (93_implementation_defined.md U9); raised by `PATHS` and `PATHN`;
  safe. -/
  | pathUndefined
  /-- No node of the current node's weight in `ORD` (42_tree_update_engine.md R157, 93_implementation_defined.md U9); raised by
  `INSERT`; safe. -/
  | leaderUndefined
  /-- The increment phase visits more than `NCOUNT` nodes (42_tree_update_engine.md R161, 93_implementation_defined.md U9);
  raised by `INSERT`; safe. -/
  | walkEndless
  deriving DecidableEq, Repr

/-- Why a step has no meaning in the model. -/
inductive Refusal where
  /-- The instruction of that mnemonic has no meaning yet; raised by an arm of `exec`; safe. No arm raises it. -/
  | notModelled (mnemonic : String)
  deriving DecidableEq, Repr

end Sys2Proof.Machine
end

