-- ==== Sys2Proof/Machine/Ops.lean ====
section
/-! DEFINITION. The named operations over the stores and registers, the two ways a command ends (fault entry,
60_exceptions.md R254 and R257; response, 00_scope.md R11) and what frees the engine for the next command (30_encoding.md
R92). -/

namespace Sys2Proof.Machine

/-! ## Weights (42_tree_update_engine.md R163) -/

/-- The greatest weight of `wb` bits, `2^WEIGHT_BITS - 1` (42_tree_update_engine.md R151). -/
def weightMax (wb : Nat) : Nat := 2 ^ wb - 1

/-- One added to a weight of `wb` bits (42_tree_update_engine.md R160). The width is kept in every state; in a reachable one
nothing wraps (R151, log 4). -/
def weightSucc (wb w : Nat) : Nat := (w + 1) % 2 ^ wb

/-! ## The node store (10_state.md R28) -/

/-- What the model reads for an index that is not allocated: no rule reads one (10_state.md R30, log 3). -/
def Node.unallocated : Node := ⟨0, none, none, none⟩

namespace State

/-- Entry `n` of the node store (00_scope.md R9). -/
def node (s : State) (n : Nat) : Node := s.nodes[n]?.getD Node.unallocated

/-- `W[n]` (10_state.md R28). -/
def weight (s : State) (n : Nat) : Nat := (s.node n).weight

/-- `SYMV[n]`, `SYM[n]` (10_state.md R28). -/
def sym (s : State) (n : Nat) : Option Sym := (s.node n).sym

/-- `PARV[n]`, `PAR[n]` (10_state.md R28). -/
def parent (s : State) (n : Nat) : Option Nat := (s.node n).par

/-- `KIDV[n]`, `LEFT[n]`, `RIGHT[n]` (10_state.md R28). -/
def kids (s : State) (n : Nat) : Option (Nat × Nat) := (s.node n).kids

/-- Rewrite entry `n` of the node store and no other. -/
def modNode (s : State) (n : Nat) (f : Node → Node) : State := { s with nodes := s.nodes.modify n f }

/-- `W[n] <- v`. -/
def setWeight (s : State) (n v : Nat) : State := s.modNode n fun x => { x with weight := v }

/-- `PARV[n] <- 1 ; PAR[n] <- p`. -/
def setParent (s : State) (n p : Nat) : State := s.modNode n fun x => { x with par := some p }

/-- A pair of children with the slot `d` replaced. -/
def putSlot (d : Side) (c : Nat) (k : Nat × Nat) : Nat × Nat :=
  match d with
  | .left => (c, k.2)
  | .right => (k.1, c)

/-- `LEFT[p] <- c` or `RIGHT[p] <- c`. -/
def setChild (s : State) (p : Nat) (d : Side) (c : Nat) : State :=
  s.modNode p fun x => { x with kids := x.kids.map (putSlot d c) }

/-- The slot of `p` that holds `n`, when exactly one does (10_state.md R31). -/
def childSide (s : State) (p n : Nat) : Option Side :=
  match s.kids p with
  | none => none
  | some (l, r) =>
    if l = n then (if r = n then none else some .left)
    else if r = n then some .right else none

/-! ## The order sequence (10_state.md R32, R33) -/

/-- `rank(n)`: the unique `k` with `ORD[k] == n`, when there is exactly one (10_state.md R33). -/
def rank (s : State) (n : Nat) : Option Nat := if s.ord.count n = 1 then s.ord.idxOf? n else none

/-! ## The root path (43_tree_readout.md R190) -/

/-- The bit of a branch: "left = 0, right = 1" (43_tree_readout.md R190). -/
def branchBit : Side → Bool
  | .left => false
  | .right => true

/-- `path(n)` by at most `fuel` parent links (43_tree_readout.md R190). -/
def pathWithin (s : State) : Nat → Nat → Option (List Bool)
  | fuel, n =>
    match s.parent n with
    | none => some []
    | some p =>
      match fuel with
      | 0 => none
      | fuel + 1 =>
        match s.childSide p n, pathWithin s fuel p with
        | some d, some bits => some (bits ++ [branchBit d])
        | _, _ => none

/-- `path(n)` (43_tree_readout.md R190); `NCOUNT` links are enough wherever the links form a tree (10_state.md R31). -/
def path (s : State) (n : Nat) : Option (List Bool) := s.pathWithin s.ncount n

end State

/-! ## How a command ends -/

/-- The numeric code of a status (60_exceptions.md R250). -/
def statusCode : Status → BitVec 4
  | .ok => 0
  | .illegalCmd => 1
  | .alphabet => 2
  | .badIndex => 3
  | .weightOverflow => 4

/-- Fault entry (60_exceptions.md R254): the stores, `ROOT`, `NYT` and `NCOUNT` are as before; `FLT` latches the first fault
(R257); the response has the code in `status` and zero elsewhere. No mode changes and there is no handler address. -/
def takeFault (code : Status) (s : State) : State :=
  { s with
    flt := if s.flt = .ok then code else s.flt
    rsp := some { status := code } }

/-- What follows a fault or any other command: there is no return command (60_exceptions.md R258); the host takes the
response and the engine is ready (30_encoding.md R92). -/
def takeResponse (s : State) : State := { s with rsp := none }

/-- `raise Fault(code)` (00_scope.md R11). -/
def raise (code : Status) (s : State) : Host.Outcome State Fault Refusal := .next (takeFault code s)

/-- `respond(…)` (00_scope.md R11): the command ends and the response `r` is presented. -/
def respond (r : Response) (s : State) : Host.Outcome State Fault Refusal := .next { s with rsp := some r }

/-- The reset state, with the parameter and the host's future inputs kept (10_state.md R42, 70_reset_and_hazards.md R281,
R282). -/
def resetEngine (s : State) : State := { State.resetOf s.weightBits with inputs := s.inputs }

end Sys2Proof.Machine
end

