-- ==== Sys2Proof/Machine/Flags.lean ====
section
/-! DEFINITION. The response `flag`, the only flag there is (10_state.md R27, 30_encoding.md R101), with the `data` that
goes with it. -/

namespace Sys2Proof.Machine

/-- The response of a read of an optional value: `flag` 1 and the value when present, else `flag` 0 and `data` 0
(30_encoding.md R101, 93_implementation_defined.md U10). -/
def optionalResponse (v : Option Nat) : Response := { flag := v.isSome, data := v.getD 0 }

/-- The response of a read that always has a value: `flag` 0 (30_encoding.md R101). -/
def dataResponse (v : Nat) : Response := { data := v }

end Sys2Proof.Machine
end

