-- ==== Sys2Proof/Machine/Operands.lean ====
section
/-! DEFINITION. The operand classes with their range checks (30_encoding.md R94, R95), made on all 12 bits of `arg` and
before anything else of the command (40_session_control.md R120). -/

namespace Sys2Proof.Machine

/-- Class `sym`: `arg[7:0]` once `arg <= 255` has been checked (30_encoding.md R95). -/
def symOperand (a : Arg) : Option Sym := if a.toNat ≤ 255 then some (a.extractLsb' 0 8) else none

/-- Classes `node` and `rank`: the index `arg` once `arg < NCOUNT` has been checked (30_encoding.md R95). -/
def indexOperand (a : Arg) (s : State) : Option Nat := if a.toNat < s.ncount then some a.toNat else none

/-- Class `sr`: the register `arg` once `arg <= 3` has been checked (30_encoding.md R95): 0 `ROOT`, 1 `NYT`, 2 `NCOUNT`,
3 `FLT` (10_state.md R25). -/
def srOperand (a : Arg) (s : State) : Option Nat :=
  match a.toNat with
  | 0 => some s.root
  | 1 => some s.nyt
  | 2 => some s.ncount
  | 3 => some (statusCode s.flt).toNat
  | _ => none

/-- Run `k` on the symbol operand, or raise `ALPHABET` (60_exceptions.md R252). -/
def withSym (a : Arg) (s : State) (k : Sym → Host.Outcome State Fault Refusal) : Host.Outcome State Fault Refusal :=
  match symOperand a with
  | some y => k y
  | none => raise .alphabet s

/-- Run `k` on the node index or rank operand, or raise `BAD_INDEX` (60_exceptions.md R253). -/
def withIndex (a : Arg) (s : State) (k : Nat → Host.Outcome State Fault Refusal) : Host.Outcome State Fault Refusal :=
  match indexOperand a s with
  | some n => k n
  | none => raise .badIndex s

/-- Run `k` on the value of the system register operand, or raise `ILLEGAL_CMD` (60_exceptions.md R251). -/
def withSr (a : Arg) (s : State) (k : Nat → Host.Outcome State Fault Refusal) : Host.Outcome State Fault Refusal :=
  match srOperand a s with
  | some v => k v
  | none => raise .illegalCmd s

end Sys2Proof.Machine
end

