-- ==== Sys2Proof/Machine/Mapper.lean ====
section
/-! DEFINITION. The symbol_leaf_mapper (41_symbol_leaf_mapper.md): the command `LOOKUP` and the internal operation `bind`. -/

namespace Sys2Proof.Machine

/-- The entry of a symbol, if present (10_state.md R34). -/
def indexLookup (y : Sym) : SymIndex → Option Nat
  | [] => none
  | (k, f) :: m => if k = y then some f else indexLookup y m

/-- The table with the entry of `y` set to `f`, keys kept strictly rising. -/
def indexBind (y : Sym) (f : Nat) : SymIndex → SymIndex
  | [] => [(y, f)]
  | (k, g) :: m =>
    if y.toNat < k.toNat then (y, f) :: (k, g) :: m
    else if k = y then (y, f) :: m
    else (k, g) :: indexBind y f m

/-- The canonical form of the symbol index: symbols strictly rising, so that equal tables are equal lists. -/
def SymIndex.wf (m : SymIndex) : Bool := decide ((m.map fun e => e.1.toNat).Pairwise (· < ·))

/-- `lookup(s)`: `SIDXV[s]`, `SIDX[s]` (42_tree_update_engine.md R164). -/
def State.lookup (s : State) (y : Sym) : Option Nat := indexLookup y s.sidx

/-- `bind(s, f)` (41_symbol_leaf_mapper.md R141). -/
def State.bind (s : State) (y : Sym) (f : Nat) : State := { s with sidx := indexBind y f s.sidx }

/-- `LOOKUP s` (41_symbol_leaf_mapper.md R140). -/
def execLookup (a : Arg) (s : State) : Host.Outcome State Fault Refusal :=
  withSym a s fun y => respond (optionalResponse (s.lookup y)) s

end Sys2Proof.Machine
end

