-- ==== Sys2Proof/Machine/Readout.lean ====
section
/-! DEFINITION. The read-out commands (43_tree_readout.md). None of them changes the tree or a register. -/

namespace Sys2Proof.Machine

/-- Respond with the root path of `t`, or stop where it is undefined (43_tree_readout.md R190,
93_implementation_defined.md U9). -/
def respondPath (s : State) (t : Nat) (flag : Bool) (data : Nat) : Host.Outcome State Fault Refusal :=
  match s.path t with
  | some bits => respond { flag := flag, data := data, path := bits } s
  | none => .fault .pathUndefined

/-- The node whose path `PATHS s` returns: the leaf of the symbol when seen, else the NYT leaf (43_tree_readout.md R191). -/
def pathTarget (s : State) (y : Sym) : Nat := (s.lookup y).getD s.nyt

/-- `PATHS s` (43_tree_readout.md R191). -/
def execPaths (a : Arg) (s : State) : Host.Outcome State Fault Refusal :=
  withSym a s fun y => respondPath s (pathTarget s y) (s.lookup y).isSome (pathTarget s y)

/-- `PATHN n` (43_tree_readout.md R192). -/
def execPathn (a : Arg) (s : State) : Host.Outcome State Fault Refusal :=
  withIndex a s fun n => respondPath s n false 0

/-- `RDW n` (43_tree_readout.md R193). -/
def execRdw (a : Arg) (s : State) : Host.Outcome State Fault Refusal :=
  withIndex a s fun n => respond (dataResponse (s.weight n)) s

/-- `RDSYM n` (43_tree_readout.md R194). -/
def execRdsym (a : Arg) (s : State) : Host.Outcome State Fault Refusal :=
  withIndex a s fun n => respond (optionalResponse ((s.sym n).map BitVec.toNat)) s

/-- `RDPAR n` (43_tree_readout.md R195). -/
def execRdpar (a : Arg) (s : State) : Host.Outcome State Fault Refusal :=
  withIndex a s fun n => respond (optionalResponse (s.parent n)) s

/-- `RDLEFT n` (43_tree_readout.md R196). -/
def execRdleft (a : Arg) (s : State) : Host.Outcome State Fault Refusal :=
  withIndex a s fun n => respond (optionalResponse ((s.kids n).map Prod.fst)) s

/-- `RDRIGHT n` (43_tree_readout.md R197). -/
def execRdright (a : Arg) (s : State) : Host.Outcome State Fault Refusal :=
  withIndex a s fun n => respond (optionalResponse ((s.kids n).map Prod.snd)) s

/-- `RDRANK n` (43_tree_readout.md R198). -/
def execRdrank (a : Arg) (s : State) : Host.Outcome State Fault Refusal :=
  withIndex a s fun n =>
    match s.rank n with
    | some k => respond (dataResponse k) s
    | none => .fault .rankUndefined

/-- `ORD[k]` (10_state.md R32); a rank in use always has an entry (log 3). -/
def State.nodeAt (s : State) (k : Nat) : Nat := s.ord[k]?.getD 0

/-- `RDORD k` (43_tree_readout.md R199). -/
def execRdord (a : Arg) (s : State) : Host.Outcome State Fault Refusal :=
  withIndex a s fun k => respond (dataResponse (s.nodeAt k)) s

end Sys2Proof.Machine
end

