-- ==== Sys2Proof/Machine/Session.lean ====
section
/-! DEFINITION. Session and control commands (40_session_control.md): `NOP`, `INIT`, `RDSR`. -/

namespace Sys2Proof.Machine

/-- `NOP` (40_session_control.md R121); its check `arg != 0` is the decoder's (30_encoding.md R98, R105). -/
def execNop (s : State) : Host.Outcome State Fault Refusal := respond {} s

/-- `INIT` (40_session_control.md R122): the state after it is exactly the reset state, whatever it was before. -/
def execInit (s : State) : Host.Outcome State Fault Refusal := respond {} (resetEngine s)

/-- `RDSR r` (40_session_control.md R123). -/
def execRdsr (a : Arg) (s : State) : Host.Outcome State Fault Refusal :=
  withSr a s fun v => respond (dataResponse v) s

end Sys2Proof.Machine
end

