-- ==== Sys2Proof/Machine/Update.lean ====
section
/-! DEFINITION. The tree update engine (42_tree_update_engine.md): `INSERT`, with the split of the top level, the
sibling_property_enforcer (`leader`, `swap_allowed`, `swap`) and the tree_weight_incrementer (`increment`, `ascend`). -/

namespace Sys2Proof.Machine

namespace State

/-! ## split (42_tree_update_engine.md R154) and order_insert (R155) -/

/-- `order_insert(f, i)`: the new leaf at rank 1, the new internal node at rank 2, everything from rank 1 on moves up by two
(42_tree_update_engine.md R155). -/
def orderInsert (s : State) (f i : Nat) : State := { s with ord := s.ord.take 1 ++ [f, i] ++ s.ord.drop 1 }

/-- The two new entries of a split, at indices `i` and `f` (42_tree_update_engine.md R154). -/
def allocPair (s : State) (i f : Nat) (y : Sym) : State :=
  { s with
    nodes := s.nodes ++
      [ { weight := 1, sym := none, par := s.parent s.nyt, kids := some (s.nyt, f) },
        { weight := 1, sym := some y, par := some i, kids := none } ] }

/-- The slot that held the NYT leaf now holds the new internal node `i`: the slot of its former parent, or `ROOT`
(42_tree_update_engine.md R154). -/
def giveNytPlace (s : State) (p : Option Nat) (i : Nat) : Except Fault State :=
  match p with
  | none => .ok { s with root := i }
  | some p =>
    match s.childSide p s.nyt with
    | some d => .ok (s.setChild p d i)
    | none => .error .slotUndefined

/-- `split(s)` (42_tree_update_engine.md R154): the state after it and the node at which the increment phase starts, the
former parent of the NYT leaf. -/
def split (s : State) (y : Sym) : Except Fault (State × Option Nat) :=
  let i := s.ncount
  let f := s.ncount + 1
  let p := s.parent s.nyt
  match ((s.allocPair i f y).setParent s.nyt i).giveNytPlace p i with
  | .error e => .error e
  | .ok t => .ok ({ (t.orderInsert f i).bind y f with ncount := t.ncount + 2 }, p)

/-! ## sibling_property_enforcer (42_tree_update_engine.md R157 to R159) -/

/-- `leader(w)`: the node of weight `w` with the highest rank (42_tree_update_engine.md R157). -/
def leader (s : State) (w : Nat) : Option Nat := s.ord.reverse.find? fun n => s.weight n == w

/-- `swap_allowed(n, l)` (42_tree_update_engine.md R158). -/
def swapAllowed (s : State) (n l : Nat) : Bool :=
  decide (l ≠ n ∧ s.parent n ≠ some l ∧ s.parent l ≠ some n)

/-- The writes of `swap(a, b)` once the two ranks, parents and slots have been read (42_tree_update_engine.md R159). -/
def exchange (s : State) (a ka pa : Nat) (sa : Side) (b kb pb : Nat) (sb : Side) : State :=
  (((({ s with ord := (s.ord.set ka b).set kb a }).setChild pa sa b).setChild pb sb a).setParent a pb).setParent b pa

/-- `swap(a, b)` (42_tree_update_engine.md R159): exchange two nodes' ranks and places in the tree. -/
def swap (s : State) (a b : Nat) : Except Fault State :=
  match s.rank a, s.rank b with
  | some ka, some kb =>
    match s.parent a, s.parent b with
    | some pa, some pb =>
      match s.childSide pa a, s.childSide pb b with
      | some sa, some sb => .ok (s.exchange a ka pa sa b kb pb sb)
      | _, _ => .error .slotUndefined
    | _, _ => .error .swapWithoutParent
  | _, _ => .error .rankUndefined

/-- `enforce(n)`: steps 1 and 2 of the increment phase (42_tree_update_engine.md R156, R164). -/
def enforce (s : State) (n : Nat) : Except Fault State :=
  match s.leader (s.weight n) with
  | none => .error .leaderUndefined
  | some l => if s.swapAllowed n l then s.swap n l else .ok s

/-! ## tree_weight_incrementer (42_tree_update_engine.md R160, R161) -/

/-- `increment(n)` (42_tree_update_engine.md R160). -/
def increment (s : State) (n : Nat) : State := s.setWeight n (weightSucc s.weightBits (s.weight n))

/-- `ascend(n)` (42_tree_update_engine.md R161). -/
def ascend (s : State) (n : Nat) : Option Nat := s.parent n

/-! ## The increment phase and insert (42_tree_update_engine.md R150, R156) -/

/-- The loop of `INSERT` from the cursor (42_tree_update_engine.md R150, R156), for at most `fuel` nodes. -/
def incrementPhase : Nat → Option Nat → State → Except Fault State
  | _, none, s => .ok s
  | 0, some _, _ => .error .walkEndless
  | fuel + 1, some n, s =>
    match s.enforce n with
    | .error e => .error e
    | .ok t => incrementPhase fuel ((t.increment n).ascend n) (t.increment n)

/-- The part of `INSERT` after its checks (42_tree_update_engine.md R150), with `NCOUNT` as the loop's fuel (R161). -/
def insertSymbol (s : State) (y : Sym) : Except Fault State :=
  match s.lookup y with
  | some f => incrementPhase s.ncount (some f) s
  | none =>
    match s.split y with
    | .error e => .error e
    | .ok (t, cur) => incrementPhase t.ncount cur t

end State

/-- `INSERT s` (42_tree_update_engine.md R150): the checks of R151 in their order, the update, and the response with
`flag` = was unseen and `data` = the leaf of the symbol after the command. -/
def execInsert (a : Arg) (s : State) : Host.Outcome State Fault Refusal :=
  withSym a s fun y =>
    if s.weight s.root = weightMax s.weightBits then raise .weightOverflow s
    else
      match s.insertSymbol y with
      | .error e => .fault e
      | .ok t => respond { flag := (s.lookup y).isNone, data := (t.lookup y).getD 0 } t

end Sys2Proof.Machine
end

