-- ==== Sys2Proof/Machine/Dispatch.lean ====
section
/-! DEFINITION. One arm per command of 30_encoding.md R96, each a direct call of its meaning. -/

namespace Sys2Proof.Machine

def exec (i : Instr) (s : State) : Host.Outcome State Fault Refusal :=
  match i with
  | .nop => Sys2Proof.Machine.execNop s
  | .init => Sys2Proof.Machine.execInit s
  | .lookup a => Sys2Proof.Machine.execLookup a s
  | .insert a => Sys2Proof.Machine.execInsert a s
  | .paths a => Sys2Proof.Machine.execPaths a s
  | .pathn a => Sys2Proof.Machine.execPathn a s
  | .rdsr a => Sys2Proof.Machine.execRdsr a s
  | .rdw a => Sys2Proof.Machine.execRdw a s
  | .rdsym a => Sys2Proof.Machine.execRdsym a s
  | .rdpar a => Sys2Proof.Machine.execRdpar a s
  | .rdleft a => Sys2Proof.Machine.execRdleft a s
  | .rdright a => Sys2Proof.Machine.execRdright a s
  | .rdrank a => Sys2Proof.Machine.execRdrank a s
  | .rdord a => Sys2Proof.Machine.execRdord a s

end Sys2Proof.Machine
end

