-- ==== Sys2Proof/Machine/Port.lean ====
section
/-! DEFINITION. The command and response ports (30_encoding.md R90 to R92, R100; 70_reset_and_hazards.md R280): what one
sample of the input pins does, and the output pins as functions of the state. A sample is a clock edge at which no command is
executing (log 1). -/

namespace Sys2Proof.Machine

/-! ## Input pins -/

/-- The host presents the command word `w` (30_encoding.md R91). -/
def PortIn.command (w : CmdWord) : PortIn := { rst := false, cmdValid := true, cmd := w, rspReady := false }

/-- The host takes the response (30_encoding.md R92). -/
def PortIn.take : PortIn := { rst := false, cmdValid := false, cmd := 0, rspReady := true }

/-- The host asserts reset (70_reset_and_hazards.md R280). -/
def PortIn.reset : PortIn := { rst := true, cmdValid := false, cmd := 0, rspReady := false }

/-- The pin samples of a host that issues the command words one after another and takes each response. -/
def hostScript (ws : List CmdWord) : List PortIn := ws.flatMap fun w => [PortIn.command w, PortIn.take]

/-- Execute an accepted command word: its command, or `Fault(ILLEGAL_CMD)` when it is illegal (30_encoding.md R105,
60_exceptions.md R251). -/
def acceptWord (w : CmdWord) (s : State) : Host.Outcome State Fault Refusal :=
  match decode w with
  | .ok i => exec i s
  | .error _ => raise .illegalCmd s

/-- One sample of the input pins. Reset wins over everything (70_reset_and_hazards.md R280). While a response is presented
`cmd_ready` is 0, so a command waits, and the response goes when `rsp_ready` is 1 (30_encoding.md R91, R92). Otherwise a
valid command word is accepted (R91). -/
def portEdge (p : PortIn) (s : State) : Host.Outcome State Fault Refusal :=
  if p.rst then .next (resetEngine s)
  else
    match s.rsp with
    | some _ => .next (if p.rspReady then takeResponse s else s)
    | none => if p.cmdValid then acceptWord p.cmd s else .next s

/-! ## Output pins -/

/-- `cmd_ready` while the pin `rst` is as given (30_encoding.md R91, 70_reset_and_hazards.md R280). -/
def cmdReady (rst : Bool) (s : State) : Bool := !rst && s.rsp.isNone

/-- `rsp_valid` while the pin `rst` is as given (30_encoding.md R92, 70_reset_and_hazards.md R280). -/
def rspValid (rst : Bool) (s : State) : Bool := !rst && s.rsp.isSome

/-- `rsp_status` (30_encoding.md R90, R100). -/
def Response.statusWire (r : Response) : BitVec 4 := statusCode r.status

/-- `rsp_data`, `DATA_BITS` wide (30_encoding.md R90, 20_memory.md R62: bit 0 least significant). -/
def Response.dataWire (wb : Nat) (r : Response) : BitVec (Config.dataBits wb) := BitVec.ofNat _ r.data

/-- `rsp_len` (30_encoding.md R90). -/
def Response.lenWire (r : Response) : BitVec 9 := BitVec.ofNat 9 r.path.length

/-- `rsp_path`: path bit `k` at `rsp_path[k]`, bits at `len` and above 0 (30_encoding.md R100, 20_memory.md R62). -/
def Response.pathWire (r : Response) : BitVec 256 :=
  BitVec.ofNat 256 (r.path.foldr (fun b n => b.toNat + 2 * n) 0)

end Sys2Proof.Machine
end

