-- ==== Sys2Proof/Machine/Step.lean ====
section
/-! DEFINITION. One step of the machine: the next sample of the input pins (30_encoding.md R90), if the host has one. The
hardware has no program counter (10_state.md R26); the command word comes from the host. -/

namespace Sys2Proof.Machine

/-- One step. With no sample left the host drives zeros for ever and nothing happens (60_exceptions.md R260, log 14). -/
def step (s : State) : Host.Outcome State Fault Refusal :=
  match s.inputs with
  | [] => .next s
  | p :: rest => portEdge p { s with inputs := rest }

/-- The state in which the very next step accepts the table word `w` of `nbits` bits: no response is waiting and the host
presents the word next (log 8). -/
def State.withFetchWord (s : State) (nbits w : Nat) : State :=
  { s with
    rsp := none
    inputs := PortIn.command (BitVec.ofNat 16 (w % 2 ^ nbits)) :: s.inputs }

end Sys2Proof.Machine
end

