-- ==== Sys2Proof/Machine/Drivers.lean ====
section
/-! DEFINITION. The encoder and decoder drivers (44_encoder_decoder_drivers.md) and the pseudo-commands `ENCODE`, `DECODE`,
`RDNODE` (30_encoding.md R104): host procedures over the command set. They add no state to the engine (R220); their own state
is the arguments and results of these functions. -/

namespace Sys2Proof.Machine

/-! ## Bits and characters -/

/-- `lit8(s)`: bit 7 first, bit 0 last (00_scope.md R8). -/
def lit8 (y : Sym) : List Bool :=
  [y.getLsbD 7, y.getLsbD 6, y.getLsbD 5, y.getLsbD 4, y.getLsbD 3, y.getLsbD 2, y.getLsbD 1, y.getLsbD 0]

/-- `byte8(q)`, the inverse of `lit8` (00_scope.md R8). -/
def byte8 (q : List Bool) : Sym := BitVec.ofNat 8 (q.foldl (fun n b => 2 * n + b.toNat) 0)

/-- The stream's character for a bit (44_encoder_decoder_drivers.md R221). -/
def bitChar (b : Bool) : Char := if b then '1' else '0'

/-- The bit of a stream character; none when it is neither '0' nor '1' (44_encoder_decoder_drivers.md R221, R230). -/
def charBit (c : Char) : Option Bool := if c = '0' then some false else if c = '1' then some true else none

/-- The bits of stream characters, if each is one. -/
def charBits : List Char → Option (List Bool)
  | [] => some []
  | c :: cs =>
    match charBit c, charBits cs with
    | some b, some bs => some (b :: bs)
    | _, _ => none

/-! ## Issuing a command -/

/-- How a driver's session fails. -/
inductive DriverError where
  /-- An input value that is not a byte value, rejected before `PATHS` (44_encoder_decoder_drivers.md R223, R231). -/
  | alphabet
  /-- The stream ended inside a symbol (44_encoder_decoder_drivers.md R229). -/
  | incompleteInput
  /-- A character that is no bit (44_encoder_decoder_drivers.md R230). -/
  | malformedInput
  /-- A response with a non-zero status (44_encoder_decoder_drivers.md R231). -/
  | engineFault (code : Status)
  /-- The engine is stuck (93_implementation_defined.md U6, U9); never from reset. -/
  | engineStuck (why : Fault)
  /-- The model refuses the command; never, since every command has its meaning. -/
  | engineRefused (why : Refusal)
  deriving DecidableEq, Repr

/-- A failed session: the error and the engine as it stands. -/
structure Halt where
  error  : DriverError
  engine : State
  deriving DecidableEq, Repr

/-- Issue one command and take its response, whatever its status: a host may go on after a fault (60_exceptions.md R258). -/
def ask (i : Instr) (s : State) : Except Halt (Response × State) :=
  match exec i s with
  | .next t => .ok (t.rsp.getD {}, takeResponse t)
  | .fault f => .error ⟨.engineStuck f, s⟩
  | .refused f => .error ⟨.engineRefused f, s⟩

/-- Issue commands in order and collect their responses, whatever their status. -/
def askAll : List Instr → State → Except Halt (List Response × State)
  | [], s => .ok ([], s)
  | i :: is, s =>
    match ask i s with
    | .error h => .error h
    | .ok (r, t) =>
      match askAll is t with
      | .error h => .error h
      | .ok (rs, u) => .ok (r :: rs, u)

/-- Issue one command as the encoder and decoder drivers do: a non-zero status ends the session
(44_encoder_decoder_drivers.md R231). -/
def issue (i : Instr) (s : State) : Except Halt (Response × State) :=
  match ask i s with
  | .error h => .error h
  | .ok (r, t) => if r.status = .ok then .ok (r, t) else .error ⟨.engineFault r.status, t⟩

/-- Issue commands in order as a driver does and collect their responses. -/
def issueAll : List Instr → State → Except Halt (List Response × State)
  | [], s => .ok ([], s)
  | i :: is, s =>
    match issue i s with
    | .error h => .error h
    | .ok (r, t) =>
      match issueAll is t with
      | .error h => .error h
      | .ok (rs, u) => .ok (r :: rs, u)

/-- The operand that names a node or register by number. -/
def argNat (n : Nat) : Arg := BitVec.ofNat 12 n

/-- The operand that names a symbol. -/
def argSym (y : Sym) : Arg := y.setWidth 12

/-- `RDNODE n`: six reads in order, each with its response, also where they fault (43_tree_readout.md R200). -/
def rdnode (n : Arg) (s : State) : Except Halt (List Response × State) :=
  askAll [.rdw n, .rdsym n, .rdpar n, .rdleft n, .rdright n, .rdrank n] s

/-! ## Encoder -/

/-- What an encoder driver has done so far: the bits it emitted, the engine, and the error that ended it, if any. -/
structure Encoded where
  bits   : List Bool
  engine : State
  failed : Option DriverError
  deriving DecidableEq, Repr

/-- `ENCODE s` (44_encoder_decoder_drivers.md R222). The bits emitted before a failing `INSERT` stay emitted (R231). -/
def encodeSymbol (y : Sym) (s : State) : Encoded :=
  match issue (.paths (argSym y)) s with
  | .error h => ⟨[], h.engine, some h.error⟩
  | .ok (r, t) =>
    let bits := r.path ++ (if r.flag then [] else lit8 y)
    match issue (.insert (argSym y)) t with
    | .error h => ⟨bits, h.engine, some h.error⟩
    | .ok (_, u) => ⟨bits, u, none⟩

/-- `ENCODE` of each input value in order, with the driver's alphabet check (44_encoder_decoder_drivers.md R223, R231). -/
def encodeAll : List Nat → State → Encoded
  | [], s => ⟨[], s, none⟩
  | v :: vs, s =>
    if v ≤ 255 then
      let e := encodeSymbol (BitVec.ofNat 8 v) s
      match e.failed with
      | some _ => e
      | none =>
        let rest := encodeAll vs e.engine
        { rest with bits := e.bits ++ rest.bits }
    else ⟨[], s, some .alphabet⟩

/-- An encode session: `INIT`, then `ENCODE` of each input value (44_encoder_decoder_drivers.md R223). -/
def encodeSession (vs : List Nat) (s : State) : Encoded :=
  match issue .init s with
  | .error h => ⟨[], h.engine, some h.error⟩
  | .ok (_, t) => encodeAll vs t

/-- The encoder's output as the characters of the external contract (44_encoder_decoder_drivers.md R221). -/
def Encoded.chars (e : Encoded) : List Char := e.bits.map bitChar

/-- The walk from a node to the root by `RDPAR` and `RDLEFT`, bits collected the root's branch first
(44_encoder_decoder_drivers.md R236); at most `fuel` links. -/
def climb : Nat → Nat → State → Except Halt (List Bool × State)
  | fuel, n, s =>
    match issue (.rdpar (argNat n)) s with
    | .error h => .error h
    | .ok (p, t) =>
      if p.flag then
        match fuel with
        | 0 => .error ⟨.engineStuck .pathUndefined, t⟩
        | fuel + 1 =>
          match issue (.rdleft (argNat p.data)) t with
          | .error h => .error h
          | .ok (l, u) =>
            match climb fuel p.data u with
            | .error h => .error h
            | .ok (bits, v) => .ok (bits ++ [decide (l.data ≠ n)], v)
      else .ok ([], t)

/-- The code of a symbol without `PATHS`: `LOOKUP`, or the NYT leaf by `RDSR 1`, and the walk up
(44_encoder_decoder_drivers.md R236). -/
def codeByLookup (y : Sym) (s : State) : Except Halt (List Bool × State) :=
  match issue (.lookup (argSym y)) s with
  | .error h => .error h
  | .ok (r, t) =>
    if r.flag then climb Config.maxDepth r.data t
    else
      match issue (.rdsr 1) t with
      | .error h => .error h
      | .ok (q, u) => climb Config.maxDepth q.data u

/-! ## Decoder -/

/-- Where the walk of `DECODE` ends. -/
inductive Walk where
  /-- At the leaf `cur`, with the characters not yet consumed. -/
  | leaf (cur : Nat) (rest : List Char) (engine : State)
  /-- No bit of a next symbol was consumed (44_encoder_decoder_drivers.md R226, R228). -/
  | endOfStream (engine : State)
  | failed (error : DriverError) (engine : State)
  deriving DecidableEq, Repr

/-- The loop of `DECODE` (44_encoder_decoder_drivers.md R226): one character a level, left on 0 and right on 1, until
`RDLEFT` answers flag 0. -/
def walkDown (root : Nat) : List Char → Nat → State → Walk
  | cs, cur, s =>
    match issue (.rdleft (argNat cur)) s with
    | .error h => .failed h.error h.engine
    | .ok (k, t) =>
      if k.flag then
        match cs with
        | [] => if cur = root then .endOfStream t else .failed .incompleteInput t
        | c :: cs =>
          match charBit c with
          | none => .failed .malformedInput t
          | some false => walkDown root cs k.data t
          | some true =>
            match issue (.rdright (argNat cur)) t with
            | .error h => .failed h.error h.engine
            | .ok (q, u) => walkDown root cs q.data u
      else .leaf cur cs t

/-- Eight characters as a literal byte (44_encoder_decoder_drivers.md R226, R229, R230). -/
def readLiteral (cs : List Char) : Except DriverError (Sym × List Char) :=
  if cs.length < 8 then .error .incompleteInput
  else
    match charBits (cs.take 8) with
    | some q => .ok (byte8 q, cs.drop 8)
    | none => .error .malformedInput

/-- What one `DECODE` reports (44_encoder_decoder_drivers.md R226). -/
inductive Decoded where
  | symbol (y : Sym) (rest : List Char) (engine : State)
  | endOfStream (engine : State)
  | failed (error : DriverError) (engine : State)
  /-- The symbol was appended to the output and its `INSERT` failed, which ends the session (R226, R231). -/
  | insertFailed (y : Sym) (error : DriverError) (engine : State)
  deriving DecidableEq, Repr

/-- The end of `DECODE`: the symbol is appended to the output, then `INSERT` of it, then the symbol is reported
(44_encoder_decoder_drivers.md R226). -/
def decodeInsert (y : Sym) (rest : List Char) (s : State) : Decoded :=
  match issue (.insert (argSym y)) s with
  | .error h => .insertFailed y h.error h.engine
  | .ok (_, t) => .symbol y rest t

/-- The leaf part of `DECODE`: the literal at the NYT leaf, else the leaf's symbol (44_encoder_decoder_drivers.md R226). -/
def decodeLeaf (cur : Nat) (cs : List Char) (s : State) : Decoded :=
  match issue (.rdsr 1) s with
  | .error h => .failed h.error h.engine
  | .ok (q, t) =>
    if cur = q.data then
      match readLiteral cs with
      | .error e => .failed e t
      | .ok (y, rest) => decodeInsert y rest t
    else
      match issue (.rdsym (argNat cur)) t with
      | .error h => .failed h.error h.engine
      | .ok (r, u) => decodeInsert (BitVec.ofNat 8 r.data) cs u

/-- `DECODE` on the characters not yet consumed (44_encoder_decoder_drivers.md R226). -/
def decodeSymbol (cs : List Char) (s : State) : Decoded :=
  match issue (.rdsr 0) s with
  | .error h => .failed h.error h.engine
  | .ok (q, t) =>
    match walkDown q.data cs q.data t with
    | .failed e u => .failed e u
    | .endOfStream u => .endOfStream u
    | .leaf cur rest u => decodeLeaf cur rest u

/-- How a decode session ended: cleanly, or with an error (44_encoder_decoder_drivers.md R225). -/
inductive Ending where
  | endOfStream
  | failed (error : DriverError)
  deriving DecidableEq, Repr

/-- What a decode session gives: the symbols appended to the output, the end, and the engine (44_encoder_decoder_drivers.md
R225, R226, R229). -/
structure DecodedAll where
  out    : List Sym
  ending : Ending
  engine : State
  deriving DecidableEq, Repr

/-- `DECODE` repeated until it reports an end or an error (44_encoder_decoder_drivers.md R225). Each `DECODE` that reports a
symbol consumes a character, so one more than the number of characters is fuel enough; running out is a stuck session. -/
def decodeAll : Nat → List Char → State → DecodedAll
  | 0, _, s => ⟨[], .failed (.engineStuck .walkEndless), s⟩
  | fuel + 1, cs, s =>
    match decodeSymbol cs s with
    | .endOfStream t => ⟨[], .endOfStream, t⟩
    | .failed e t => ⟨[], .failed e, t⟩
    | .insertFailed y e t => ⟨[y], .failed e, t⟩
    | .symbol y rest t =>
      let more := decodeAll fuel rest t
      { more with out := y :: more.out }

/-- A decode session: `INIT`, then `DECODE` until the end (44_encoder_decoder_drivers.md R225). -/
def decodeSession (cs : List Char) (s : State) : DecodedAll :=
  match issue .init s with
  | .error h => ⟨[], .failed h.error, h.engine⟩
  | .ok (_, t) => decodeAll (cs.length + 1) cs t

end Sys2Proof.Machine
end

