-- ==== Sys2Proof/Machine/Script.lean ====
section
/-! DEFINITION. The textual form of a command (30_encoding.md R103): an assembler from one line of a script to a command word.
There are no labels and no directives. -/

namespace Sys2Proof.Machine

/-- Why a line is no command. -/
inductive ScriptError where
  | unknownMnemonic
  | operandMissing
  | operandUnexpected
  | badNumeral
  /-- The operand does not fit `arg` (30_encoding.md R103: above 4095). -/
  | operandTooBig
  deriving DecidableEq, Repr

/-- The value of a digit in base 16; a decimal digit has the same value in base 10. -/
def digitValue (c : Char) : Option Nat :=
  if '0' ≤ c ∧ c ≤ '9' then some (c.toNat - '0'.toNat)
  else if 'a' ≤ c ∧ c ≤ 'f' then some (c.toNat - 'a'.toNat + 10)
  else if 'A' ≤ c ∧ c ≤ 'F' then some (c.toNat - 'A'.toNat + 10)
  else none

/-- The value of digits in a base, after `acc`. -/
def digitsValue (base : Nat) : List Char → Nat → Option Nat
  | [], acc => some acc
  | c :: cs, acc =>
    match digitValue c with
    | some d => if d < base then digitsValue base cs (base * acc + d) else none
    | none => none

/-- A decimal numeral, or a hexadecimal one with `0x` (30_encoding.md R103). -/
def numeral : List Char → Option Nat
  | [] => none
  | ['0', 'x'] => none
  | '0' :: 'x' :: cs => digitsValue 16 cs 0
  | cs => digitsValue 10 cs 0

/-- A line without its comment and the spaces before it (30_encoding.md R103: `#` starts a comment; log 11). -/
def stripComment (line : List Char) : List Char :=
  ((line.takeWhile (· ≠ '#')).reverse.dropWhile (· = ' ')).reverse

/-- The command word of an operand given as text, for a row whose class has an operand. -/
def assembleOperand (r : TableRow) (operand : List Char) : Except ScriptError CmdWord :=
  match numeral operand with
  | none => .error .badNumeral
  | some n => if n ≤ 4095 then .ok (r.pattern ||| BitVec.ofNat 16 n) else .error .operandTooBig

/-- Assemble one line; an empty or comment line is no command (30_encoding.md R103). Every operand up to 4095 is accepted,
also one the engine will fault. -/
def assembleLine (line : List Char) : Except ScriptError (Option CmdWord) :=
  match stripComment line with
  | [] => .ok none
  | text =>
    let word := text.takeWhile (· ≠ ' ')
    let rest := text.dropWhile (· ≠ ' ')
    match opcodeTable.find? (fun r => r.mnemonic.toList == word) with
    | none => .error .unknownMnemonic
    | some r =>
      match r.cls, rest with
      | .none, [] => .ok (some r.pattern)
      | .none, _ => .error .operandUnexpected
      | _, [] => .error .operandMissing
      | _, _ :: operand =>
        match assembleOperand r operand with
        | .ok w => .ok (some w)
        | .error e => .error e

end Sys2Proof.Machine
end

