-- ==== Sys2Proof/Safety.lean ====
section
/-! DEFINITION. What a sound state and a safe run are, in the terms claims use. A sound state satisfies the structural rules
and invariants of 10_state.md R29 to R40 and 20_memory.md R66; a run is safe when no step stops. -/

namespace Sys2Proof.Machine

/-- The allocated nodes and ranks are the entries held (10_state.md R23, R30, R32; 00_scope.md R6), and `NCOUNT` counts two
nodes a seen symbol and one (R23). -/
abbrev CountLaw (s : State) : Prop :=
  s.nodes.length = s.ncount ∧ s.ncount = 2 * s.sidx.length + 1 ∧ s.ncount ≤ Config.maxNodes

/-- `ORD` is a permutation of the allocated node indices (10_state.md R32). -/
abbrev OrderPermutation (s : State) : Prop := s.ord.Perm (List.range s.ncount)

/-- The kinds of allocated nodes and where their indices lie (10_state.md R29, 20_memory.md R66): an internal node has an odd
index and no symbol, a symbol leaf an even index above 0, the NYT leaf index 0; only the NYT leaf has weight 0. -/
abbrev KindLaw (s : State) : Prop :=
  ∀ n, n < s.ncount →
    ((s.kids n).isSome = true ↔ n % 2 = 1) ∧ ((s.sym n).isSome = true ↔ n % 2 = 0 ∧ n ≠ 0) ∧ (s.weight n = 0 ↔ n = 0)

/-- The links form one binary tree with root `ROOT` (10_state.md R31): children point back, a parent holds its child in
exactly one slot, and only `ROOT` has no parent. -/
abbrev LinkLaw (s : State) : Prop :=
  s.root < s.ncount ∧
  (∀ n, n < s.ncount → (s.parent n = none ↔ n = s.root)) ∧
  (∀ p, p < s.ncount → ∀ k ∈ s.kids p, k.1 < s.ncount ∧ k.2 < s.ncount ∧ k.1 ≠ k.2 ∧
    s.parent k.1 = some p ∧ s.parent k.2 = some p) ∧
  (∀ n, n < s.ncount → ∀ p ∈ s.parent n, p < s.ncount ∧ (s.childSide p n).isSome = true)

/-- Invariant 1 (10_state.md R35). -/
abbrev WeightSum (s : State) : Prop :=
  ∀ n, n < s.ncount → ∀ k ∈ s.kids n, s.weight n = s.weight k.1 + s.weight k.2

/-- Invariant 2 (10_state.md R36). -/
abbrev WeightOrder (s : State) : Prop :=
  ∀ k, k < s.ncount - 1 → s.weight (s.nodeAt k) ≤ s.weight (s.nodeAt (k + 1))

/-- Invariant 3 (10_state.md R37): exactly one allocated node has no children and no symbol; it is `NYT`, of weight 0. -/
abbrev NytLaw (s : State) : Prop :=
  s.nyt < s.ncount ∧ (∀ n, n < s.ncount → (s.kids n = none ∧ s.sym n = none ↔ n = s.nyt)) ∧ s.weight s.nyt = 0

/-- Invariant 4 (10_state.md R38), on the tree's side: every leaf but `NYT` has a symbol, and no two leaves have the same. -/
abbrev LeafSymbols (s : State) : Prop :=
  (∀ n, n < s.ncount → s.kids n = none → n ≠ s.nyt → (s.sym n).isSome = true) ∧
  (∀ n, n < s.ncount → ∀ m, m < s.ncount → n ≠ m ∧ s.kids n = none ∧ s.kids m = none →
    s.sym n = none ∨ s.sym n ≠ s.sym m)

/-- Invariant 4 (10_state.md R38), where the symbol index and the tree agree: the index gives the leaf of each leaf's symbol,
and each entry of the index is such a leaf. -/
abbrev IndexAgrees (s : State) : Prop :=
  (∀ n, n < s.ncount → s.kids n = none → ∀ y ∈ s.sym n, s.lookup y = some n) ∧
  (∀ e ∈ s.sidx, e.2 < s.ncount ∧ s.kids e.2 = none ∧ s.sym e.2 = some e.1)

/-- The registers' legal values (10_state.md R22, R25): `NYT` is 0; `ROOT` is 0 before the first split of a session and 1
after it. -/
abbrev RegisterLaw (s : State) : Prop := s.nyt = 0 ∧ s.root = if s.ncount = 1 then 0 else 1

/-- The laws of 10_state.md R40 about ranks: the NYT leaf is first and `ROOT` last, a parent ranks above its child, and the
NYT leaf is a left child. The ranks 1 and 2 of the NYT leaf's sibling and parent are DEDUCED from R155, R158 and R159
(log 13). -/
abbrev RankLaw (s : State) : Prop :=
  s.nodeAt 0 = s.nyt ∧ s.nodeAt (s.ncount - 1) = s.root ∧
  (∀ n, n < s.ncount → ∀ p ∈ s.parent n, s.ord.idxOf n < s.ord.idxOf p) ∧
  (∀ p ∈ s.parent s.nyt, s.nodeAt 2 = p ∧ s.kids p = some (s.nyt, s.nodeAt 1))

/-- A weight has a width and the root's fits it (00_scope.md R6, 42_tree_update_engine.md R151). -/
abbrev WidthLaw (s : State) : Prop := 1 ≤ s.weightBits ∧ s.weight s.root ≤ weightMax s.weightBits

/-- Every index and count the state holds is a number of `IDX_BITS` bits (00_scope.md R6; 10_state.md R21 to R23, R28, R32,
R34). -/
abbrev IndexLaw (s : State) : Prop :=
  s.root < 2 ^ Config.idxBits ∧ s.nyt < 2 ^ Config.idxBits ∧ s.ncount < 2 ^ Config.idxBits ∧
  (∀ x ∈ s.nodes, (∀ p ∈ x.par, p < 2 ^ Config.idxBits) ∧
    (∀ k ∈ x.kids, k.1 < 2 ^ Config.idxBits ∧ k.2 < 2 ^ Config.idxBits)) ∧
  (∀ n ∈ s.ord, n < 2 ^ Config.idxBits) ∧ (∀ e ∈ s.sidx, e.2 < 2 ^ Config.idxBits)

/-- A sound state: what holds after reset and after every command (10_state.md section 9, 70_reset_and_hazards.md R288). -/
structure Inv (s : State) : Prop where
  count     : CountLaw s
  order     : OrderPermutation s
  kinds     : KindLaw s
  links     : LinkLaw s
  sums      : WeightSum s
  sorted    : WeightOrder s
  nyt       : NytLaw s
  symbols   : LeafSymbols s
  agrees    : IndexAgrees s
  index     : SymIndex.wf s.sidx = true
  registers : RegisterLaw s
  ranks     : RankLaw s
  width     : WidthLaw s
  indices   : IndexLaw s

/-- The node reached from `n` by taking the branches in order, left on 0 and right on 1 (44_encoder_decoder_drivers.md R226). -/
def State.descend (s : State) : Nat → List Bool → Option Nat
  | n, [] => some n
  | n, b :: bits =>
    match s.kids n with
    | none => none
    | some (l, r) => s.descend (if b then r else l) bits

/-- The nodes from `n` to the root by parent links, at most `fuel` links (10_state.md R31): `n` and its ancestors. -/
def State.upward (s : State) : Nat → Nat → List Nat
  | fuel, n =>
    match s.parent n with
    | none => [n]
    | some p =>
      match fuel with
      | 0 => [n]
      | fuel + 1 => n :: s.upward fuel p

/-- A safe run: no step from the state ever stops, with a fault or a refusal. -/
def NeverStops (s : State) : Prop := ∀ k, ∃ t, Sys2Proof.core.run k s = .next t

end Sys2Proof.Machine
end

