-- ==== Sys2Proof/Certificates/Slice0/Obligations.lean ====
section
/-! DEFINITION. The statements for the provers. Each docstring names the rule of spec/ the statement formalises or rests on. -/

open Sys2Proof Sys2Proof.Machine

/-! ## Encoding -/

/-- Decoding the word of a well-formed command gives the command back, with every operand value the encoding admits
(30_encoding.md R93, R96, R105). -/
def Obligations.DecodeOfEncode : Prop := ∀ i : Instr, i.wf = true → decode (encode i) = .ok i

/-- A word that decodes is the one word of its command, and the command is well formed (30_encoding.md R96, R105). -/
def Obligations.EncodeOfDecode : Prop := ∀ (w : CmdWord) (i : Instr), decode w = .ok i → i.wf = true ∧ encode i = w

/-- No word matches two rows of the table, a word matches a row exactly when it decodes, and the row is the command's
(30_encoding.md R96). -/
def Obligations.TableRowsSelectTheDecodedCommand : Prop :=
  ∀ w : CmdWord,
    (∀ r₁ ∈ opcodeTable, ∀ r₂ ∈ opcodeTable, r₁.selects w = true → r₂.selects w = true → r₁ = r₂) ∧
    ((∃ r ∈ opcodeTable, r.selects w = true) ↔ ∃ i, decode w = .ok i) ∧
    (∀ i, decode w = .ok i → ∃ r ∈ opcodeTable, r.selects w = true ∧ r.mnemonic = mnemonicOf i)

/-- The illegal words (30_encoding.md R97, R98): opcode 0xE or 0xF whatever the operand, `NOP` or `INIT` with a non-zero
operand, `RDSR` with an operand above 3; every other word decodes. They fault with `ILLEGAL_CMD` in every state. -/
def Obligations.IllegalWordsAreTheReservedOnes : Prop :=
  ∀ w : CmdWord,
    ((∃ e, decode w = .error e) ↔
      (w.toNat / 4096 = 14 ∨ w.toNat / 4096 = 15) ∨
      ((w.toNat / 4096 = 0 ∨ w.toNat / 4096 = 1) ∧ w.toNat % 4096 ≠ 0) ∨
      (w.toNat / 4096 = 6 ∧ 3 < w.toNat % 4096)) ∧
    (∀ e, decode w = .error e → ∀ s, acceptWord w s = .next (takeFault .illegalCmd s))

/-- Words written out from the table of 30_encoding.md R96 and from 30_encoding.md R103 decode to the commands they stand
for. -/
def Obligations.SampleWordsDecode : Prop :=
  decode 0x0000 = .ok .nop ∧ decode 0x1000 = .ok .init ∧ decode 0x20FF = .ok (.lookup 255) ∧
  decode 0x3061 = .ok (.insert 0x61) ∧ decode 0x4FFF = .ok (.paths 4095) ∧ decode 0x6002 = .ok (.rdsr 2) ∧
  decode 0xA001 = .ok (.rdleft 1) ∧ decode 0xD004 = .ok (.rdord 4)

/-! ## Ports and steps -/

/-- A step accepts the word on the pins and runs the decoded command on the state whose pin sample is consumed
(30_encoding.md R91, R105). -/
def Obligations.StepRunsDecodedCommand : Prop :=
  ∀ (s : State) (p : PortIn) (rest : List PortIn) (i : Instr),
    s.inputs = p :: rest → p.rst = false → p.cmdValid = true → s.rsp = none → decode p.cmd = .ok i →
    step s = exec i { s with inputs := rest }

/-- A step that accepts an illegal word takes the fault `ILLEGAL_CMD` (30_encoding.md R105, 60_exceptions.md R251). -/
def Obligations.StepFaultsOnIllegalWord : Prop :=
  ∀ (s : State) (p : PortIn) (rest : List PortIn) (e : DecodeReject),
    s.inputs = p :: rest → p.rst = false → p.cmdValid = true → s.rsp = none → decode p.cmd = .error e →
    step s = .next (takeFault .illegalCmd { s with inputs := rest })

/-- While a response is presented no command is accepted; the response stays as it is until the host takes it, and then the
engine is ready (30_encoding.md R91, R92). -/
def Obligations.CommandWaitsUntilResponseIsTaken : Prop :=
  ∀ (s : State) (p : PortIn) (rest : List PortIn) (r : Response),
    s.inputs = p :: rest → p.rst = false → s.rsp = some r →
    cmdReady false s = false ∧ rspValid false s = true ∧
    step s = .next { s with inputs := rest, rsp := if p.rspReady then none else some r } ∧
    (∀ t, step s = .next t → p.rspReady = true → cmdReady false t = true ∧ rspValid false t = false)

/-- Reset takes effect at once and from every state, whatever else is on the pins; while it is asserted no command is accepted
and no response is valid, and after it the engine is ready (70_reset_and_hazards.md R280). -/
def Obligations.ResetReplacesTheState : Prop :=
  ∀ (s : State) (p : PortIn) (rest : List PortIn),
    s.inputs = p :: rest → p.rst = true →
    cmdReady p.rst s = false ∧ rspValid p.rst s = false ∧
    step s = .next { State.resetOf s.weightBits with inputs := rest } ∧
    (∀ t, step s = .next t → cmdReady false t = true ∧ rspValid false t = false)

/-- Without a command and without reset nothing happens in the engine (60_exceptions.md R260). That the host drives zeros when
the list of samples is empty is the model's choice (log 14). -/
def Obligations.NothingHappensWithoutACommand : Prop :=
  (∀ s : State, s.inputs = [] → step s = .next s) ∧
  (∀ (s : State) (p : PortIn) (rest : List PortIn),
    s.inputs = p :: rest → p.rst = false → p.cmdValid = false → s.rsp = none → step s = .next { s with inputs := rest })

/-- Every command word accepted in a sound state gets its one response, and the pins are consumed by one sample
(30_encoding.md R92). -/
def Obligations.EveryAcceptedWordGetsItsResponse : Prop :=
  ∀ (s : State) (p : PortIn) (rest : List PortIn),
    Inv s → s.inputs = p :: rest → p.rst = false → p.cmdValid = true → s.rsp = none →
    ∃ t r, step s = .next t ∧ t.rsp = some r ∧ t.inputs = rest

/-! ## Reset, soundness, safety -/

/-- The reset table (10_state.md R42), value fields under a valid bit of 0 read as 0, the four invariants hold, and `INIT`
produces the same state. -/
def Obligations.ResetStateIsTheEmptyTree : Prop :=
  ∀ wb : Nat,
    let s := State.resetOf wb
    s.root = 0 ∧ s.nyt = 0 ∧ s.ncount = 1 ∧ s.flt = .ok ∧ s.weight 0 = 0 ∧ s.sym 0 = none ∧ s.parent 0 = none ∧
    s.kids 0 = none ∧ s.nodeAt 0 = 0 ∧ (∀ y, s.lookup y = none) ∧
    (∀ i ∈ [Instr.rdsym 0, .rdpar 0, .rdleft 0, .rdright 0], exec i s = .next { s with rsp := some {} }) ∧
    (∀ a : Arg, a.toNat ≤ 255 → exec (.lookup a) s = .next { s with rsp := some {} }) ∧
    WeightSum s ∧ WeightOrder s ∧ NytLaw s ∧ LeafSymbols s ∧ IndexAgrees s ∧
    (∀ u : State, u.weightBits = wb → exec .init u = .next { s with inputs := u.inputs, rsp := some {} })

/-- The reset state is sound for every width of at least one bit (10_state.md R42, 70_reset_and_hazards.md R288). -/
def Obligations.ResetStateIsSound : Prop := ∀ wb : Nat, 1 ≤ wb → Inv (State.resetOf wb)

/-- Every step from a sound state gives a sound state (10_state.md R29 to R38 and R40, 70_reset_and_hazards.md R288). The two
clauses of `RankLaw` on ranks 1 and 2 are DEDUCED (log 13). -/
def Obligations.StepKeepsStateSound : Prop := ∀ s t : State, Inv s → step s = .next t → Inv t

/-- From a sound state no step ever stops: the stuck cases of 93_implementation_defined.md U6 and U9 are not reached. -/
def Obligations.SoundStateNeverStops : Prop := ∀ s : State, Inv s → NeverStops s

/-! ## Session and mapper commands -/

/-- `NOP` (40_session_control.md R121). -/
def Obligations.NopChangesNothing : Prop :=
  decode 0x0000 = .ok .nop ∧ (∀ s : State, exec .nop s = .next { s with rsp := some {} }) ∧
  (∀ a : Arg, a ≠ 0 → ∀ s, acceptWord ((0x0 : Opcode) ++ a) s = .next (takeFault .illegalCmd s))

/-- `INIT` (40_session_control.md R122): the state after it is the reset state whatever it was before; with an operand it
faults and initialises nothing; it is idempotent and the only command that clears `FLT`. -/
def Obligations.InitStartsASession : Prop :=
  decode 0x1000 = .ok .init ∧
  (∀ s : State, exec .init s = .next { State.resetOf s.weightBits with inputs := s.inputs, rsp := some {} }) ∧
  (∀ a : Arg, a ≠ 0 → ∀ s, acceptWord ((0x1 : Opcode) ++ a) s = .next (takeFault .illegalCmd s)) ∧
  (∀ s t : State, exec .init s = .next t → exec .init t = .next t) ∧
  (∀ wb : Nat, exec .init (State.resetOf wb) = .next { State.resetOf wb with rsp := some {} }) ∧
  (∀ (w : CmdWord) (s t : State), acceptWord w s = .next t → s.flt ≠ .ok → t.flt = .ok → decode w = .ok .init)

/-- `RDSR` (40_session_control.md R123): the four registers by number, zero-extended; other numbers fault; `RDSR 1` reads 0. -/
def Obligations.RdsrReadsTheRegister : Prop :=
  (∀ a : Arg, a.toNat ≤ 3 → decode ((0x6 : Opcode) ++ a) = .ok (.rdsr a)) ∧
  (∀ s : State,
    exec (.rdsr 0) s = .next { s with rsp := some { data := s.root } } ∧
    exec (.rdsr 1) s = .next { s with rsp := some { data := s.nyt } } ∧
    exec (.rdsr 2) s = .next { s with rsp := some { data := s.ncount } } ∧
    exec (.rdsr 3) s = .next { s with rsp := some { data := (statusCode s.flt).toNat } }) ∧
  (∀ (a : Arg) (s : State), 3 < a.toNat →
    exec (.rdsr a) s = .next (takeFault .illegalCmd s) ∧
    acceptWord ((0x6 : Opcode) ++ a) s = .next (takeFault .illegalCmd s)) ∧
  (∀ s : State, Inv s → exec (.rdsr 1) s = .next { s with rsp := some {} })

/-- `LOOKUP` (41_symbol_leaf_mapper.md R140). In a sound state a returned node is the symbol's leaf and not node 0, and the
answer stays valid until the next `INIT`. -/
def Obligations.LookupAnswersTheLeaf : Prop :=
  (∀ a : Arg, decode ((0x2 : Opcode) ++ a) = .ok (.lookup a)) ∧
  (∀ (a : Arg) (s : State) (f : Nat), a.toNat ≤ 255 → s.lookup (a.extractLsb' 0 8) = some f →
    exec (.lookup a) s = .next { s with rsp := some { flag := true, data := f } }) ∧
  (∀ (a : Arg) (s : State), a.toNat ≤ 255 → s.lookup (a.extractLsb' 0 8) = none →
    exec (.lookup a) s = .next { s with rsp := some {} }) ∧
  (∀ (a : Arg) (s : State), 255 < a.toNat → exec (.lookup a) s = .next (takeFault .alphabet s)) ∧
  (∀ (a : Arg) (wb : Nat), a.toNat ≤ 255 →
    exec (.lookup a) (State.resetOf wb) = .next { State.resetOf wb with rsp := some {} }) ∧
  (∀ (s : State) (y : Sym) (f : Nat), Inv s → s.lookup y = some f →
    f < s.ncount ∧ f ≠ 0 ∧ s.kids f = none ∧ s.sym f = some y) ∧
  (∀ (w : CmdWord) (s t : State) (y : Sym) (f : Nat), Inv s → acceptWord w s = .next t → decode w ≠ .ok .init →
    s.lookup y = some f → t.lookup y = some f)

/-! ## Read-out commands -/

/-- `PATHS` (43_tree_readout.md R191): in a sound state it answers the root path of the symbol's leaf, or of the NYT leaf,
which leads from the root to that node. With one seen symbol the two paths are 1 and 0; a non-empty NYT path ends in 0. -/
def Obligations.PathsAnswersTheRootPath : Prop :=
  (∀ a : Arg, decode ((0x4 : Opcode) ++ a) = .ok (.paths a)) ∧
  (∀ (a : Arg) (s : State), Inv s → a.toNat ≤ 255 →
    ∃ bits, s.path (pathTarget s (a.extractLsb' 0 8)) = some bits ∧
      s.descend s.root bits = some (pathTarget s (a.extractLsb' 0 8)) ∧
      exec (.paths a) s = .next { s with
        rsp := some { flag := (s.lookup (a.extractLsb' 0 8)).isSome, data := pathTarget s (a.extractLsb' 0 8),
                      path := bits } }) ∧
  (∀ (s : State) (y : Sym), pathTarget s y = match s.lookup y with | some f => f | none => s.nyt) ∧
  (∀ (a : Arg) (s : State), 255 < a.toNat → exec (.paths a) s = .next (takeFault .alphabet s)) ∧
  (∀ (a : Arg) (wb : Nat), a.toNat ≤ 255 →
    exec (.paths a) (State.resetOf wb) = .next { State.resetOf wb with rsp := some {} }) ∧
  (∀ (s : State) (y : Sym) (f : Nat), Inv s → s.ncount = 3 → s.lookup y = some f →
    s.path f = some [true] ∧ s.path s.nyt = some [false]) ∧
  (∀ (s : State) (bits : List Bool), Inv s → s.path s.nyt = some bits → bits ≠ [] → bits.getLast? = some false)

/-- `PATHN` (43_tree_readout.md R192): the root path of an allocated node, empty at the root; `PATHN 0` is the NYT path. -/
def Obligations.PathnAnswersTheRootPath : Prop :=
  (∀ a : Arg, decode ((0x5 : Opcode) ++ a) = .ok (.pathn a)) ∧
  (∀ (a : Arg) (s : State), Inv s → a.toNat < s.ncount →
    ∃ bits, s.path a.toNat = some bits ∧ s.descend s.root bits = some a.toNat ∧ (a.toNat = s.root → bits = []) ∧
      exec (.pathn a) s = .next { s with rsp := some { path := bits } }) ∧
  (∀ (a : Arg) (s : State), s.ncount ≤ a.toNat → exec (.pathn a) s = .next (takeFault .badIndex s)) ∧
  (∀ s : State, Inv s →
    ∃ bits, s.path s.nyt = some bits ∧ exec (.pathn 0) s = .next { s with rsp := some { path := bits } })

/-- `RDW` (43_tree_readout.md R193). -/
def Obligations.RdwReadsTheWeight : Prop :=
  (∀ a : Arg, decode ((0x7 : Opcode) ++ a) = .ok (.rdw a)) ∧
  (∀ (a : Arg) (s : State), a.toNat < s.ncount →
    exec (.rdw a) s = .next { s with rsp := some { data := s.weight a.toNat } }) ∧
  (∀ (a : Arg) (s : State), s.ncount ≤ a.toNat → exec (.rdw a) s = .next (takeFault .badIndex s)) ∧
  (∀ s : State, Inv s → exec (.rdw 0) s = .next { s with rsp := some {} })

/-- `RDSYM` (43_tree_readout.md R194): the NYT leaf and every internal node answer `flag` 0. -/
def Obligations.RdsymReadsTheSymbol : Prop :=
  (∀ a : Arg, decode ((0x8 : Opcode) ++ a) = .ok (.rdsym a)) ∧
  (∀ (a : Arg) (s : State) (y : Sym), a.toNat < s.ncount → s.sym a.toNat = some y →
    exec (.rdsym a) s = .next { s with rsp := some { flag := true, data := y.toNat } }) ∧
  (∀ (a : Arg) (s : State), a.toNat < s.ncount → s.sym a.toNat = none →
    exec (.rdsym a) s = .next { s with rsp := some {} }) ∧
  (∀ (a : Arg) (s : State), s.ncount ≤ a.toNat → exec (.rdsym a) s = .next (takeFault .badIndex s)) ∧
  (∀ (n : Nat) (s : State), Inv s → n < s.ncount → (s.sym n = none ↔ n = s.nyt ∨ s.kids n ≠ none))

/-- `RDPAR` (43_tree_readout.md R195): `flag` is 0 exactly on the root. -/
def Obligations.RdparReadsTheParent : Prop :=
  (∀ a : Arg, decode ((0x9 : Opcode) ++ a) = .ok (.rdpar a)) ∧
  (∀ (a : Arg) (s : State) (p : Nat), a.toNat < s.ncount → s.parent a.toNat = some p →
    exec (.rdpar a) s = .next { s with rsp := some { flag := true, data := p } }) ∧
  (∀ (a : Arg) (s : State), a.toNat < s.ncount → s.parent a.toNat = none →
    exec (.rdpar a) s = .next { s with rsp := some {} }) ∧
  (∀ (a : Arg) (s : State), s.ncount ≤ a.toNat → exec (.rdpar a) s = .next (takeFault .badIndex s)) ∧
  (∀ (n : Nat) (s : State), Inv s → n < s.ncount → (s.parent n = none ↔ n = s.root))

/-- `RDLEFT` (43_tree_readout.md R196): `flag` is 1 exactly on internal nodes. -/
def Obligations.RdleftReadsTheLeftChild : Prop :=
  (∀ a : Arg, decode ((0xA : Opcode) ++ a) = .ok (.rdleft a)) ∧
  (∀ (a : Arg) (s : State) (l r : Nat), a.toNat < s.ncount → s.kids a.toNat = some (l, r) →
    exec (.rdleft a) s = .next { s with rsp := some { flag := true, data := l } }) ∧
  (∀ (a : Arg) (s : State), a.toNat < s.ncount → s.kids a.toNat = none →
    exec (.rdleft a) s = .next { s with rsp := some {} }) ∧
  (∀ (a : Arg) (s : State), s.ncount ≤ a.toNat → exec (.rdleft a) s = .next (takeFault .badIndex s))

/-- `RDRIGHT` (43_tree_readout.md R197): `flag` is 1 exactly on internal nodes, and a right child is never node 0. -/
def Obligations.RdrightReadsTheRightChild : Prop :=
  (∀ a : Arg, decode ((0xB : Opcode) ++ a) = .ok (.rdright a)) ∧
  (∀ (a : Arg) (s : State) (l r : Nat), a.toNat < s.ncount → s.kids a.toNat = some (l, r) →
    exec (.rdright a) s = .next { s with rsp := some { flag := true, data := r } }) ∧
  (∀ (a : Arg) (s : State), a.toNat < s.ncount → s.kids a.toNat = none →
    exec (.rdright a) s = .next { s with rsp := some {} }) ∧
  (∀ (a : Arg) (s : State), s.ncount ≤ a.toNat → exec (.rdright a) s = .next (takeFault .badIndex s)) ∧
  (∀ (n l r : Nat) (s : State), Inv s → n < s.ncount → s.kids n = some (l, r) → r ≠ 0)

/-- `RDRANK` (43_tree_readout.md R198): in a sound state it answers the one rank at which the node stands; node 0 is at rank 0
and the root at rank `NCOUNT - 1`. -/
def Obligations.RdrankReadsTheRank : Prop :=
  (∀ a : Arg, decode ((0xC : Opcode) ++ a) = .ok (.rdrank a)) ∧
  (∀ (a : Arg) (s : State), Inv s → a.toNat < s.ncount →
    ∃ k, k < s.ncount ∧ s.nodeAt k = a.toNat ∧ (∀ j, j < s.ncount → s.nodeAt j = a.toNat → j = k) ∧
      exec (.rdrank a) s = .next { s with rsp := some { data := k } }) ∧
  (∀ (a : Arg) (s : State), s.ncount ≤ a.toNat → exec (.rdrank a) s = .next (takeFault .badIndex s)) ∧
  (∀ s : State, Inv s → exec (.rdrank 0) s = .next { s with rsp := some {} } ∧
    exec (.rdrank (argNat s.root)) s = .next { s with rsp := some { data := s.ncount - 1 } })

/-- `RDORD` (43_tree_readout.md R199); `RDORD` and `RDRANK` are inverse in a sound state. -/
def Obligations.RdordReadsTheOrder : Prop :=
  (∀ a : Arg, decode ((0xD : Opcode) ++ a) = .ok (.rdord a)) ∧
  (∀ (a : Arg) (s : State), a.toNat < s.ncount →
    exec (.rdord a) s = .next { s with rsp := some { data := s.nodeAt a.toNat } }) ∧
  (∀ (a : Arg) (s : State), s.ncount ≤ a.toNat → exec (.rdord a) s = .next (takeFault .badIndex s)) ∧
  (∀ (a b : Arg) (s : State), Inv s → a.toNat < s.ncount → b.toNat < s.ncount →
    (exec (.rdrank a) s = .next { s with rsp := some { data := b.toNat } } ↔
      exec (.rdord b) s = .next { s with rsp := some { data := a.toNat } }))

/-- The root path by its recursion (43_tree_readout.md R190): empty at the root, else the parent's path and then 0 for a left
child, 1 for a right child. -/
def Obligations.PathFollowsTheBranches : Prop :=
  ∀ (s : State) (n : Nat), Inv s → n < s.ncount →
    (s.parent n = none → s.path n = some []) ∧
    (∀ p l r, s.parent n = some p → s.kids p = some (l, r) →
      ∃ bits, s.path p = some bits ∧
        (l = n → s.path n = some (bits ++ [false])) ∧ (r = n → s.path n = some (bits ++ [true])) ∧ (l = n ↔ r ≠ n))

/-- Neither of two different leaves' paths is a prefix of the other's (43_tree_readout.md R190). -/
def Obligations.LeafPathsArePrefixFree : Prop :=
  ∀ (s : State) (n m : Nat) (p q : List Bool), Inv s → n < s.ncount → m < s.ncount → n ≠ m →
    s.kids n = none → s.kids m = none → s.path n = some p → s.path m = some q → ¬ p <+: q

/-- Every allocated node has a root path of at most 256 bits (43_tree_readout.md R190, 00_scope.md R6). -/
def Obligations.PathsHaveAtMost256Bits : Prop :=
  ∀ (s : State) (n : Nat), Inv s → n < s.ncount → ∃ bits, s.path n = some bits ∧ bits.length ≤ 256

/-- A response of a command in a sound state fits its ports, and the ports carry it: `rsp_data` and `rsp_len` hold the values,
path bit `k` is at `rsp_path[k]` and bits at `len` and above are 0; with a non-zero status every other field is 0
(30_encoding.md R100). -/
def Obligations.ResponseFitsItsPorts : Prop :=
  ∀ (w : CmdWord) (s t : State) (r : Response), Inv s → acceptWord w s = .next t → t.rsp = some r →
    (r.dataWire s.weightBits).toNat = r.data ∧ r.lenWire.toNat = r.path.length ∧
    (∀ k, k < 256 → r.pathWire.getLsbD k = r.path[k]?.getD false) ∧
    (r.status ≠ .ok → r.flag = false ∧ r.data = 0 ∧ r.path = [])

/-! ## Frames and faults -/

/-- The twelve commands but `INIT` and `INSERT` leave all state unchanged when they succeed (20_memory.md R65); when they fault
they only take the fault. -/
def Obligations.ReadCommandsChangeNoState : Prop :=
  ∀ (i : Instr) (s t : State), i ≠ .init → (∀ a, i ≠ .insert a) → exec i s = .next t →
    (∃ r : Response, r.status = .ok ∧ t = { s with rsp := some r }) ∨
    (∃ c : Status, c ≠ .ok ∧ t = takeFault c s)

/-- Fault entry (60_exceptions.md R254): whatever the word, a response with a non-zero status goes with a state in which only
`FLT` and the response port changed, and every other response field is 0; the engine is ready when the response is taken. -/
def Obligations.FaultChangesOnlyFlt : Prop :=
  ∀ (w : CmdWord) (s t : State) (r : Response), acceptWord w s = .next t → t.rsp = some r → r.status ≠ .ok →
    r = { status := r.status } ∧
    t = { s with flt := if s.flt = .ok then r.status else s.flt, rsp := some r } ∧
    cmdReady false (takeResponse t) = true

/-- The `FLT` latch (60_exceptions.md R257): a fault is latched when `FLT` is 0 and else `FLT` keeps its value; `INIT` and
reset set it to 0; an `INIT` word with an operand latches like any other fault. -/
def Obligations.FltLatchesTheFirstFault : Prop :=
  (∀ (s t : State) (p : PortIn), p.rst = true → portEdge p s = .next t → t.flt = .ok) ∧
  ∀ (w : CmdWord) (s t : State) (r : Response), acceptWord w s = .next t → t.rsp = some r →
    (decode w = .ok .init → t.flt = .ok) ∧
    (decode w ≠ .ok .init → t.flt = if s.flt = .ok then r.status else s.flt)

/-- `FLT` gates nothing (60_exceptions.md R258): but for `RDSR 3`, which reads it, every command does the same whatever `FLT`
holds; only what it leaves in `FLT` may differ. -/
def Obligations.FltGatesNothing : Prop :=
  ∀ (i : Instr) (s : State) (f : Status), i ≠ .rdsr 3 →
    (∀ t, exec i s = .next t → ∃ g, exec i { s with flt := f } = .next { t with flt := g }) ∧
    (∀ e, exec i s = .fault e → exec i { s with flt := f } = .fault e)

/-- Each fault has exactly its causes (60_exceptions.md R250), and of two that apply the first in the order of R256 is
reported. The codes are those of R250, and no other is produced. -/
def Obligations.FaultsHaveTheirCauses : Prop :=
  (statusCode .ok = 0 ∧ statusCode .illegalCmd = 1 ∧ statusCode .alphabet = 2 ∧ statusCode .badIndex = 3 ∧
    statusCode .weightOverflow = 4 ∧ ∀ c : Status, (statusCode c).toNat ≤ 4) ∧
  ∀ (w : CmdWord) (s t : State) (r : Response), acceptWord w s = .next t → t.rsp = some r →
    (r.status = .illegalCmd ↔ ∃ e, decode w = .error e) ∧
    (r.status = .alphabet ↔ ∃ a : Arg, 255 < a.toNat ∧
      (decode w = .ok (.lookup a) ∨ decode w = .ok (.insert a) ∨ decode w = .ok (.paths a))) ∧
    (r.status = .badIndex ↔ ∃ a : Arg, s.ncount ≤ a.toNat ∧
      (decode w = .ok (.pathn a) ∨ decode w = .ok (.rdw a) ∨ decode w = .ok (.rdsym a) ∨ decode w = .ok (.rdpar a) ∨
        decode w = .ok (.rdleft a) ∨ decode w = .ok (.rdright a) ∨ decode w = .ok (.rdrank a) ∨
        decode w = .ok (.rdord a))) ∧
    (r.status = .weightOverflow ↔ ∃ a : Arg, a.toNat ≤ 255 ∧ decode w = .ok (.insert a) ∧
      s.weight s.root = 2 ^ s.weightBits - 1)

/-! ## INSERT and its parts -/

/-- The checks of `INSERT` in their order (42_tree_update_engine.md R151): the alphabet first, also when the root weight is at
its greatest value, then the weight range; both leave the tree as it was. -/
def Obligations.InsertChecksAlphabetThenWeight : Prop :=
  (∀ (a : Arg) (s : State), 255 < a.toNat → exec (.insert a) s = .next (takeFault .alphabet s)) ∧
  (∀ (a : Arg) (s : State), a.toNat ≤ 255 → s.weight s.root = 2 ^ s.weightBits - 1 →
    exec (.insert a) s = .next (takeFault .weightOverflow s))

/-- `INSERT` completes in every sound state whose root weight is below the greatest value, with the response of
42_tree_update_engine.md R150: `flag` = the symbol was unseen, `data` = its leaf, which for an unseen symbol is the new node
`NCOUNT + 1` and for a seen one is unchanged. -/
def Obligations.InsertCompletes : Prop :=
  ∀ (a : Arg) (s : State), Inv s → a.toNat ≤ 255 → s.weight s.root ≠ 2 ^ s.weightBits - 1 →
    ∃ t f, exec (.insert a) s = .next t ∧ t.lookup (a.extractLsb' 0 8) = some f ∧
      t.rsp = some { flag := (s.lookup (a.extractLsb' 0 8)).isNone, data := f } ∧
      f = (s.lookup (a.extractLsb' 0 8)).getD (s.ncount + 1)

/-- The first `INSERT` of a session, field by field (42_tree_update_engine.md R166 example 1, for every symbol and width). -/
def Obligations.FirstInsertBuildsTheFirstTree : Prop :=
  ∀ (wb : Nat) (a : Arg), 1 ≤ wb → a.toNat ≤ 255 →
    exec (.insert a) (State.resetOf wb) = .next
      { State.resetOf wb with
        root := 1
        ncount := 3
        nodes := [⟨0, none, some 1, none⟩, ⟨1, none, none, some (0, 2)⟩, ⟨1, some (a.extractLsb' 0 8), some 1, none⟩]
        ord := [0, 2, 1]
        sidx := [(a.extractLsb' 0 8, 2)]
        rsp := some { flag := true, data := 2 } }

/-- `split` in a sound state (42_tree_update_engine.md R154, with `order_insert` R155 and `bind` 41_symbol_leaf_mapper.md
R141): every field it writes, the cursor it returns, and that nothing else changes. -/
def Obligations.SplitPutsAnInternalNodeInNytsPlace : Prop :=
  ∀ (s : State) (y : Sym), Inv s → s.lookup y = none →
    ∃ t, s.split y = .ok (t, s.parent s.nyt) ∧
      t.ncount = s.ncount + 2 ∧ t.nyt = s.nyt ∧ t.flt = s.flt ∧
      t.weightBits = s.weightBits ∧ t.rsp = s.rsp ∧ t.inputs = s.inputs ∧
      t.node s.ncount = ⟨1, none, s.parent s.nyt, some (s.nyt, s.ncount + 1)⟩ ∧
      t.node (s.ncount + 1) = ⟨1, some y, some s.ncount, none⟩ ∧
      t.node s.nyt = { s.node s.nyt with par := some s.ncount } ∧
      (s.parent s.nyt = none → t.root = s.ncount) ∧
      (∀ p l r, s.parent s.nyt = some p → s.kids p = some (l, r) → t.root = s.root ∧
        t.node p = { s.node p with kids := some (if l = s.nyt then (s.ncount, r) else (l, s.ncount)) }) ∧
      (∀ n, n < s.ncount → n ≠ s.nyt → s.parent s.nyt ≠ some n → t.node n = s.node n) ∧
      (∀ k, 1 ≤ k → k < s.ncount → t.nodeAt (k + 2) = s.nodeAt k) ∧ t.nodeAt 0 = s.nodeAt 0 ∧
      t.nodeAt 1 = s.ncount + 1 ∧ t.nodeAt 2 = s.ncount ∧
      t.lookup y = some (s.ncount + 1) ∧ (∀ z, z ≠ y → t.lookup z = s.lookup z)

/-- `leader(w)` is the node of weight `w` with the highest rank; an allocated node's weight has a leader, and unless the node is
the NYT leaf that leader is not the NYT leaf (42_tree_update_engine.md R157). -/
def Obligations.LeaderIsTheHighestOfItsWeight : Prop :=
  (∀ (s : State) (w l : Nat),
    s.leader w = some l ↔
      ∃ k, s.ord[k]? = some l ∧ s.weight l = w ∧ ∀ j m : Nat, k < j → s.ord[j]? = some m → s.weight m ≠ w) ∧
  (∀ (s : State) (n : Nat), Inv s → n < s.ncount →
    ∃ l, s.leader (s.weight n) = some l ∧ (n ≠ s.nyt → l ≠ s.nyt))

/-- `swap(a, b)` in a sound state under its precondition (42_tree_update_engine.md R159): ranks and tree places are exchanged,
siblings included; no weight, symbol or other field changes. -/
def Obligations.SwapExchangesRanksAndPlaces : Prop :=
  ∀ (s : State) (a b pa pb : Nat), Inv s → a < s.ncount → b < s.ncount → a ≠ b →
    s.parent a = some pa → s.parent b = some pb → pa ≠ b → pb ≠ a →
    ∃ t ka kb sa sb, s.swap a b = .ok t ∧ s.rank a = some ka ∧ s.rank b = some kb ∧
      s.childSide pa a = some sa ∧ s.childSide pb b = some sb ∧
      t.nodeAt ka = b ∧ t.nodeAt kb = a ∧ (∀ k, k ≠ ka → k ≠ kb → t.nodeAt k = s.nodeAt k) ∧
      t.parent a = some pb ∧ t.parent b = some pa ∧
      (pa ≠ pb → t.kids pa = (s.kids pa).map (State.putSlot sa b) ∧ t.kids pb = (s.kids pb).map (State.putSlot sb a)) ∧
      (pa = pb → t.kids pa = (s.kids pa).map Prod.swap) ∧
      (∀ n, t.weight n = s.weight n ∧ t.sym n = s.sym n) ∧
      (∀ n, n ≠ a → n ≠ b → t.parent n = s.parent n) ∧
      (∀ n, n ≠ pa → n ≠ pb → t.kids n = s.kids n) ∧
      t.root = s.root ∧ t.nyt = s.nyt ∧ t.ncount = s.ncount ∧ t.flt = s.flt ∧ t.sidx = s.sidx ∧
      t.weightBits = s.weightBits ∧ t.rsp = s.rsp ∧ t.inputs = s.inputs

/-- `swap` of a node without a parent is stuck (93_implementation_defined.md U6). The name of the stuck case is the model's
(log 6). -/
def Obligations.SwapWithoutParentIsStuck : Prop :=
  ∀ (s : State) (a b : Nat), s.rank a ≠ none → s.rank b ≠ none → s.parent a = none ∨ s.parent b = none →
    s.swap a b = .error .swapWithoutParent

/-- `increment(n)` adds one to `W[n]` and changes nothing else (42_tree_update_engine.md R160); below the greatest weight it
does not wrap. -/
def Obligations.IncrementAddsOne : Prop :=
  ∀ (s : State) (n : Nat), n < s.nodes.length → s.weight n < 2 ^ s.weightBits - 1 →
    (s.increment n).node n = { s.node n with weight := s.weight n + 1 } ∧
    (∀ m, m ≠ n → (s.increment n).node m = s.node m) ∧
    s.increment n = { s with nodes := (s.increment n).nodes }

/-- What `INSERT` guarantees on weights (42_tree_update_engine.md R162): in the new tree the weight of the symbol's leaf and of
each of its ancestors is one more than before, a new node counting 0 before, and every other weight is unchanged. -/
def Obligations.InsertRaisesTheLeafAndItsAncestors : Prop :=
  ∀ (a : Arg) (s t : State) (f : Nat), Inv s → a.toNat ≤ 255 → s.weight s.root ≠ 2 ^ s.weightBits - 1 →
    exec (.insert a) s = .next t → t.lookup (a.extractLsb' 0 8) = some f →
    ∀ n, n < t.ncount →
      t.weight n = (if n < s.ncount then s.weight n else 0) + (if n ∈ t.upward t.ncount f then 1 else 0)

/-- The frame of a successful `INSERT` (10_state.md R30, R34; 42_tree_update_engine.md R152): `NYT`, `FLT`, other symbols'
entries, the symbols of nodes and which nodes have children are unchanged; `NCOUNT` grows by two exactly when the symbol was
unseen; `ROOT` changes only at the first split of a session. -/
def Obligations.InsertLeavesTheRestUnchanged : Prop :=
  ∀ (a : Arg) (s t : State), Inv s → a.toNat ≤ 255 → s.weight s.root ≠ 2 ^ s.weightBits - 1 →
    exec (.insert a) s = .next t →
    t.weightBits = s.weightBits ∧ t.inputs = s.inputs ∧ t.nyt = s.nyt ∧ t.flt = s.flt ∧
    (∀ y f, s.lookup y = some f → t.lookup y = some f) ∧
    (∀ y, y ≠ a.extractLsb' 0 8 → t.lookup y = s.lookup y) ∧
    (∀ n, n < s.ncount → t.sym n = s.sym n ∧ (t.kids n).isSome = (s.kids n).isSome) ∧
    t.ncount = (if s.lookup (a.extractLsb' 0 8) = none then s.ncount + 2 else s.ncount) ∧
    t.root = (if s.ncount = 1 then 1 else s.root)

/-- The weight-count law (10_state.md R39) and the first law of R40: after `INIT` and any sequence of fewer than
`2^WEIGHT_BITS` symbols, each command succeeded, each seen symbol's leaf weighs as often as it occurred, and the root weighs the
number of symbols. -/
def Obligations.WeightsCountOccurrences : Prop :=
  ∀ (s : State) (ys : List Sym), ys.length < 2 ^ s.weightBits →
    ∃ rs t, issueAll (.init :: ys.map fun y => .insert (argSym y)) s = .ok (rs, t) ∧
      t.weight t.root = ys.length ∧
      (∀ y, y ∈ ys → ∃ f, t.lookup y = some f ∧ t.weight f = ys.count y) ∧
      (∀ y, y ∉ ys → t.lookup y = none)

/-- `WEIGHT_OVERFLOW` comes exactly when the session has already inserted `2^WEIGHT_BITS - 1` symbols (60_exceptions.md R255):
before that every `INSERT` of a byte value succeeds; then every `INSERT` of a byte value faults, whatever `FLT` holds, and the
tree is unchanged. -/
def Obligations.OverflowIsTheInsertAfterTheLastCount : Prop :=
  ∀ (s : State) (ys : List Sym), 1 ≤ s.weightBits → ys.length < 2 ^ s.weightBits →
    ∃ rs t, issueAll (.init :: ys.map fun y => .insert (argSym y)) s = .ok (rs, t) ∧ Inv t ∧
      (∀ a : Arg, a.toNat ≤ 255 →
        (ys.length < 2 ^ s.weightBits - 1 → ∃ u r, exec (.insert a) t = .next u ∧ u.rsp = some r ∧ r.status = .ok) ∧
        (ys.length = 2 ^ s.weightBits - 1 → ∀ f : Status,
          exec (.insert a) { t with flt := f } = .next (takeFault .weightOverflow { t with flt := f })))

/-- While a symbol is unseen at most 255 others are seen, so two more node entries exist and a split never finds the store full
(42_tree_update_engine.md R153, 10_state.md R30). -/
def Obligations.AnUnseenSymbolLeavesRoom : Prop :=
  ∀ (s : State) (y : Sym), Inv s → s.lookup y = none → s.ncount ≤ 511 ∧ s.ncount + 2 ≤ Config.maxNodes

/-! ## Drivers -/

/-- Literals are most significant bit first and `byte8` inverts `lit8` (00_scope.md R8). -/
def Obligations.LiteralIsMostSignificantBitFirst : Prop :=
  (∀ (y : Sym) (k : Nat), k < 8 → (lit8 y)[k]? = some (y.getLsbD (7 - k))) ∧ (∀ y : Sym, byte8 (lit8 y) = y)

/-- `RDNODE` (43_tree_readout.md R200): six reads in order, and no state changes; of an index at or above `NCOUNT` all six fault
with `BAD_INDEX` and only `FLT` changes. -/
def Obligations.RdnodeReadsTheNode : Prop :=
  (∀ (a : Arg) (s : State), s.ncount ≤ a.toNat →
    rdnode a s = .ok (List.replicate 6 { status := .badIndex }, takeResponse (takeFault .badIndex s))) ∧
  ∀ (a : Arg) (s : State), Inv s → a.toNat < s.ncount →
    ∃ k, s.rank a.toNat = some k ∧
      rdnode a s = .ok
        ([dataResponse (s.weight a.toNat), optionalResponse ((s.sym a.toNat).map BitVec.toNat),
          optionalResponse (s.parent a.toNat), optionalResponse ((s.kids a.toNat).map Prod.fst),
          optionalResponse ((s.kids a.toNat).map Prod.snd), dataResponse k], takeResponse s)

/-- `ENCODE s` (44_encoder_decoder_drivers.md R222): the root path of the symbol's leaf, or of the NYT leaf and then the
literal, both of the tree before its `INSERT`; then the `INSERT`. -/
def Obligations.EncodeEmitsThePathThenTheLiteral : Prop :=
  ∀ (s : State) (y : Sym), Inv s → s.weight s.root ≠ 2 ^ s.weightBits - 1 →
    ∃ bits t, s.path (pathTarget s y) = some bits ∧ exec (.insert (argSym y)) (takeResponse s) = .next t ∧
      encodeSymbol y s = ⟨bits ++ (if (s.lookup y).isSome then [] else lit8 y), takeResponse t, none⟩

/-- The first-symbol law (44_encoder_decoder_drivers.md R224): a session's first symbol is exactly its eight raw bits, and the
output of every session begins with them. -/
def Obligations.FirstSymbolIsEightRawBits : Prop :=
  ∀ (s : State) (y : Sym) (vs : List Nat), 1 ≤ s.weightBits →
    (encodeSession [y.toNat] s).bits = lit8 y ∧ (encodeSession [y.toNat] s).failed = none ∧
    lit8 y <+: (encodeSession (y.toNat :: vs) s).bits

/-- The code by `LOOKUP` and a walk up is the code `PATHS` gives (44_encoder_decoder_drivers.md R236). -/
def Obligations.CodeByLookupIsThePath : Prop :=
  ∀ (s : State) (y : Sym), Inv s →
    ∃ bits, s.path (pathTarget s y) = some bits ∧ codeByLookup y s = .ok (bits, takeResponse s)

/-- `DECODE` at a symbol boundary (44_encoder_decoder_drivers.md R226, R228, R230): with an internal root and no bit left the
stream ends cleanly, a character that is no bit is `MalformedInput`; with the single NYT root and fewer than eight characters
it is `IncompleteInput`, so the empty stream is no clean end. That characters that are no bits do not change this is the
model's reading of R226 and R230, which checks the length first (log 10). -/
def Obligations.DecodeAtASymbolBoundary : Prop :=
  (∀ s : State, Inv s → 1 < s.ncount → decodeSymbol [] s = .endOfStream (takeResponse s)) ∧
  (∀ (s : State) (c : Char) (cs : List Char), Inv s → 1 < s.ncount → c ≠ '0' → c ≠ '1' →
    decodeSymbol (c :: cs) s = .failed .malformedInput (takeResponse s)) ∧
  (∀ (s : State) (cs : List Char), Inv s → s.ncount = 1 → cs.length < 8 →
    decodeSymbol cs s = .failed .incompleteInput (takeResponse s))

/-- A `DECODE` that fails before its symbol is known fails on its input, and leaves the engine as the last completed `INSERT`
left it: no `INSERT` was issued (44_encoder_decoder_drivers.md R229, 93_implementation_defined.md U12). A `DECODE` whose `INSERT`
fails met `WEIGHT_OVERFLOW`, which left the tree as it was, and the session ends with its symbol in the output (R226, R231). -/
def Obligations.DecoderErrorsLeaveTheEngineAlone : Prop :=
  (∀ (s t : State) (cs : List Char) (e : DriverError), Inv s → decodeSymbol cs s = .failed e t →
    (e = .incompleteInput ∨ e = .malformedInput) ∧ t = takeResponse s) ∧
  (∀ (s t : State) (cs : List Char) (y : Sym) (e : DriverError), Inv s → decodeSymbol cs s = .insertFailed y e t →
    e = .engineFault .weightOverflow ∧ s.weight s.root = 2 ^ s.weightBits - 1 ∧
    t = takeResponse (takeFault .weightOverflow s) ∧ ∀ fuel, decodeAll (fuel + 1) cs s = ⟨[y], .failed e, t⟩)

/-- Whatever characters the decoder is given, its session ends in one of three ways, and the engine stays sound
(44_encoder_decoder_drivers.md R234, 93_implementation_defined.md U1). -/
def Obligations.DecodeSessionEndsInOneOfThreeWays : Prop :=
  ∀ (s : State) (cs : List Char), 1 ≤ s.weightBits → cs.length < 2 ^ s.weightBits →
    Inv (decodeSession cs s).engine ∧
    ((decodeSession cs s).ending = .endOfStream ∨ (decodeSession cs s).ending = .failed .incompleteInput ∨
      (decodeSession cs s).ending = .failed .malformedInput)

/-- The round trip (44_encoder_decoder_drivers.md R232): for every non-empty byte sequence that neither engine overflows on,
decoding the encoder's characters gives the bytes back and ends cleanly; the two engines, whose widths may differ
(70_reset_and_hazards.md R283), end with the same tree. -/
def Obligations.DecodeOfEncodedStreamIsTheInput : Prop :=
  ∀ (s u : State) (ys : List Sym), ys ≠ [] → ys.length < 2 ^ s.weightBits → ys.length < 2 ^ u.weightBits →
    (encodeSession (ys.map BitVec.toNat) s).failed = none ∧
    (decodeSession (encodeSession (ys.map BitVec.toNat) s).chars u).out = ys ∧
    (decodeSession (encodeSession (ys.map BitVec.toNat) s).chars u).ending = .endOfStream ∧
    { (decodeSession (encodeSession (ys.map BitVec.toNat) s).chars u).engine with
      weightBits := s.weightBits, inputs := s.inputs } = (encodeSession (ys.map BitVec.toNat) s).engine

/-! ## Script syntax -/

/-- The assembler on the four examples of 30_encoding.md R103, and on four more lines: an operand the engine will fault is
accepted, the greatest operand is accepted and the next one rejected, and a comment is dropped. That the spaces before a comment
go with it and that a line with nothing else is no command is the model's choice (log 11). -/
def Obligations.ScriptExamplesAssemble : Prop :=
  assembleLine "INIT".toList = .ok (some 0x1000) ∧ assembleLine "INSERT 0x61".toList = .ok (some 0x3061) ∧
  assembleLine "RDORD 4".toList = .ok (some 0xD004) ∧ assembleLine "RDSR 2".toList = .ok (some 0x6002) ∧
  assembleLine "RDSR 9 # no such register".toList = .ok (some 0x6009) ∧
  assembleLine "INSERT 4095".toList = .ok (some 0x3FFF) ∧ assembleLine "INSERT 4096".toList = .error .operandTooBig ∧
  assembleLine "# only a comment".toList = .ok none
end

