-- ==== Sys2Proof/Laws/Decode.lean ====
section
/-! SUPPORT. The two fields of a command word (30_encoding.md R93): a word is its fields, and a word built from fields has
them. -/

namespace Sys2Proof.Laws

theorem getLsbD_word (op : Opcode) (a : Arg) (i : Nat) :
    BitVec.getLsbD (w := 16) (op ++ a) i = if i < 12 then a.getLsbD i else op.getLsbD (i - 12) :=
  BitVec.getLsbD_append

@[simp] theorem opField_append (op : Opcode) (a : Arg) : opField (op ++ a) = op := by
  apply BitVec.eq_of_getLsbD_eq
  intro i hi
  rw [opField, BitVec.getLsbD_extractLsb', getLsbD_word]
  simp [hi]

@[simp] theorem argField_append (op : Opcode) (a : Arg) : argField (op ++ a) = a := by
  apply BitVec.eq_of_getLsbD_eq
  intro i hi
  rw [argField, BitVec.getLsbD_extractLsb', getLsbD_word]
  simp [hi]

/-- Decoding a word built from an opcode and an operand looks at the two fields. -/
theorem decode_append (op : Opcode) (a : Arg) : decode (op ++ a) = decodeFields op a := by
  unfold decode
  rw [opField_append, argField_append]

end Sys2Proof.Laws
end

