-- ==== Sys2Proof/Laws/State.lean ====
section
/-! SUPPORT. One lemma per field per update of State, each true by rfl: later proofs never unfold a record update. The node
store's updates have their lemmas by node in Laws/Nodes.lean. -/

namespace Sys2Proof.Laws

open Sys2Proof.Machine

variable (s : State)

/-! ## setWeight -/

@[simp] theorem weightBits_setWeight (n v : Nat) : (s.setWeight n v).weightBits = s.weightBits := rfl
@[simp] theorem root_setWeight (n v : Nat) : (s.setWeight n v).root = s.root := rfl
@[simp] theorem nyt_setWeight (n v : Nat) : (s.setWeight n v).nyt = s.nyt := rfl
@[simp] theorem ncount_setWeight (n v : Nat) : (s.setWeight n v).ncount = s.ncount := rfl
@[simp] theorem flt_setWeight (n v : Nat) : (s.setWeight n v).flt = s.flt := rfl
@[simp] theorem ord_setWeight (n v : Nat) : (s.setWeight n v).ord = s.ord := rfl
@[simp] theorem sidx_setWeight (n v : Nat) : (s.setWeight n v).sidx = s.sidx := rfl
@[simp] theorem rsp_setWeight (n v : Nat) : (s.setWeight n v).rsp = s.rsp := rfl
@[simp] theorem inputs_setWeight (n v : Nat) : (s.setWeight n v).inputs = s.inputs := rfl

/-! ## setParent -/

@[simp] theorem weightBits_setParent (n p : Nat) : (s.setParent n p).weightBits = s.weightBits := rfl
@[simp] theorem root_setParent (n p : Nat) : (s.setParent n p).root = s.root := rfl
@[simp] theorem nyt_setParent (n p : Nat) : (s.setParent n p).nyt = s.nyt := rfl
@[simp] theorem ncount_setParent (n p : Nat) : (s.setParent n p).ncount = s.ncount := rfl
@[simp] theorem flt_setParent (n p : Nat) : (s.setParent n p).flt = s.flt := rfl
@[simp] theorem ord_setParent (n p : Nat) : (s.setParent n p).ord = s.ord := rfl
@[simp] theorem sidx_setParent (n p : Nat) : (s.setParent n p).sidx = s.sidx := rfl
@[simp] theorem rsp_setParent (n p : Nat) : (s.setParent n p).rsp = s.rsp := rfl
@[simp] theorem inputs_setParent (n p : Nat) : (s.setParent n p).inputs = s.inputs := rfl

/-! ## setChild -/

@[simp] theorem weightBits_setChild (p : Nat) (d : Side) (c : Nat) : (s.setChild p d c).weightBits = s.weightBits := rfl
@[simp] theorem root_setChild (p : Nat) (d : Side) (c : Nat) : (s.setChild p d c).root = s.root := rfl
@[simp] theorem nyt_setChild (p : Nat) (d : Side) (c : Nat) : (s.setChild p d c).nyt = s.nyt := rfl
@[simp] theorem ncount_setChild (p : Nat) (d : Side) (c : Nat) : (s.setChild p d c).ncount = s.ncount := rfl
@[simp] theorem flt_setChild (p : Nat) (d : Side) (c : Nat) : (s.setChild p d c).flt = s.flt := rfl
@[simp] theorem ord_setChild (p : Nat) (d : Side) (c : Nat) : (s.setChild p d c).ord = s.ord := rfl
@[simp] theorem sidx_setChild (p : Nat) (d : Side) (c : Nat) : (s.setChild p d c).sidx = s.sidx := rfl
@[simp] theorem rsp_setChild (p : Nat) (d : Side) (c : Nat) : (s.setChild p d c).rsp = s.rsp := rfl
@[simp] theorem inputs_setChild (p : Nat) (d : Side) (c : Nat) : (s.setChild p d c).inputs = s.inputs := rfl

/-! ## increment -/

@[simp] theorem weightBits_increment (n : Nat) : (s.increment n).weightBits = s.weightBits := rfl
@[simp] theorem root_increment (n : Nat) : (s.increment n).root = s.root := rfl
@[simp] theorem nyt_increment (n : Nat) : (s.increment n).nyt = s.nyt := rfl
@[simp] theorem ncount_increment (n : Nat) : (s.increment n).ncount = s.ncount := rfl
@[simp] theorem flt_increment (n : Nat) : (s.increment n).flt = s.flt := rfl
@[simp] theorem ord_increment (n : Nat) : (s.increment n).ord = s.ord := rfl
@[simp] theorem sidx_increment (n : Nat) : (s.increment n).sidx = s.sidx := rfl
@[simp] theorem rsp_increment (n : Nat) : (s.increment n).rsp = s.rsp := rfl
@[simp] theorem inputs_increment (n : Nat) : (s.increment n).inputs = s.inputs := rfl

/-! ## orderInsert -/

@[simp] theorem weightBits_orderInsert (f i : Nat) : (s.orderInsert f i).weightBits = s.weightBits := rfl
@[simp] theorem root_orderInsert (f i : Nat) : (s.orderInsert f i).root = s.root := rfl
@[simp] theorem nyt_orderInsert (f i : Nat) : (s.orderInsert f i).nyt = s.nyt := rfl
@[simp] theorem ncount_orderInsert (f i : Nat) : (s.orderInsert f i).ncount = s.ncount := rfl
@[simp] theorem flt_orderInsert (f i : Nat) : (s.orderInsert f i).flt = s.flt := rfl
@[simp] theorem nodes_orderInsert (f i : Nat) : (s.orderInsert f i).nodes = s.nodes := rfl
@[simp] theorem ord_orderInsert (f i : Nat) : (s.orderInsert f i).ord = s.ord.take 1 ++ [f, i] ++ s.ord.drop 1 := rfl
@[simp] theorem sidx_orderInsert (f i : Nat) : (s.orderInsert f i).sidx = s.sidx := rfl
@[simp] theorem rsp_orderInsert (f i : Nat) : (s.orderInsert f i).rsp = s.rsp := rfl
@[simp] theorem inputs_orderInsert (f i : Nat) : (s.orderInsert f i).inputs = s.inputs := rfl

/-! ## allocPair -/

@[simp] theorem weightBits_allocPair (i f : Nat) (y : Sym) : (s.allocPair i f y).weightBits = s.weightBits := rfl
@[simp] theorem root_allocPair (i f : Nat) (y : Sym) : (s.allocPair i f y).root = s.root := rfl
@[simp] theorem nyt_allocPair (i f : Nat) (y : Sym) : (s.allocPair i f y).nyt = s.nyt := rfl
@[simp] theorem ncount_allocPair (i f : Nat) (y : Sym) : (s.allocPair i f y).ncount = s.ncount := rfl
@[simp] theorem flt_allocPair (i f : Nat) (y : Sym) : (s.allocPair i f y).flt = s.flt := rfl
@[simp] theorem ord_allocPair (i f : Nat) (y : Sym) : (s.allocPair i f y).ord = s.ord := rfl
@[simp] theorem sidx_allocPair (i f : Nat) (y : Sym) : (s.allocPair i f y).sidx = s.sidx := rfl
@[simp] theorem rsp_allocPair (i f : Nat) (y : Sym) : (s.allocPair i f y).rsp = s.rsp := rfl
@[simp] theorem inputs_allocPair (i f : Nat) (y : Sym) : (s.allocPair i f y).inputs = s.inputs := rfl

/-! ## bind -/

@[simp] theorem weightBits_bind (y : Sym) (f : Nat) : (s.bind y f).weightBits = s.weightBits := rfl
@[simp] theorem root_bind (y : Sym) (f : Nat) : (s.bind y f).root = s.root := rfl
@[simp] theorem nyt_bind (y : Sym) (f : Nat) : (s.bind y f).nyt = s.nyt := rfl
@[simp] theorem ncount_bind (y : Sym) (f : Nat) : (s.bind y f).ncount = s.ncount := rfl
@[simp] theorem flt_bind (y : Sym) (f : Nat) : (s.bind y f).flt = s.flt := rfl
@[simp] theorem nodes_bind (y : Sym) (f : Nat) : (s.bind y f).nodes = s.nodes := rfl
@[simp] theorem ord_bind (y : Sym) (f : Nat) : (s.bind y f).ord = s.ord := rfl
@[simp] theorem sidx_bind (y : Sym) (f : Nat) : (s.bind y f).sidx = indexBind y f s.sidx := rfl
@[simp] theorem rsp_bind (y : Sym) (f : Nat) : (s.bind y f).rsp = s.rsp := rfl
@[simp] theorem inputs_bind (y : Sym) (f : Nat) : (s.bind y f).inputs = s.inputs := rfl

/-! ## exchange -/

@[simp] theorem weightBits_exchange (a ka pa : Nat) (sa : Side) (b kb pb : Nat) (sb : Side) : (s.exchange a ka pa sa b kb pb sb).weightBits = s.weightBits := rfl
@[simp] theorem root_exchange (a ka pa : Nat) (sa : Side) (b kb pb : Nat) (sb : Side) : (s.exchange a ka pa sa b kb pb sb).root = s.root := rfl
@[simp] theorem nyt_exchange (a ka pa : Nat) (sa : Side) (b kb pb : Nat) (sb : Side) : (s.exchange a ka pa sa b kb pb sb).nyt = s.nyt := rfl
@[simp] theorem ncount_exchange (a ka pa : Nat) (sa : Side) (b kb pb : Nat) (sb : Side) : (s.exchange a ka pa sa b kb pb sb).ncount = s.ncount := rfl
@[simp] theorem flt_exchange (a ka pa : Nat) (sa : Side) (b kb pb : Nat) (sb : Side) : (s.exchange a ka pa sa b kb pb sb).flt = s.flt := rfl
@[simp] theorem ord_exchange (a ka pa : Nat) (sa : Side) (b kb pb : Nat) (sb : Side) : (s.exchange a ka pa sa b kb pb sb).ord = (s.ord.set ka b).set kb a := rfl
@[simp] theorem sidx_exchange (a ka pa : Nat) (sa : Side) (b kb pb : Nat) (sb : Side) : (s.exchange a ka pa sa b kb pb sb).sidx = s.sidx := rfl
@[simp] theorem rsp_exchange (a ka pa : Nat) (sa : Side) (b kb pb : Nat) (sb : Side) : (s.exchange a ka pa sa b kb pb sb).rsp = s.rsp := rfl
@[simp] theorem inputs_exchange (a ka pa : Nat) (sa : Side) (b kb pb : Nat) (sb : Side) : (s.exchange a ka pa sa b kb pb sb).inputs = s.inputs := rfl

/-! ## takeFault -/

@[simp] theorem weightBits_takeFault (c : Status) : (takeFault c s).weightBits = s.weightBits := rfl
@[simp] theorem root_takeFault (c : Status) : (takeFault c s).root = s.root := rfl
@[simp] theorem nyt_takeFault (c : Status) : (takeFault c s).nyt = s.nyt := rfl
@[simp] theorem ncount_takeFault (c : Status) : (takeFault c s).ncount = s.ncount := rfl
@[simp] theorem flt_takeFault (c : Status) : (takeFault c s).flt = if s.flt = .ok then c else s.flt := rfl
@[simp] theorem nodes_takeFault (c : Status) : (takeFault c s).nodes = s.nodes := rfl
@[simp] theorem ord_takeFault (c : Status) : (takeFault c s).ord = s.ord := rfl
@[simp] theorem sidx_takeFault (c : Status) : (takeFault c s).sidx = s.sidx := rfl
@[simp] theorem rsp_takeFault (c : Status) : (takeFault c s).rsp = some { status := c } := rfl
@[simp] theorem inputs_takeFault (c : Status) : (takeFault c s).inputs = s.inputs := rfl

/-! ## takeResponse -/

@[simp] theorem weightBits_takeResponse : (takeResponse s).weightBits = s.weightBits := rfl
@[simp] theorem root_takeResponse : (takeResponse s).root = s.root := rfl
@[simp] theorem nyt_takeResponse : (takeResponse s).nyt = s.nyt := rfl
@[simp] theorem ncount_takeResponse : (takeResponse s).ncount = s.ncount := rfl
@[simp] theorem flt_takeResponse : (takeResponse s).flt = s.flt := rfl
@[simp] theorem nodes_takeResponse : (takeResponse s).nodes = s.nodes := rfl
@[simp] theorem ord_takeResponse : (takeResponse s).ord = s.ord := rfl
@[simp] theorem sidx_takeResponse : (takeResponse s).sidx = s.sidx := rfl
@[simp] theorem rsp_takeResponse : (takeResponse s).rsp = none := rfl
@[simp] theorem inputs_takeResponse : (takeResponse s).inputs = s.inputs := rfl

/-! ## resetEngine -/

@[simp] theorem weightBits_resetEngine : (resetEngine s).weightBits = s.weightBits := rfl
@[simp] theorem root_resetEngine : (resetEngine s).root = 0 := rfl
@[simp] theorem nyt_resetEngine : (resetEngine s).nyt = 0 := rfl
@[simp] theorem ncount_resetEngine : (resetEngine s).ncount = 1 := rfl
@[simp] theorem flt_resetEngine : (resetEngine s).flt = .ok := rfl
@[simp] theorem nodes_resetEngine : (resetEngine s).nodes = [⟨0, none, none, none⟩] := rfl
@[simp] theorem ord_resetEngine : (resetEngine s).ord = [0] := rfl
@[simp] theorem sidx_resetEngine : (resetEngine s).sidx = [] := rfl
@[simp] theorem rsp_resetEngine : (resetEngine s).rsp = none := rfl
@[simp] theorem inputs_resetEngine : (resetEngine s).inputs = s.inputs := rfl

end Sys2Proof.Laws
end

