-- ==== Sys2Proof/Laws/Operands.lean ====
section
/-! SUPPORT. The operand classes and the two ways a command ends: each shared operation's cases, said once
(30_encoding.md R94, 00_scope.md R11). -/

namespace Sys2Proof.Laws

open Sys2Proof.Machine

variable {s : State} {a : Arg}

@[simp] theorem raise_eq (c : Status) (s : State) : raise c s = .next (takeFault c s) := rfl

@[simp] theorem respond_eq (r : Response) (s : State) : respond r s = .next { s with rsp := some r } := rfl

theorem withSym_of_le {k : Sym → Host.Outcome State Fault Refusal} (h : a.toNat ≤ 255) :
    withSym a s k = k (a.extractLsb' 0 8) := by
  simp [withSym, symOperand, h]

theorem withSym_of_gt {k : Sym → Host.Outcome State Fault Refusal} (h : 255 < a.toNat) :
    withSym a s k = .next (takeFault .alphabet s) := by
  simp [withSym, symOperand, Nat.not_le.2 h]

theorem withIndex_of_lt {k : Nat → Host.Outcome State Fault Refusal} (h : a.toNat < s.ncount) :
    withIndex a s k = k a.toNat := by
  simp [withIndex, indexOperand, h]

theorem withIndex_of_ge {k : Nat → Host.Outcome State Fault Refusal} (h : s.ncount ≤ a.toNat) :
    withIndex a s k = .next (takeFault .badIndex s) := by
  simp [withIndex, indexOperand, Nat.not_lt.2 h]

theorem withSr_of_gt {k : Nat → Host.Outcome State Fault Refusal} (h : 3 < a.toNat) :
    withSr a s k = .next (takeFault .illegalCmd s) := by
  have : srOperand a s = none := by
    unfold srOperand
    split <;> first | omega | rfl
  simp [withSr, this]

/-- An index operand names an entry in use or the command faults, whatever the command does with it. -/
theorem withIndex_cases {k : Nat → Host.Outcome State Fault Refusal} {o : Host.Outcome State Fault Refusal}
    (h : withIndex a s k = o) :
    (a.toNat < s.ncount ∧ k a.toNat = o) ∨ (s.ncount ≤ a.toNat ∧ o = .next (takeFault .badIndex s)) := by
  rcases Nat.lt_or_ge a.toNat s.ncount with hlt | hge
  · exact .inl ⟨hlt, (withIndex_of_lt hlt).symm.trans h⟩
  · exact .inr ⟨hge, h.symm.trans (withIndex_of_ge hge)⟩

/-- A symbol operand is a byte value or the command faults. -/
theorem withSym_cases {k : Sym → Host.Outcome State Fault Refusal} {o : Host.Outcome State Fault Refusal}
    (h : withSym a s k = o) :
    (a.toNat ≤ 255 ∧ k (a.extractLsb' 0 8) = o) ∨ (255 < a.toNat ∧ o = .next (takeFault .alphabet s)) := by
  rcases Nat.lt_or_ge 255 a.toNat with hgt | hle
  · exact .inr ⟨hgt, h.symm.trans (withSym_of_gt hgt)⟩
  · exact .inl ⟨hle, (withSym_of_le hle).symm.trans h⟩

end Sys2Proof.Laws
end

