-- ==== Sys2Proof/Laws/Drivers.lean ====
section
/-! SUPPORT. What a host's `ask` (60_exceptions.md R258) and a driver's `issue` (44_encoder_decoder_drivers.md R231) answer, and
the operands the drivers build. -/

namespace Sys2Proof.Laws

open Sys2Proof.Machine

variable {s t : State}

/-- A command that goes on gives the host its response and the engine ready again. -/
theorem ask_ok {i : Instr} {r : Response} (h : exec i s = .next t) (hr : t.rsp = some r) :
    ask i s = .ok (r, takeResponse t) := by
  simp [ask, h, hr]

theorem ask_cases {i : Instr} {r : Response} {u : State} (h : ask i s = .ok (r, u)) :
    ∃ t, exec i s = .next t ∧ r = t.rsp.getD {} ∧ u = takeResponse t := by
  unfold ask at h
  split at h
  · simp only [Except.ok.injEq, Prod.mk.injEq] at h
    exact ⟨_, ‹_›, h.1.symm, h.2.symm⟩
  · cases h
  · cases h

theorem askAll_cons {i : Instr} {is : List Instr} {r : Response} {rs : List Response} {u v : State}
    (h : ask i s = .ok (r, u)) (g : askAll is u = .ok (rs, v)) : askAll (i :: is) s = .ok (r :: rs, v) := by
  simp [askAll, h, g]

/-- A command that succeeds gives the driver its response and the engine ready again. -/
theorem issue_ok {i : Instr} {r : Response} (h : exec i s = .next t) (hr : t.rsp = some r) (hs : r.status = .ok) :
    issue i s = .ok (r, takeResponse t) := by
  simp [issue, ask_ok h hr, hs]

/-- Where `issue` succeeds, its command went on with a response of status 0. -/
theorem issue_cases {i : Instr} {r : Response} {u : State} (h : issue i s = .ok (r, u)) :
    ∃ t, exec i s = .next t ∧ r = t.rsp.getD {} ∧ r.status = .ok ∧ u = takeResponse t := by
  unfold issue at h
  split at h
  · cases h
  · rename_i ha
    obtain ⟨t, ht, hr, hu⟩ := ask_cases ha
    split at h
    · simp only [Except.ok.injEq, Prod.mk.injEq] at h
      obtain ⟨rfl, rfl⟩ := h
      exact ⟨t, ht, hr, ‹_›, hu⟩
    · cases h

theorem issueAll_cons {i : Instr} {is : List Instr} {r : Response} {rs : List Response} {u v : State}
    (h : issue i s = .ok (r, u)) (g : issueAll is u = .ok (rs, v)) : issueAll (i :: is) s = .ok (r :: rs, v) := by
  simp [issueAll, h, g]

theorem issueAll_append {is js : List Instr} {rs qs : List Response} {u v : State}
    (h : issueAll is s = .ok (rs, u)) (g : issueAll js u = .ok (qs, v)) :
    issueAll (is ++ js) s = .ok (rs ++ qs, v) := by
  induction is generalizing s rs with
  | nil =>
    simp only [issueAll, Except.ok.injEq, Prod.mk.injEq] at h
    obtain ⟨rfl, rfl⟩ := h
    exact g
  | cons i is ih =>
    rw [issueAll] at h
    split at h
    · cases h
    · rename_i r t ht
      split at h
      · cases h
      · rename_i rs' u' hu
        simp only [Except.ok.injEq, Prod.mk.injEq] at h
        obtain ⟨rfl, rfl⟩ := h
        exact issueAll_cons ht (ih hu)

theorem toNat_argNat {n : Nat} (h : n < 2 ^ 12) : (argNat n).toNat = n := by
  rw [argNat, BitVec.toNat_ofNat, Nat.mod_eq_of_lt h]

theorem argSym_le (y : Sym) : (argSym y).toNat ≤ 255 := by
  have := y.isLt
  simp only [argSym, BitVec.toNat_setWidth]
  omega

@[simp] theorem extract_argSym (y : Sym) : (argSym y).extractLsb' 0 8 = y := by
  have := y.isLt
  apply BitVec.eq_of_toNat_eq
  simp only [argSym, BitVec.extractLsb'_toNat, BitVec.toNat_setWidth, Nat.shiftRight_zero]
  omega

end Sys2Proof.Laws
end

