-- ==== Sys2Proof/Laws/Nodes.lean ====
section
/-! SUPPORT. The node store: what each update does to the entry of a node (10_state.md R28), once and for all. -/

namespace Sys2Proof.Laws

open Sys2Proof.Machine

variable {s t : State}

/-- The entry of a node depends on the node store alone. -/
theorem node_congr (h : s.nodes = t.nodes) (n : Nat) : s.node n = t.node n := by
  simp [State.node, h]

theorem node_modNode (s : State) (n : Nat) (f : Node → Node) (m : Nat) :
    (s.modNode n f).node m = if n = m ∧ m < s.nodes.length then f (s.node m) else s.node m := by
  simp only [State.node, State.modNode, List.getElem?_modify]
  by_cases hm : m < s.nodes.length
  · by_cases hn : n = m <;> simp [hm, hn]
  · simp [hm]

@[simp] theorem length_modNode (s : State) (n : Nat) (f : Node → Node) :
    (s.modNode n f).nodes.length = s.nodes.length := by
  simp [State.modNode]

/-! ## The fields of an entry after each update -/

theorem weight_setWeight (n v m : Nat) :
    (s.setWeight n v).weight m = if n = m ∧ m < s.nodes.length then v else s.weight m := by
  unfold State.weight State.setWeight
  rw [node_modNode]
  split <;> rfl

@[simp] theorem sym_setWeight (n v m : Nat) : (s.setWeight n v).sym m = s.sym m := by
  unfold State.sym State.setWeight
  rw [node_modNode]
  split <;> rfl

@[simp] theorem parent_setWeight (n v m : Nat) : (s.setWeight n v).parent m = s.parent m := by
  unfold State.parent State.setWeight
  rw [node_modNode]
  split <;> rfl

@[simp] theorem kids_setWeight (n v m : Nat) : (s.setWeight n v).kids m = s.kids m := by
  unfold State.kids State.setWeight
  rw [node_modNode]
  split <;> rfl

theorem parent_setParent (n p m : Nat) :
    (s.setParent n p).parent m = if n = m ∧ m < s.nodes.length then some p else s.parent m := by
  unfold State.parent State.setParent
  rw [node_modNode]
  split <;> rfl

@[simp] theorem weight_setParent (n p m : Nat) : (s.setParent n p).weight m = s.weight m := by
  unfold State.weight State.setParent
  rw [node_modNode]
  split <;> rfl

@[simp] theorem sym_setParent (n p m : Nat) : (s.setParent n p).sym m = s.sym m := by
  unfold State.sym State.setParent
  rw [node_modNode]
  split <;> rfl

@[simp] theorem kids_setParent (n p m : Nat) : (s.setParent n p).kids m = s.kids m := by
  unfold State.kids State.setParent
  rw [node_modNode]
  split <;> rfl

theorem kids_setChild (p : Nat) (d : Side) (c m : Nat) :
    (s.setChild p d c).kids m =
      if p = m ∧ m < s.nodes.length then (s.kids m).map (State.putSlot d c) else s.kids m := by
  unfold State.kids State.setChild
  rw [node_modNode]
  split <;> rfl

@[simp] theorem weight_setChild (p : Nat) (d : Side) (c m : Nat) : (s.setChild p d c).weight m = s.weight m := by
  unfold State.weight State.setChild
  rw [node_modNode]
  split <;> rfl

@[simp] theorem sym_setChild (p : Nat) (d : Side) (c m : Nat) : (s.setChild p d c).sym m = s.sym m := by
  unfold State.sym State.setChild
  rw [node_modNode]
  split <;> rfl

@[simp] theorem parent_setChild (p : Nat) (d : Side) (c m : Nat) : (s.setChild p d c).parent m = s.parent m := by
  unfold State.parent State.setChild
  rw [node_modNode]
  split <;> rfl

@[simp] theorem length_setWeight (n v : Nat) : (s.setWeight n v).nodes.length = s.nodes.length := length_modNode ..

@[simp] theorem length_setParent (n p : Nat) : (s.setParent n p).nodes.length = s.nodes.length := length_modNode ..

@[simp] theorem length_setChild (p : Nat) (d : Side) (c : Nat) :
    (s.setChild p d c).nodes.length = s.nodes.length := length_modNode ..

@[simp] theorem length_increment (n : Nat) : (s.increment n).nodes.length = s.nodes.length := length_modNode ..

/-! ## Allocation (42_tree_update_engine.md R154) -/

@[simp] theorem length_allocPair (i f : Nat) (y : Sym) : (s.allocPair i f y).nodes.length = s.nodes.length + 2 := by
  simp [State.allocPair]

/-- Entries already allocated keep their contents. -/
theorem node_allocPair_old (i f : Nat) (y : Sym) {m : Nat} (h : m < s.nodes.length) :
    (s.allocPair i f y).node m = s.node m := by
  simp [State.allocPair, State.node, List.getElem?_append_left h]

/-- The first new entry: the internal node. -/
theorem node_allocPair_internal (i f : Nat) (y : Sym) :
    (s.allocPair i f y).node s.nodes.length = ⟨1, none, s.parent s.nyt, some (s.nyt, f)⟩ := by
  simp [State.allocPair, State.node]

/-- The second new entry: the symbol's leaf. -/
theorem node_allocPair_leaf (i f : Nat) (y : Sym) :
    (s.allocPair i f y).node (s.nodes.length + 1) = ⟨1, some y, some i, none⟩ := by
  simp [State.allocPair, State.node]

/-! ## The slot of a child -/

/-- A child slot by its meaning (10_state.md R31). -/
theorem childSide_eq_some {p n : Nat} {d : Side} :
    s.childSide p n = some d ↔
      ∃ l r, s.kids p = some (l, r) ∧ ((d = .left ∧ l = n ∧ r ≠ n) ∨ (d = .right ∧ r = n ∧ l ≠ n)) := by
  unfold State.childSide
  rcases s.kids p with _ | ⟨l, r⟩
  · simp
  · by_cases hl : l = n <;> by_cases hr : r = n <;> cases d <;> simp [hl, hr]

end Sys2Proof.Laws
end

