-- ==== Sys2Proof/Laws/Order.lean ====
section
/-! SUPPORT. The order sequence: what `rank` and `leader` answer (10_state.md R33, 42_tree_update_engine.md R157), and the
entries after `order_insert` (R155) and an exchange of ranks (R159). -/

namespace Sys2Proof.Laws

open Sys2Proof.Machine

variable {s : State}

/-- A rank is a position at which the node stands. -/
theorem getElem?_of_rank {n k : Nat} (h : s.rank n = some k) : s.ord[k]? = some n := by
  unfold State.rank at h
  split at h
  · obtain ⟨hk, hn, -⟩ := List.idxOf?_eq_some_iff.1 h
    simp [hk, hn]
  · simp at h

/-- Where every node stands once, the rank is the first position. -/
theorem rank_of_mem (hnd : s.ord.Nodup) {n : Nat} (h : n ∈ s.ord) : s.rank n = some (s.ord.idxOf n) := by
  unfold State.rank
  rw [if_pos (List.count_eq_one_of_mem hnd h), List.idxOf?_eq_some_iff]
  refine ⟨List.idxOf_lt_length_iff.2 h, by simp, fun j hj hjn => ?_⟩
  have : s.ord.idxOf n ≤ j := by
    rw [← hjn, hnd.idxOf_getElem]
  omega

/-- A leader stands in the order sequence and has the weight it was sought for. -/
theorem leader_mem {w l : Nat} (h : s.leader w = some l) : l ∈ s.ord ∧ s.weight l = w := by
  unfold State.leader at h
  refine ⟨List.mem_reverse.1 (List.mem_of_find?_eq_some h), ?_⟩
  simpa using List.find?_some h

/-- A weight that some ranked node has has a leader. -/
theorem leader_isSome {w n : Nat} (h : n ∈ s.ord) (hw : s.weight n = w) : (s.leader w).isSome = true := by
  unfold State.leader
  rw [List.find?_isSome]
  exact ⟨n, List.mem_reverse.2 h, by simp [hw]⟩

/-- A rank in use, read as an entry. -/
theorem nodeAt_eq {k n : Nat} (h : s.ord[k]? = some n) : s.nodeAt k = n := by
  simp [State.nodeAt, h]

end Sys2Proof.Laws
end

