-- ==== Sys2Proof/Laws/Path.lean ====
section
/-! SUPPORT. The root path by its recursion (43_tree_readout.md R190): one lemma per case of a node. -/

namespace Sys2Proof.Laws

open Sys2Proof.Machine

variable {s : State}

/-- A node without a parent has the empty path. -/
theorem pathWithin_root {n : Nat} (fuel : Nat) (h : s.parent n = none) : s.pathWithin fuel n = some [] := by
  unfold State.pathWithin
  simp [h]

/-- A child's path is its parent's path and the bit of its slot. -/
theorem pathWithin_child {fuel n p : Nat} {d : Side} {bits : List Bool} (hp : s.parent n = some p)
    (hd : s.childSide p n = some d) (hb : s.pathWithin fuel p = some bits) :
    s.pathWithin (fuel + 1) n = some (bits ++ [State.branchBit d]) := by
  rw [State.pathWithin]
  simp [hp, hd, hb]

/-- A defined path is the empty one of a parentless node, or goes through the parent. -/
theorem pathWithin_cases {fuel n : Nat} {bits : List Bool} (h : s.pathWithin fuel n = some bits) :
    (s.parent n = none ∧ bits = []) ∨
    ∃ fuel' p d up, fuel = fuel' + 1 ∧ s.parent n = some p ∧ s.childSide p n = some d ∧
      s.pathWithin fuel' p = some up ∧ bits = up ++ [State.branchBit d] := by
  unfold State.pathWithin at h
  rcases hp : s.parent n with _ | p
  · simp [hp] at h
    exact .inl ⟨rfl, h⟩
  · right
    rcases fuel with _ | fuel
    · simp [hp] at h
    · simp only [hp] at h
      split at h
      · rename_i d up hd hu
        exact ⟨fuel, p, d, up, rfl, rfl, hd, hu, by simpa using h.symm⟩
      · simp at h

/-- More fuel changes no defined path. -/
theorem pathWithin_mono {fuel n : Nat} {bits : List Bool} (h : s.pathWithin fuel n = some bits) :
    ∀ {more : Nat}, fuel ≤ more → s.pathWithin more n = some bits := by
  induction fuel generalizing n bits with
  | zero =>
    intro more _
    rcases pathWithin_cases h with ⟨hp, rfl⟩ | ⟨_, _, _, _, h0, _⟩
    · exact pathWithin_root more hp
    · omega
  | succ fuel ih =>
    intro more hm
    rcases pathWithin_cases h with ⟨hp, rfl⟩ | ⟨f, p, d, up, hf, hp, hd, hu, rfl⟩
    · exact pathWithin_root more hp
    · obtain ⟨more, rfl⟩ : ∃ k, more = k + 1 := ⟨more - 1, by omega⟩
      obtain rfl : f = fuel := by omega
      exact pathWithin_child hp hd (ih hu (by omega))

/-- A path by at most `fuel` links has at most `fuel` bits. -/
theorem length_of_pathWithin {fuel n : Nat} {bits : List Bool} (h : s.pathWithin fuel n = some bits) :
    bits.length ≤ fuel := by
  induction fuel generalizing n bits with
  | zero =>
    rcases pathWithin_cases h with ⟨_, rfl⟩ | ⟨_, _, _, _, h0, _⟩
    · simp
    · omega
  | succ fuel ih =>
    rcases pathWithin_cases h with ⟨_, rfl⟩ | ⟨f, p, d, up, hf, _, _, hu, rfl⟩
    · simp
    · obtain rfl : f = fuel := by omega
      have := ih hu
      simp
      omega

end Sys2Proof.Laws
end

