-- ==== Sys2Proof/Laws/PerInstr.lean ====
section
/-! SUPPORT. One statement per command, made constructor by constructor: the word of a well-formed command is a word of the
table's row with the command's mnemonic (30_encoding.md R96). -/

namespace Sys2Proof.Laws.RowOfWord

/-- The encoding of a well-formed command is selected by the row of its mnemonic (30_encoding.md R96). -/
def Statement (i : Instr) : Prop :=
  i.wf = true → ∃ r ∈ opcodeTable, r.mnemonic = mnemonicOf i ∧ r.selects (encode i) = true

/-- A word with opcode `op` under the mask of the opcode alone. -/
theorem mask_opcode (op : Opcode) (a : Arg) : ((op ++ a : CmdWord) &&& 0xF000) = op ++ (0 : Arg) := by
  apply BitVec.eq_of_getLsbD_eq
  intro i hi
  rw [BitVec.getLsbD_and, getLsbD_word, getLsbD_word]
  split
  · have : BitVec.getLsbD (0xF000 : CmdWord) i = false := by
      interval_cases i <;> rfl
    rw [this]
    simp
  · have : BitVec.getLsbD (0xF000 : CmdWord) i = true := by
      interval_cases i <;> rfl
    rw [this]
    simp

/-- A row whose mask is the opcode selects every word with its opcode. -/
theorem selects_opcode {r : TableRow} {op : Opcode} (a : Arg) (hm : r.mask = 0xF000) (hp : r.pattern = op ++ (0 : Arg)) :
    r.selects (op ++ a) = true := by
  simp only [TableRow.selects, decide_eq_true_eq, hm, hp]
  exact mask_opcode op a

theorem nop : Statement .nop := fun _ => ⟨⟨"NOP", .none, 0x0000, 0xFFFF⟩, by decide, rfl, by decide⟩

theorem init : Statement .init := fun _ => ⟨⟨"INIT", .none, 0x1000, 0xFFFF⟩, by decide, rfl, by decide⟩

theorem lookup (a : Arg) : Statement (.lookup a) := fun _ =>
  ⟨⟨"LOOKUP", .sym, 0x2000, 0xF000⟩, by decide, rfl, selects_opcode (op := 0x2) a rfl (by decide)⟩

theorem insert (a : Arg) : Statement (.insert a) := fun _ =>
  ⟨⟨"INSERT", .sym, 0x3000, 0xF000⟩, by decide, rfl, selects_opcode (op := 0x3) a rfl (by decide)⟩

theorem paths (a : Arg) : Statement (.paths a) := fun _ =>
  ⟨⟨"PATHS", .sym, 0x4000, 0xF000⟩, by decide, rfl, selects_opcode (op := 0x4) a rfl (by decide)⟩

theorem pathn (a : Arg) : Statement (.pathn a) := fun _ =>
  ⟨⟨"PATHN", .node, 0x5000, 0xF000⟩, by decide, rfl, selects_opcode (op := 0x5) a rfl (by decide)⟩

theorem rdsr (a : Arg) : Statement (.rdsr a) := fun h => by
  refine ⟨⟨"RDSR", .sr, 0x6000, 0xFFFC⟩, by decide, rfl, ?_⟩
  have ha : a.toNat ≤ 3 := by simpa [Instr.wf] using h
  have : a = 0 ∨ a = 1 ∨ a = 2 ∨ a = 3 := by
    rcases (by omega : a.toNat = 0 ∨ a.toNat = 1 ∨ a.toNat = 2 ∨ a.toNat = 3) with h | h | h | h
    · exact .inl (BitVec.eq_of_toNat_eq h)
    · exact .inr (.inl (BitVec.eq_of_toNat_eq h))
    · exact .inr (.inr (.inl (BitVec.eq_of_toNat_eq h)))
    · exact .inr (.inr (.inr (BitVec.eq_of_toNat_eq h)))
  rcases this with rfl | rfl | rfl | rfl <;> decide

theorem rdw (a : Arg) : Statement (.rdw a) := fun _ =>
  ⟨⟨"RDW", .node, 0x7000, 0xF000⟩, by decide, rfl, selects_opcode (op := 0x7) a rfl (by decide)⟩

theorem rdsym (a : Arg) : Statement (.rdsym a) := fun _ =>
  ⟨⟨"RDSYM", .node, 0x8000, 0xF000⟩, by decide, rfl, selects_opcode (op := 0x8) a rfl (by decide)⟩

theorem rdpar (a : Arg) : Statement (.rdpar a) := fun _ =>
  ⟨⟨"RDPAR", .node, 0x9000, 0xF000⟩, by decide, rfl, selects_opcode (op := 0x9) a rfl (by decide)⟩

theorem rdleft (a : Arg) : Statement (.rdleft a) := fun _ =>
  ⟨⟨"RDLEFT", .node, 0xA000, 0xF000⟩, by decide, rfl, selects_opcode (op := 0xA) a rfl (by decide)⟩

theorem rdright (a : Arg) : Statement (.rdright a) := fun _ =>
  ⟨⟨"RDRIGHT", .node, 0xB000, 0xF000⟩, by decide, rfl, selects_opcode (op := 0xB) a rfl (by decide)⟩

theorem rdrank (a : Arg) : Statement (.rdrank a) := fun _ =>
  ⟨⟨"RDRANK", .node, 0xC000, 0xF000⟩, by decide, rfl, selects_opcode (op := 0xC) a rfl (by decide)⟩

theorem rdord (a : Arg) : Statement (.rdord a) := fun _ =>
  ⟨⟨"RDORD", .rank, 0xD000, 0xF000⟩, by decide, rfl, selects_opcode (op := 0xD) a rfl (by decide)⟩

end Sys2Proof.Laws.RowOfWord
end

