-- ==== Sys2Proof/Laws/Sound.lean ====
section
/-! SUPPORT. Soundness does not look at `FLT`, the response port or the pins (10_state.md section 9), so a fault, a response
and an edge without a command keep it; and the first consequences of soundness. -/

namespace Sys2Proof.Laws

open Sys2Proof.Machine

variable {s t : State}

/-- States that agree on the tree, the registers but `FLT`, and the parameter are sound together. -/
theorem inv_congr (h : Inv s) (h1 : t.weightBits = s.weightBits) (h2 : t.root = s.root) (h3 : t.nyt = s.nyt)
    (h4 : t.ncount = s.ncount) (h5 : t.nodes = s.nodes) (h6 : t.ord = s.ord) (h7 : t.sidx = s.sidx) : Inv t := by
  obtain ⟨a1, a2, a3, a4, a5, a6, a7, a8, b1, b2⟩ := s
  obtain ⟨c1, c2, c3, c4, c5, c6, c7, c8, d1, d2⟩ := t
  dsimp only at h1 h2 h3 h4 h5 h6 h7
  subst h1 h2 h3 h4 h5 h6 h7
  exact ⟨h.count, h.order, h.kinds, h.links, h.sums, h.sorted, h.nyt, h.symbols, h.agrees, h.index, h.registers, h.ranks,
    h.width, h.indices⟩

/-- The widths of the indices follow from the range of the node count (20_memory.md R63). -/
theorem indexLaw_of (hc : CountLaw s) (ho : OrderPermutation s) (hl : LinkLaw s) (hn : NytLaw s) (ha : IndexAgrees s) :
    IndexLaw s := by
  have hmax : s.ncount ≤ 513 := hc.2.2
  have hfit : ∀ {n : Nat}, n < s.ncount → n < 2 ^ Config.idxBits := fun h =>
    Nat.lt_of_lt_of_le h (Nat.le_trans hmax (by decide))
  refine ⟨hfit hl.1, hfit hn.1, Nat.lt_of_le_of_lt hmax (by decide), ?_, ?_, fun e he => hfit (ha.2 e he).1⟩
  · intro x hx
    obtain ⟨n, hlt, rfl⟩ := List.getElem_of_mem hx
    have hnode : s.node n = s.nodes[n] := by simp [State.node, hlt]
    have hlt' : n < s.ncount := hc.1 ▸ hlt
    refine ⟨fun p hp => hfit (hl.2.2.2 n hlt' p ?_).1, fun k hk => ?_⟩
    · rw [State.parent, hnode]; exact hp
    · have := hl.2.2.1 n hlt' k (by rw [State.kids, hnode]; exact hk)
      exact ⟨hfit this.1, hfit this.2.1⟩
  · intro n h
    exact hfit (List.mem_range.1 (ho.mem_iff.1 h))

theorem inv_takeFault (c : Status) (h : Inv s) : Inv (takeFault c s) := inv_congr h rfl rfl rfl rfl rfl rfl rfl

theorem inv_takeResponse (h : Inv s) : Inv (takeResponse s) := inv_congr h rfl rfl rfl rfl rfl rfl rfl

theorem inv_withRsp (r : Option Response) (h : Inv s) : Inv { s with rsp := r } := inv_congr h rfl rfl rfl rfl rfl rfl rfl

theorem inv_withInputs (i : List PortIn) (h : Inv s) : Inv { s with inputs := i } := inv_congr h rfl rfl rfl rfl rfl rfl rfl

/-- Every allocated node stands at some rank, and only once (10_state.md R32). -/
theorem Inv.mem_ord (h : Inv s) {n : Nat} : n ∈ s.ord ↔ n < s.ncount := by
  rw [h.order.mem_iff, List.mem_range]

theorem Inv.nodup_ord (h : Inv s) : s.ord.Nodup := h.order.nodup_iff.2 List.nodup_range

theorem Inv.length_ord (h : Inv s) : s.ord.length = s.ncount := by rw [h.order.length_eq, List.length_range]

theorem Inv.root_lt (h : Inv s) : s.root < s.ncount := h.links.1

theorem Inv.parent_lt (h : Inv s) {n p : Nat} (hn : n < s.ncount) (hp : s.parent n = some p) : p < s.ncount :=
  (h.links.2.2.2 n hn p hp).1

/-- An index that a sound state holds fits the 12 operand bits (00_scope.md R6). -/
theorem Inv.lt_operand (h : Inv s) {n : Nat} (hn : n < s.ncount) : n < 2 ^ 12 := by
  have : s.ncount ≤ 513 := h.count.2.2
  omega

end Sys2Proof.Laws
end

