-- ==== Sys2Proof/Laws/Step.lean ====
section
/-! SUPPORT. Everything a step can do (30_encoding.md R91, R92, R105; 70_reset_and_hazards.md R280), said once. -/

namespace Sys2Proof.Laws

open Sys2Proof.Machine

variable {s t : State}

/-- An accepted word runs its command or takes `ILLEGAL_CMD` (30_encoding.md R105). -/
theorem acceptWord_cases {w : CmdWord} {o : Host.Outcome State Fault Refusal} (h : acceptWord w s = o) :
    (∃ i, decode w = .ok i ∧ exec i s = o) ∨ (∃ e, decode w = .error e ∧ o = .next (takeFault .illegalCmd s)) := by
  unfold acceptWord at h
  split at h
  · exact .inl ⟨_, ‹_›, h⟩
  · exact .inr ⟨_, ‹_›, h.symm⟩

/-- One pin sample: reset, a response kept or taken, a word accepted, or nothing. -/
theorem portEdge_cases {p : PortIn} {o : Host.Outcome State Fault Refusal} (h : portEdge p s = o) :
    (p.rst = true ∧ o = .next (resetEngine s)) ∨
    (p.rst = false ∧ ∃ r, s.rsp = some r ∧ o = .next (if p.rspReady then takeResponse s else s)) ∨
    (p.rst = false ∧ s.rsp = none ∧ p.cmdValid = true ∧ acceptWord p.cmd s = o) ∨
    (p.rst = false ∧ s.rsp = none ∧ p.cmdValid = false ∧ o = .next s) := by
  unfold portEdge at h
  cases hr : p.rst
  · right
    simp only [hr, Bool.false_eq_true, if_false] at h
    split at h
    · exact .inl ⟨rfl, _, ‹_›, h.symm⟩
    · right
      cases hv : p.cmdValid
      · exact .inr ⟨rfl, ‹_›, rfl, by simpa [hv] using h.symm⟩
      · exact .inl ⟨rfl, ‹_›, rfl, by simpa [hv] using h⟩
  · exact .inl ⟨rfl, by simpa [hr] using h.symm⟩

/-- A step consumes one pin sample, if there is one (log 8, log 14). -/
theorem step_cases {o : Host.Outcome State Fault Refusal} (h : step s = o) :
    (s.inputs = [] ∧ o = .next s) ∨ ∃ p rest, s.inputs = p :: rest ∧ portEdge p { s with inputs := rest } = o := by
  unfold step at h
  split at h
  · exact .inl ⟨‹_›, h.symm⟩
  · exact .inr ⟨_, _, ‹_›, h⟩

end Sys2Proof.Laws
end

