-- ==== Sys2Proof/Laws/SymIndex.lean ====
section
/-! SUPPORT. The symbol index (41_symbol_leaf_mapper.md): what `bind` does to a lookup, and that it keeps the canonical form.
`bind` and `INIT` are the only writers of the index (R141). -/

namespace Sys2Proof.Laws

open Sys2Proof.Machine

theorem indexLookup_indexBind (m : SymIndex) (y z : Sym) (f : Nat) :
    indexLookup z (indexBind y f m) = if y = z then some f else indexLookup z m := by
  induction m with
  | nil => simp [indexBind, indexLookup]
  | cons e m ih =>
    obtain ⟨k, g⟩ := e
    by_cases h1 : y.toNat < k.toNat
    · simp [indexBind, indexLookup, h1]
    · by_cases h2 : k = y
      · subst h2
        by_cases h3 : k = z <;> simp [indexBind, indexLookup, h3]
      · by_cases h3 : k = z
        · have : ¬ y = z := fun h => h2 (h3.trans h.symm)
          subst h3
          simp [indexBind, indexLookup, h1, h2, this]
        · simp [indexBind, indexLookup, h1, h2, h3, ih]

/-- A bound symbol is seen and no other symbol's entry changes (41_symbol_leaf_mapper.md R141). -/
@[simp] theorem lookup_bind (s : State) (y z : Sym) (f : Nat) :
    (s.bind y f).lookup z = if y = z then some f else s.lookup z := indexLookup_indexBind ..

/-- A symbol with an entry has it in the list. -/
theorem mem_of_indexLookup {m : SymIndex} {y : Sym} {f : Nat} (h : indexLookup y m = some f) : (y, f) ∈ m := by
  induction m with
  | nil => simp [indexLookup] at h
  | cons e m ih =>
    obtain ⟨k, g⟩ := e
    by_cases hk : k = y
    · simp [indexLookup, hk] at h
      simp [hk, h]
    · simp [indexLookup, hk] at h
      exact List.mem_cons_of_mem _ (ih h)

/-- An entry of a bound table is the new one or an old one. -/
theorem mem_indexBind {m : SymIndex} {y : Sym} {f : Nat} {e : Sym × Nat} (h : e ∈ indexBind y f m) :
    e = (y, f) ∨ e ∈ m := by
  induction m with
  | nil => simpa [indexBind] using h
  | cons e' m ih =>
    obtain ⟨k, g⟩ := e'
    simp only [indexBind] at h
    split at h
    · simpa using h
    · split at h
      · rcases List.mem_cons.1 h with rfl | h
        · exact .inl rfl
        · exact .inr (List.mem_cons_of_mem _ h)
      · rcases List.mem_cons.1 h with rfl | h
        · exact .inr (List.mem_cons_self ..)
        · exact (ih h).imp_right (List.mem_cons_of_mem _)

/-- `bind` keeps the canonical form. -/
theorem indexBind_wf {m : SymIndex} (y : Sym) (f : Nat) (h : SymIndex.wf m = true) :
    SymIndex.wf (indexBind y f m) = true := by
  simp only [SymIndex.wf, decide_eq_true_eq, List.pairwise_map] at h ⊢
  induction m with
  | nil => simp [indexBind]
  | cons e m ih =>
    obtain ⟨k, g⟩ := e
    obtain ⟨hk, hm⟩ := List.pairwise_cons.1 h
    simp only [indexBind]
    split
    · rename_i hlt
      refine List.pairwise_cons.2 ⟨fun e he => ?_, h⟩
      rcases List.mem_cons.1 he with rfl | he
      · exact hlt
      · exact Nat.lt_trans hlt (hk e he)
    · rename_i hlt
      split
      · rename_i heq
        subst heq
        exact List.pairwise_cons.2 ⟨hk, hm⟩
      · rename_i hne
        refine List.pairwise_cons.2 ⟨fun e he => ?_, ih hm⟩
        have hky : k.toNat < y.toNat := by
          have : k.toNat ≠ y.toNat := fun h => hne (BitVec.eq_of_toNat_eq h)
          omega
        rcases mem_indexBind he with rfl | he
        · exact hky
        · exact hk e he

/-- A symbol that is not seen adds one entry. -/
theorem length_indexBind {m : SymIndex} {y : Sym} {f : Nat} (h : indexLookup y m = none) :
    (indexBind y f m).length = m.length + 1 := by
  induction m with
  | nil => simp [indexBind]
  | cons e m ih =>
    obtain ⟨k, g⟩ := e
    by_cases hk : k = y
    · simp [indexLookup, hk] at h
    · simp [indexLookup, hk] at h
      by_cases hlt : y.toNat < k.toNat <;> simp [indexBind, hlt, hk, ih h]

/-- The state-level form: `bind` keeps the canonical form of the symbol index. -/
theorem bind_keeps_wf {s : State} (y : Sym) (f : Nat) (h : SymIndex.wf s.sidx = true) :
    SymIndex.wf (s.bind y f).sidx = true := indexBind_wf y f h

/-- After `INIT` and reset the symbol index is empty, which is canonical. -/
theorem resetEngine_wf (s : State) : SymIndex.wf (resetEngine s).sidx = true := rfl

end Sys2Proof.Laws
end

