-- ==== Sys2Proof/Laws/Update.lean ====
section
/-! SUPPORT. The parts of `INSERT` (42_tree_update_engine.md): for each, everything it can do when it answers a state, and
what it leaves alone. The increment phase's induction is packaged once (`incrementPhase_keeps`). -/

namespace Sys2Proof.Laws

open Sys2Proof.Machine

variable {s t : State}

/-! ## What each part can do -/

/-- `swap` (R159): all six values are read, then the writes happen. -/
theorem swap_cases {a b : Nat} (h : s.swap a b = .ok t) :
    ∃ ka kb pa pb sa sb, s.rank a = some ka ∧ s.rank b = some kb ∧ s.parent a = some pa ∧ s.parent b = some pb ∧
      s.childSide pa a = some sa ∧ s.childSide pb b = some sb ∧ t = s.exchange a ka pa sa b kb pb sb := by
  unfold State.swap at h
  split at h
  · split at h
    · split at h
      · refine ⟨_, _, _, _, _, _, ‹_›, ‹_›, ‹_›, ‹_›, ‹_›, ‹_›, ?_⟩
        exact ((Except.ok.injEq ..).mp h).symm
      all_goals cases h
    all_goals cases h
  all_goals cases h

/-- `swap` completes when the six values are there. -/
theorem swap_ok {a b ka kb pa pb : Nat} {sa sb : Side} (h1 : s.rank a = some ka) (h2 : s.rank b = some kb)
    (h3 : s.parent a = some pa) (h4 : s.parent b = some pb) (h5 : s.childSide pa a = some sa)
    (h6 : s.childSide pb b = some sb) : s.swap a b = .ok (s.exchange a ka pa sa b kb pb sb) := by
  simp [State.swap, h1, h2, h3, h4, h5, h6]

/-- `enforce` (R164): the leader is exchanged with the node where that is allowed, else nothing happens. -/
theorem enforce_cases {n : Nat} (h : s.enforce n = .ok t) :
    ∃ l, s.leader (s.weight n) = some l ∧
      ((s.swapAllowed n l = true ∧ s.swap n l = .ok t) ∨ (s.swapAllowed n l = false ∧ t = s)) := by
  unfold State.enforce at h
  split at h
  · cases h
  · rename_i l hl
    refine ⟨l, hl, ?_⟩
    by_cases hs : s.swapAllowed n l = true
    · exact .inl ⟨hs, by simpa [hs] using h⟩
    · refine .inr ⟨by simpa using hs, ?_⟩
      simpa [hs] using h.symm

/-- `swap_allowed` (R158) by its three exclusions. -/
theorem swapAllowed_iff {n l : Nat} :
    s.swapAllowed n l = true ↔ l ≠ n ∧ s.parent n ≠ some l ∧ s.parent l ≠ some n := by
  simp [State.swapAllowed]

/-- The split's place for the new internal node (R154): `ROOT`, or the slot that held the NYT leaf. -/
theorem giveNytPlace_cases {p : Option Nat} {i : Nat} (h : s.giveNytPlace p i = .ok t) :
    (p = none ∧ t = { s with root := i }) ∨
    ∃ q d, p = some q ∧ s.childSide q s.nyt = some d ∧ t = s.setChild q d i := by
  unfold State.giveNytPlace at h
  split at h
  · exact .inl ⟨rfl, ((Except.ok.injEq ..).mp h).symm⟩
  · right
    split at h
    · exact ⟨_, _, rfl, ‹_›, ((Except.ok.injEq ..).mp h).symm⟩
    · cases h

/-- `split` (R154): allocation, the NYT leaf's new parent, its place, the order, the mapper and the count. -/
theorem split_cases {y : Sym} {cur : Option Nat} (h : s.split y = .ok (t, cur)) :
    cur = s.parent s.nyt ∧
    ∃ u, ((s.allocPair s.ncount (s.ncount + 1) y).setParent s.nyt s.ncount).giveNytPlace (s.parent s.nyt) s.ncount = .ok u ∧
      t = { (u.orderInsert (s.ncount + 1) s.ncount).bind y (s.ncount + 1) with ncount := u.ncount + 2 } := by
  unfold State.split at h
  simp only at h
  split at h
  · cases h
  · rename_i u hu
    simp only [Except.ok.injEq, Prod.mk.injEq] at h
    exact ⟨h.2.symm, u, hu, h.1.symm⟩

/-- The part of `INSERT` after its checks (R150): a seen symbol starts at its leaf, an unseen one at the split's cursor. -/
theorem insertSymbol_cases {y : Sym} (h : s.insertSymbol y = .ok t) :
    (∃ f, s.lookup y = some f ∧ State.incrementPhase s.ncount (some f) s = .ok t) ∨
    ∃ u cur, s.lookup y = none ∧ s.split y = .ok (u, cur) ∧ State.incrementPhase u.ncount cur u = .ok t := by
  unfold State.insertSymbol at h
  split at h
  · exact .inl ⟨_, ‹_›, h⟩
  · right
    split at h
    · cases h
    · exact ⟨_, _, ‹_›, ‹_›, h⟩

/-- `INSERT` answers a fault entry or the updated tree with its response (R150, R151). -/
theorem execInsert_cases {a : Arg} (h : execInsert a s = .next t) :
    (255 < a.toNat ∧ t = takeFault .alphabet s) ∨
    (a.toNat ≤ 255 ∧ s.weight s.root = weightMax s.weightBits ∧ t = takeFault .weightOverflow s) ∨
    (a.toNat ≤ 255 ∧ s.weight s.root ≠ weightMax s.weightBits ∧
      ∃ u, s.insertSymbol (a.extractLsb' 0 8) = .ok u ∧
        t = { u with rsp := some { flag := (s.lookup (a.extractLsb' 0 8)).isNone,
                                   data := (u.lookup (a.extractLsb' 0 8)).getD 0 } }) := by
  unfold execInsert at h
  rcases withSym_cases h with ⟨hle, h⟩ | ⟨hgt, h⟩
  · right
    by_cases hw : s.weight s.root = weightMax s.weightBits
    · rw [if_pos hw] at h
      exact .inl ⟨hle, hw, by simpa using h.symm⟩
    · rw [if_neg hw] at h
      split at h
      · cases h
      · exact .inr ⟨hle, hw, _, ‹_›, by simpa using h.symm⟩
  · exact .inl ⟨hgt, by simpa using h⟩

/-! ## The increment phase, by induction once -/

/-- A property of cursor and state that every visit keeps holds when the increment phase ends (R156). -/
theorem incrementPhase_keeps {P : Option Nat → State → Prop}
    (visit : ∀ n s t, P (some n) s → s.enforce n = .ok t → P ((t.increment n).ascend n) (t.increment n)) :
    ∀ {fuel cur s t}, P cur s → State.incrementPhase fuel cur s = .ok t → P none t := by
  intro fuel
  induction fuel with
  | zero =>
    intro cur s t hP h
    rcases cur with _ | n
    · rw [State.incrementPhase] at h
      cases h
      exact hP
    · cases h
  | succ fuel ih =>
    intro cur s t hP h
    rcases cur with _ | n
    · rw [State.incrementPhase] at h
      cases h
      exact hP
    · rw [State.incrementPhase] at h
      split at h
      · cases h
      · exact ih (visit n s _ hP ‹_›) h

/-! ## What the parts leave alone -/

/-- What no part of an increment phase writes: the registers, the symbol index, the ports, the number of entries, and each
node's symbol and whether it has children (10_state.md R30). -/
def SameBut (s t : State) : Prop :=
  t.weightBits = s.weightBits ∧ t.root = s.root ∧ t.nyt = s.nyt ∧ t.ncount = s.ncount ∧ t.flt = s.flt ∧
  t.sidx = s.sidx ∧ t.rsp = s.rsp ∧ t.inputs = s.inputs ∧ t.nodes.length = s.nodes.length ∧
  t.ord.length = s.ord.length ∧ ∀ n, t.sym n = s.sym n ∧ (t.kids n).isSome = (s.kids n).isSome

theorem SameBut.refl (s : State) : SameBut s s :=
  ⟨rfl, rfl, rfl, rfl, rfl, rfl, rfl, rfl, rfl, rfl, fun _ => ⟨rfl, rfl⟩⟩

theorem SameBut.trans {s t u : State} (h : SameBut s t) (g : SameBut t u) : SameBut s u := by
  obtain ⟨h1, h2, h3, h4, h5, h6, h7, h8, h9, h10, h11⟩ := h
  obtain ⟨g1, g2, g3, g4, g5, g6, g7, g8, g9, g10, g11⟩ := g
  exact ⟨g1.trans h1, g2.trans h2, g3.trans h3, g4.trans h4, g5.trans h5, g6.trans h6, g7.trans h7, g8.trans h8,
    g9.trans h9, g10.trans h10, fun n => ⟨(g11 n).1.trans (h11 n).1, (g11 n).2.trans (h11 n).2⟩⟩

theorem sameBut_exchange (s : State) (a ka pa : Nat) (sa : Side) (b kb pb : Nat) (sb : Side) :
    SameBut s (s.exchange a ka pa sa b kb pb sb) := by
  refine ⟨rfl, rfl, rfl, rfl, rfl, rfl, rfl, rfl, ?_, ?_, fun n => ⟨?_, ?_⟩⟩
  · simp [State.exchange]
  · simp
  · simp [State.exchange]
    rfl
  · simp only [State.exchange, kids_setParent, kids_setChild]
    have e : State.kids { s with ord := (s.ord.set ka b).set kb a } n = s.kids n := rfl
    rw [e]
    split <;> split <;> simp

theorem sameBut_enforce {n : Nat} (h : s.enforce n = .ok t) : SameBut s t := by
  obtain ⟨l, -, ⟨-, h⟩ | ⟨-, rfl⟩⟩ := enforce_cases h
  · obtain ⟨_, _, _, _, _, _, -, -, -, -, -, -, rfl⟩ := swap_cases h
    exact sameBut_exchange ..
  · exact .refl _

theorem sameBut_increment (s : State) (n : Nat) : SameBut s (s.increment n) :=
  ⟨rfl, rfl, rfl, rfl, rfl, rfl, rfl, rfl, length_increment n, rfl, fun _ =>
    ⟨sym_setWeight .., congrArg Option.isSome (kids_setWeight ..)⟩⟩

/-- The increment phase's frame. -/
theorem sameBut_incrementPhase {fuel : Nat} {cur : Option Nat} (h : State.incrementPhase fuel cur s = .ok t) :
    SameBut s t :=
  incrementPhase_keeps (P := fun _ u => SameBut s u)
    (fun n _ u hu he => (hu.trans (sameBut_enforce he)).trans (sameBut_increment u n)) (.refl s) h

end Sys2Proof.Laws
end

