-- ==== Sys2Proof/Tests/Slice0.lean ====
section
/-! SUPPORT. The model's own tests. Expected values are the spec's: the encodings of 30_encoding.md R96, the vectors and tables
of 95_test_vectors.md (named V<n>, E<n>, P<n> there). The second half gives, for each statement with hypotheses, a state and
operands that meet them. -/

namespace Sys2Proof.Tests

open Sys2Proof Sys2Proof.Machine

/-! ## Small states, written out from the spec's tables -/

/-- 95_test_vectors.md V4: after "a". -/
def aState : State :=
  { State.reset with
    root := 1
    ncount := 3
    nodes := [⟨0, none, some 1, none⟩, ⟨1, none, none, some (0, 2)⟩, ⟨1, some 0x61, some 1, none⟩]
    ord := [0, 2, 1]
    sidx := [(0x61, 2)] }

/-- 95_test_vectors.md V6: after "ab". -/
def abState : State :=
  { State.reset with
    root := 1
    ncount := 5
    nodes := [⟨0, none, some 3, none⟩, ⟨2, none, none, some (3, 2)⟩, ⟨1, some 0x61, some 1, none⟩,
      ⟨1, none, some 1, some (0, 4)⟩, ⟨1, some 0x62, some 3, none⟩]
    ord := [0, 4, 3, 2, 1]
    sidx := [(0x61, 2), (0x62, 4)] }

/-- 95_test_vectors.md V15: after "abcb". -/
def abcbState : State :=
  { State.reset with
    root := 1
    ncount := 7
    nodes := [⟨0, none, some 5, none⟩, ⟨4, none, none, some (4, 3)⟩, ⟨1, some 0x61, some 3, none⟩,
      ⟨2, none, some 1, some (5, 2)⟩, ⟨2, some 0x62, some 1, none⟩, ⟨1, none, some 3, some (0, 6)⟩,
      ⟨1, some 0x63, some 5, none⟩]
    ord := [0, 6, 5, 2, 4, 3, 1]
    sidx := [(0x61, 2), (0x62, 4), (0x63, 6)] }

/-- 95_test_vectors.md V12, row 4: `WEIGHT_BITS` = 2 and the root weight at its greatest value. -/
def fullState : State :=
  { State.resetOf 2 with
    root := 1
    ncount := 5
    nodes := [⟨0, none, some 3, none⟩, ⟨3, none, none, some (3, 2)⟩, ⟨2, some 1, some 1, none⟩,
      ⟨1, none, some 1, some (0, 4)⟩, ⟨1, some 2, some 3, none⟩]
    ord := [0, 4, 3, 2, 1]
    sidx := [(1, 2), (2, 4)] }

/-- The state a step leads to, if it does not stop. -/
def after (o : Host.Outcome State Fault Refusal) : Option State :=
  match o with
  | .next t => some t
  | .fault _ => none
  | .refused _ => none

/-- The response a step leaves on the port. -/
def answer (o : Host.Outcome State Fault Refusal) : Option Response := (after o).bind State.rsp

/-- One step that accepts the word. -/
def accept (w : Nat) (s : State) : Host.Outcome State Fault Refusal := step (s.withFetchWord 16 w)

/-! ## WellFormed: the one check refuses its ill-formed term (30_encoding.md R98) -/

theorem test_rdsr_4_is_ill_formed : Instr.wf (.rdsr 4) = false := by decide
theorem test_rdsr_3_is_well_formed : Instr.wf (.rdsr 3) = true := by decide

/-! ## Decode: a word of each row, from 30_encoding.md R96 -/

theorem test_decode_nop : decode 0b0000000000000000 = .ok .nop := by decide
theorem test_decode_init : decode 0b0001000000000000 = .ok .init := by decide
theorem test_decode_lookup : decode 0b0010000001100001 = .ok (.lookup 0x61) := by decide
theorem test_decode_insert : decode 0b0011000101100001 = .ok (.insert 0x161) := by decide
theorem test_decode_paths : decode 0b0100000011111111 = .ok (.paths 255) := by decide
theorem test_decode_pathn : decode 0b0101001000000000 = .ok (.pathn 512) := by decide
theorem test_decode_rdsr : decode 0b0110000000000011 = .ok (.rdsr 3) := by decide
theorem test_decode_rdw : decode 0b0111000000000101 = .ok (.rdw 5) := by decide
theorem test_decode_rdsym : decode 0b1000100000000000 = .ok (.rdsym 0x800) := by decide
theorem test_decode_rdpar : decode 0b1001000000000110 = .ok (.rdpar 6) := by decide
theorem test_decode_rdleft : decode 0b1010000000000001 = .ok (.rdleft 1) := by decide
theorem test_decode_rdright : decode 0b1011000000000001 = .ok (.rdright 1) := by decide
theorem test_decode_rdrank : decode 0b1100000000000010 = .ok (.rdrank 2) := by decide
theorem test_decode_rdord : decode 0b1101000000000100 = .ok (.rdord 4) := by decide
theorem test_reject_reserved_opcode : decode 0xF123 = .error (.reservedOpcode 0xF) := by decide
theorem test_reject_nop_operand : decode 0x0001 = .error (.reservedOperand 0x0 1) := by decide
theorem test_reject_rdsr_4 : decode 0x6004 = .error (.reservedOperand 0x6 4) := by decide
theorem test_decodeTableWord : decodeTableWord 16 0x3061 = some (.insert 0x61) := by decide

/-! ## Session and mapper commands (V1, V2, V15) -/

theorem test_nop : after (accept 0x0000 abState) = some { abState with rsp := some {} } := by decide
theorem test_init : after (accept 0x1000 { abcbState with flt := .alphabet }) = some { State.reset with rsp := some {} } := by
  decide
theorem test_init_operand_faults :
    after (accept 0x1005 aState) = some { aState with flt := .illegalCmd, rsp := some { status := .illegalCmd } } := by decide
theorem test_lookup_seen : answer (accept 0x2062 abcbState) = some { flag := true, data := 4 } := by decide
theorem test_lookup_unseen : answer (accept 0x2064 abcbState) = some {} := by decide
theorem test_lookup_alphabet : answer (accept 0x2100 State.reset) = some { status := .alphabet } := by decide
theorem test_rdsr_ncount : answer (accept 0x6002 abcbState) = some { data := 7 } := by decide
theorem test_rdsr_flt : answer (accept 0x6003 { State.reset with flt := .alphabet }) = some { data := 2 } := by decide

/-! ## INSERT (V4 to V9, V12) -/

theorem test_insert_first : after (accept 0x3061 State.reset) = some { aState with rsp := some { flag := true, data := 2 } } := by
  decide

/-- V5: the leader is the parent, so nothing is exchanged. -/
theorem test_insert_seen_under_parent_leader :
    after (accept 0x3061 aState) = some { aState with
      nodes := [⟨0, none, some 1, none⟩, ⟨2, none, none, some (0, 2)⟩, ⟨2, some 0x61, some 1, none⟩]
      rsp := some { data := 2 } } := by decide

theorem test_insert_second : after (accept 0x3062 aState) = some { abState with rsp := some { flag := true, data := 4 } } := by
  decide

/-- V7: an exchange of nodes with different parents. -/
theorem test_insert_swap :
    after (accept 0x3062 abState) = some { abState with
      nodes := [⟨0, none, some 3, none⟩, ⟨3, none, none, some (3, 4)⟩, ⟨1, some 0x61, some 3, none⟩,
        ⟨1, none, some 1, some (0, 2)⟩, ⟨2, some 0x62, some 1, none⟩]
      ord := [0, 2, 3, 4, 1]
      rsp := some { data := 4 } } := by decide

/-- V8: an exchange of siblings after a split. -/
theorem test_insert_sibling_swap :
    after (accept 0x3063 abState) = some { abState with
      ncount := 7
      nodes := [⟨0, none, some 5, none⟩, ⟨3, none, none, some (2, 3)⟩, ⟨1, some 0x61, some 1, none⟩,
        ⟨2, none, some 1, some (5, 4)⟩, ⟨1, some 0x62, some 3, none⟩, ⟨1, none, some 3, some (0, 6)⟩,
        ⟨1, some 0x63, some 5, none⟩]
      ord := [0, 6, 5, 4, 2, 3, 1]
      sidx := [(0x61, 2), (0x62, 4), (0x63, 6)]
      rsp := some { flag := true, data := 6 } } := by decide

theorem test_insert_overflow :
    after (accept 0x3001 fullState) =
      some { fullState with flt := .weightOverflow, rsp := some { status := .weightOverflow } } := by decide
theorem test_insert_alphabet_before_overflow :
    answer (accept 0x3300 fullState) = some { status := .alphabet } := by decide

/-! ## Read-outs (V15) -/

theorem test_paths_seen : answer (accept 0x4063 abcbState) = some { flag := true, data := 6, path := [true, false, true] } := by
  decide
theorem test_paths_unseen : answer (accept 0x4064 abcbState) = some { path := [true, false, false] } := by decide
theorem test_pathn : answer (accept 0x5005 abcbState) = some { path := [true, false] } := by decide
theorem test_pathn_bad_index : answer (accept 0x5007 abcbState) = some { status := .badIndex } := by decide
theorem test_rdw : answer (accept 0x7003 abcbState) = some { data := 2 } := by decide
theorem test_rdsym : answer (accept 0x8004 abcbState) = some { flag := true, data := 98 } := by decide
theorem test_rdsym_nyt : answer (accept 0x8000 abcbState) = some {} := by decide
theorem test_rdpar : answer (accept 0x9000 abcbState) = some { flag := true, data := 5 } := by decide
theorem test_rdpar_root : answer (accept 0x9001 abcbState) = some {} := by decide
theorem test_rdleft_node_0 : answer (accept 0xA005 abcbState) = some { flag := true, data := 0 } := by decide
theorem test_rdleft_leaf : answer (accept 0xA004 abcbState) = some {} := by decide
theorem test_rdright : answer (accept 0xB001 abcbState) = some { flag := true, data := 3 } := by decide
theorem test_rdrank : answer (accept 0xC002 abcbState) = some { data := 3 } := by decide
theorem test_rdord : answer (accept 0xD004 abcbState) = some { data := 4 } := by decide
theorem test_rdord_bad_index : answer (accept 0xD007 abcbState) = some { status := .badIndex } := by decide

/-! ## Ports (30_encoding.md R91, R92; 70_reset_and_hazards.md R280) -/

theorem test_command_waits :
    after (step { aState with rsp := some { data := 7 }, inputs := [PortIn.command 0x1000] }) =
      some { aState with rsp := some { data := 7 } } := by decide
theorem test_response_is_taken :
    after (step { aState with rsp := some { data := 7 }, inputs := [PortIn.take] }) = some aState := by decide
theorem test_reset_drops_response :
    after (step { abState with rsp := some { data := 7 }, inputs := [PortIn.reset] }) = some State.reset := by decide

/-- V15 row 11 as a field value: `rsp_path[2:0] = 0b101`, all higher bits 0. -/
theorem test_path_wire : Response.pathWire { path := [true, false, true] } = 0b101 := by decide

/-! ## Drivers (V16, V17, P2) and script -/

theorem test_lit8 : lit8 0x62 = [false, true, true, false, false, false, true, false] := by decide
theorem test_encode_unseen : (encodeSymbol 0x62 aState).bits = false :: lit8 0x62 := by decide
theorem test_encode_seen_before_insert : (encodeSymbol 0x62 abState).bits = [false, true] := by decide
theorem test_decode_literal : decodeSymbol "001100010".toList aState =
    .symbol 0x62 [] { abState with rsp := none } := by decide +kernel
theorem test_decode_incomplete : decodeSymbol "00110001".toList aState = .failed .incompleteInput aState := by decide +kernel
/-- R226: the symbol is in the output although its `INSERT` faults. -/
theorem test_decode_overflow_keeps_symbol :
    (decodeAll 2 "1".toList fullState).out = [1] ∧
    (decodeAll 2 "1".toList fullState).ending = .failed (.engineFault .weightOverflow) := by decide +kernel
/-- R200, R258: all six reads are made and fault. -/
theorem test_rdnode_bad_index :
    rdnode 5 abState = .ok (List.replicate 6 { status := .badIndex }, { abState with flt := .badIndex }) := by decide
theorem test_decode_malformed : decodeSymbol "x".toList aState = .failed .malformedInput aState := by decide +kernel
theorem test_code_by_lookup : codeByLookup 0x63 abcbState = .ok ([true, false, true], abcbState) := by decide +kernel
theorem test_script : assembleLine "RDORD 4 # comment".toList = .ok (some 0xD004) := by decide

/-! ## Witnesses: a state and operands that meet the hypotheses of each statement -/

theorem witness_inv_reset : Inv State.reset := by constructor <;> decide
theorem witness_inv_a : Inv aState := by constructor <;> decide
theorem witness_inv_ab : Inv abState := by constructor <;> decide
theorem witness_inv_abcb : Inv abcbState := by constructor <;> decide
theorem witness_inv_full : Inv fullState := by constructor <;> decide

/-- DecodeOfEncode. -/
theorem witness_well_formed : Instr.wf (.rdsr 3) = true ∧ Instr.wf (.insert 4095) = true := by decide
/-- EncodeOfDecode, TableRowsSelectTheDecodedCommand. -/
theorem witness_word_decodes : decode 0x6003 = .ok (.rdsr 3) ∧ decode 0xDFFF = .ok (.rdord 4095) := by decide
/-- IllegalWordsAreTheReservedOnes, each alternative at a boundary. -/
theorem witness_illegal_words :
    decode 0xE000 = .error (.reservedOpcode 0xE) ∧ decode 0xFFFF = .error (.reservedOpcode 0xF) ∧
    decode 0x0001 = .error (.reservedOperand 0 1) ∧ decode 0x1FFF = .error (.reservedOperand 1 4095) ∧
    decode 0x6004 = .error (.reservedOperand 6 4) := by decide
/-- StepRunsDecodedCommand, EveryAcceptedWordGetsItsResponse. -/
theorem witness_command_accepted :
    ∃ (s : State) (p : PortIn) (rest : List PortIn) (i : Instr), Inv s ∧ s.inputs = p :: rest ∧ p.rst = false ∧
      p.cmdValid = true ∧ s.rsp = none ∧ decode p.cmd = .ok i :=
  ⟨State.reset.withFetchWord 16 0x3061, PortIn.command 0x3061, [], .insert 0x61,
    (by constructor <;> decide), rfl, rfl, rfl, rfl, by decide⟩
/-- StepFaultsOnIllegalWord. -/
theorem witness_illegal_accepted :
    ∃ (s : State) (p : PortIn) (rest : List PortIn) (e : DecodeReject), s.inputs = p :: rest ∧ p.rst = false ∧
      p.cmdValid = true ∧ s.rsp = none ∧ decode p.cmd = .error e :=
  ⟨State.reset.withFetchWord 16 0xE000, PortIn.command 0xE000, [], .reservedOpcode 0xE, by decide⟩
/-- CommandWaitsUntilResponseIsTaken, with the response left and with it taken. -/
theorem witness_response_waiting :
    ∀ b : Bool, ∃ (s : State) (p : PortIn) (rest : List PortIn) (r : Response), s.inputs = p :: rest ∧ p.rst = false ∧
      p.rspReady = b ∧ s.rsp = some r := fun b =>
  ⟨{ aState with rsp := some {}, inputs := [⟨false, true, 0, b⟩] }, ⟨false, true, 0, b⟩, [], {}, rfl, rfl, rfl, rfl⟩
/-- ResetReplacesTheState. -/
theorem witness_reset_pin :
    ∃ (s : State) (p : PortIn) (rest : List PortIn), s.inputs = p :: rest ∧ p.rst = true :=
  ⟨{ abState with inputs := [PortIn.reset] }, PortIn.reset, [], by decide⟩
/-- NothingHappensWithoutACommand, both clauses. -/
theorem witness_no_command :
    State.reset.inputs = [] ∧
    ∃ (s : State) (p : PortIn) (rest : List PortIn), s.inputs = p :: rest ∧ p.rst = false ∧ p.cmdValid = false ∧ s.rsp = none :=
  ⟨rfl, { aState with inputs := [PortIn.take] }, PortIn.take, [], by decide⟩
/-- StepKeepsStateSound, SoundStateNeverStops: a step from a sound state to a next state. -/
theorem witness_sound_step : Inv abState ∧ (after (step abState)).isSome = true := ⟨witness_inv_ab, by decide⟩
/-- InitStartsASession, its last clause: a word that clears `FLT`. -/
theorem witness_init_clears_flt :
    ({ aState with flt := .badIndex } : State).flt ≠ .ok ∧
    (after (acceptWord 0x1000 { aState with flt := .badIndex })).map State.flt = some .ok := by decide
/-- NopChangesNothing and InitStartsASession, an operand that is not 0; ResetStateIsTheEmptyTree, a command of its list, a byte
value and a state of the width; LiteralIsMostSignificantBitFirst, the last bit. -/
theorem witness_small_hypotheses :
    (1 : Arg) ≠ 0 ∧ Instr.rdpar 0 ∈ [Instr.rdsym 0, .rdpar 0, .rdleft 0, .rdright 0] ∧ (255 : Arg).toNat ≤ 255 ∧
    abcbState.weightBits = 32 ∧ 7 < 8 := by decide
/-- RdsrReadsTheRegister: operands at 3 and above. -/
theorem witness_rdsr_operands : (3 : Arg).toNat ≤ 3 ∧ 3 < (4 : Arg).toNat ∧ 3 < (4095 : Arg).toNat := by decide
/-- LookupAnswersTheLeaf, PathsAnswersTheRootPath, CodeByLookupIsThePath: a seen and an unseen byte value, and the first value
above 255. -/
theorem witness_symbols :
    Inv abState ∧ abState.lookup ((0x62 : Arg).extractLsb' 0 8) = some 4 ∧ abState.lookup ((255 : Arg).extractLsb' 0 8) = none ∧
    (255 : Arg).toNat ≤ 255 ∧ 255 < (256 : Arg).toNat :=
  ⟨witness_inv_ab, by decide⟩
/-- PathnAnswersTheRootPath, RdwReadsTheWeight, RdsymReadsTheSymbol, RdparReadsTheParent, RdleftReadsTheLeftChild,
RdrightReadsTheRightChild, RdrankReadsTheRank, PathsHaveAtMost256Bits, RdnodeReadsTheNode: the greatest index in use and the
least one not in use; a node with and without each optional field. -/
theorem witness_nodes :
    Inv abState ∧ (4 : Arg).toNat < abState.ncount ∧ abState.ncount ≤ (5 : Arg).toNat ∧
    abState.sym 4 = some 0x62 ∧ abState.sym 0 = none ∧ abState.parent 4 = some 3 ∧ abState.parent 1 = none ∧
    abState.kids 1 = some (3, 2) ∧ abState.kids 4 = none :=
  ⟨witness_inv_ab, by decide⟩
/-- RdordReadsTheOrder, the inverse: a node and its rank. -/
theorem witness_rank_and_order :
    Inv abState ∧ (2 : Arg).toNat < abState.ncount ∧ (3 : Arg).toNat < abState.ncount ∧
    answer (exec (.rdrank 2) abState) = some { data := 3 } ∧ answer (exec (.rdord 3) abState) = some { data := 2 } :=
  ⟨witness_inv_ab, by decide⟩
/-- PathsAnswersTheRootPath, its clause for one seen symbol. -/
theorem witness_one_symbol : Inv aState ∧ aState.ncount = 3 ∧ aState.lookup 0x61 = some 2 := ⟨witness_inv_a, by decide⟩
/-- PathsAnswersTheRootPath, its last clause: a non-empty NYT path. -/
theorem witness_nyt_path : Inv abState ∧ abState.path abState.nyt = some [false, false] := ⟨witness_inv_ab, by decide⟩
/-- LookupAnswersTheLeaf, its last clause: a command that is not `INIT` with a symbol already seen. -/
theorem witness_lookup_stays :
    Inv abState ∧ (after (acceptWord 0x3062 abState)).isSome = true ∧ decode 0x3062 ≠ .ok .init ∧
    abState.lookup 0x61 = some 2 := ⟨witness_inv_ab, by decide⟩
/-- PathFollowsTheBranches: the root, a left and a right child. -/
theorem witness_branches :
    Inv abState ∧ abState.parent 1 = none ∧ abState.parent 3 = some 1 ∧ abState.parent 2 = some 1 ∧ abState.kids 1 = some (3, 2) :=
  ⟨witness_inv_ab, by decide⟩
/-- LeafPathsArePrefixFree: two leaves. -/
theorem witness_two_leaves :
    Inv abState ∧ 0 < abState.ncount ∧ 4 < abState.ncount ∧ abState.kids 0 = none ∧ abState.kids 4 = none ∧
    abState.path 0 = some [false, false] ∧ abState.path 4 = some [false, true] :=
  ⟨witness_inv_ab, by decide⟩
/-- ResponseFitsItsPorts, FaultChangesOnlyFlt, FltLatchesTheFirstFault, FaultsHaveTheirCauses: a fault of each status and a
success. -/
theorem witness_responses :
    answer (acceptWord 0x4062 abState) = some { flag := true, data := 4, path := [false, true] } ∧
    answer (acceptWord 0xE000 abState) = some { status := .illegalCmd } ∧
    answer (acceptWord 0x4100 abState) = some { status := .alphabet } ∧
    answer (acceptWord 0x7005 abState) = some { status := .badIndex } ∧
    answer (acceptWord 0x3001 fullState) = some { status := .weightOverflow } := by decide
/-- ReadCommandsChangeNoState and FltGatesNothing: a command that is neither `INIT` nor `INSERT` nor `RDSR 3` and goes on, and
one that stops in a state no run reaches. -/
theorem witness_read_commands :
    Instr.rdw 2 ≠ .init ∧ Instr.rdw 2 ≠ .rdsr 3 ∧ (after (exec (.rdw 2) abState)).isSome = true ∧
    Instr.rdrank 0 ≠ .rdsr 3 ∧ after (exec (.rdrank 0) { abState with ord := [] }) = none := by decide
/-- InsertChecksAlphabetThenWeight, both clauses. -/
theorem witness_insert_checks :
    255 < (256 : Arg).toNat ∧ (255 : Arg).toNat ≤ 255 ∧ fullState.weight fullState.root = 2 ^ fullState.weightBits - 1 := by
  decide
/-- InsertCompletes, InsertRaisesTheLeafAndItsAncestors, InsertLeavesTheRestUnchanged, EncodeEmitsThePathThenTheLiteral. -/
theorem witness_insert :
    Inv abState ∧ (0x62 : Arg).toNat ≤ 255 ∧ abState.weight abState.root ≠ 2 ^ abState.weightBits - 1 ∧
    (after (exec (.insert 0x62) abState)).isSome = true ∧
    ((after (exec (.insert 0x62) abState)).bind fun t => t.lookup ((0x62 : Arg).extractLsb' 0 8)) = some 4 :=
  ⟨witness_inv_ab, by decide⟩
/-- SplitPutsAnInternalNodeInNytsPlace: an unseen symbol with the NYT leaf at the root, and below a parent. -/
theorem witness_split :
    (Inv State.reset ∧ State.reset.lookup 0x61 = none ∧ State.reset.parent State.reset.nyt = none) ∧
    (Inv abState ∧ abState.lookup 0x63 = none ∧ abState.parent abState.nyt = some 3 ∧ abState.kids 3 = some (0, 4)) :=
  ⟨⟨witness_inv_reset, by decide⟩, witness_inv_ab, by decide⟩
/-- LeaderIsTheHighestOfItsWeight: a weight with three nodes, and a node that is not the NYT leaf. -/
theorem witness_leader :
    Inv abState ∧ 4 < abState.ncount ∧ 4 ≠ abState.nyt ∧ abState.leader 1 = some 2 ∧ abState.ord[3]? = some 2 ∧ abState.weight 2 = 1 :=
  ⟨witness_inv_ab, by decide⟩
/-- SwapExchangesRanksAndPlaces: siblings, and nodes with different parents. -/
theorem witness_swap :
    Inv abState ∧ (2 < abState.ncount ∧ 3 < abState.ncount ∧ abState.parent 3 = some 1 ∧ abState.parent 2 = some 1) ∧
    (4 < abState.ncount ∧ abState.parent 4 = some 3) :=
  ⟨witness_inv_ab, by decide⟩
/-- SwapWithoutParentIsStuck. -/
theorem witness_swap_stuck : abState.rank 1 ≠ none ∧ abState.rank 2 ≠ none ∧ abState.parent 1 = none := by decide
/-- IncrementAddsOne. -/
theorem witness_increment : 2 < abState.nodes.length ∧ abState.weight 2 < 2 ^ abState.weightBits - 1 := by decide
/-- FirstInsertBuildsTheFirstTree, FirstSymbolIsEightRawBits, ResetStateIsSound. -/
theorem witness_width : 1 ≤ State.reset.weightBits ∧ (0x61 : Arg).toNat ≤ 255 := by decide
/-- WeightsCountOccurrences, DecodeOfEncodedStreamIsTheInput: a sequence at the greatest length for `WEIGHT_BITS` = 2. -/
theorem witness_sequences :
    ([0x61, 0x61, 0x62] : List Sym) ≠ [] ∧ ([0x61, 0x61, 0x62] : List Sym).length < 2 ^ fullState.weightBits ∧
    ([0x61, 0x61, 0x62] : List Sym).length < 2 ^ State.reset.weightBits := by decide
/-- DecodeAtASymbolBoundary: an internal root, and the single NYT root. -/
theorem witness_boundaries :
    (Inv abState ∧ 1 < abState.ncount ∧ ('x' : Char) ≠ '0' ∧ ('x' : Char) ≠ '1') ∧
    (Inv State.reset ∧ State.reset.ncount = 1 ∧ "0110000".toList.length < 8) :=
  ⟨⟨witness_inv_ab, by decide⟩, witness_inv_reset, by decide⟩
/-- OverflowIsTheInsertAfterTheLastCount: sequences below and at the greatest count for `WEIGHT_BITS` = 2. -/
theorem witness_counts :
    1 ≤ fullState.weightBits ∧ ([1, 2] : List Sym).length < 2 ^ fullState.weightBits - 1 ∧ ([1, 1, 2] : List Sym).length = 2 ^ fullState.weightBits - 1 ∧
    ([1, 1, 2] : List Sym).length < 2 ^ fullState.weightBits := by decide
/-- AnUnseenSymbolLeavesRoom. -/
theorem witness_unseen : Inv abState ∧ abState.lookup 0x63 = none := ⟨witness_inv_ab, by decide⟩
/-- DecoderErrorsLeaveTheEngineAlone, with each of the two errors. -/
theorem witness_decoder_errors :
    Inv aState ∧ decodeSymbol "0011".toList aState = .failed .incompleteInput aState ∧
    decodeSymbol "2".toList aState = .failed .malformedInput aState :=
  ⟨witness_inv_a, by decide +kernel, by decide +kernel⟩
/-- DecoderErrorsLeaveTheEngineAlone, its second clause. -/
theorem witness_decoder_overflow :
    Inv fullState ∧ decodeSymbol "1".toList fullState =
      .insertFailed 1 (.engineFault .weightOverflow) { fullState with flt := .weightOverflow } :=
  ⟨witness_inv_full, by decide +kernel⟩
/-- DecodeSessionEndsInOneOfThreeWays. -/
theorem witness_stream : 1 ≤ State.reset.weightBits ∧ "0110000110".toList.length < 2 ^ State.reset.weightBits := by decide

end Sys2Proof.Tests
end

