-- ==== Sys2Proof/Proofs/Commands.lean ====
section
/-! PROOFS. What `INIT`, `LOOKUP` and the reads of optional node fields answer when their operand is in range, one equation
per command (40_session_control.md, 41_symbol_leaf_mapper.md, 43_tree_readout.md). -/

namespace Sys2Proof.Proofs

open Sys2Proof.Machine Sys2Proof.Laws

variable {s : State} {a : Arg}

/-- `INIT` responds in the reset state (40_session_control.md R122). -/
theorem exec_init (s : State) : exec .init s = .next { resetEngine s with rsp := some {} } := rfl

/-- `LOOKUP` of a byte value (41_symbol_leaf_mapper.md R140). -/
theorem exec_lookup_of_le (h : a.toNat ≤ 255) :
    exec (.lookup a) s = .next { s with rsp := some (optionalResponse (s.lookup (a.extractLsb' 0 8))) } :=
  withSym_of_le h

/-- `RDSYM` of an allocated node (43_tree_readout.md R194). -/
theorem exec_rdsym_of_lt (h : a.toNat < s.ncount) :
    exec (.rdsym a) s = .next { s with rsp := some (optionalResponse ((s.sym a.toNat).map BitVec.toNat)) } :=
  withIndex_of_lt h

/-- `RDPAR` of an allocated node (43_tree_readout.md R195). -/
theorem exec_rdpar_of_lt (h : a.toNat < s.ncount) :
    exec (.rdpar a) s = .next { s with rsp := some (optionalResponse (s.parent a.toNat)) } :=
  withIndex_of_lt h

/-- `RDLEFT` of an allocated node (43_tree_readout.md R196). -/
theorem exec_rdleft_of_lt (h : a.toNat < s.ncount) :
    exec (.rdleft a) s = .next { s with rsp := some (optionalResponse ((s.kids a.toNat).map Prod.fst)) } :=
  withIndex_of_lt h

/-- `RDRIGHT` of an allocated node (43_tree_readout.md R197). -/
theorem exec_rdright_of_lt (h : a.toNat < s.ncount) :
    exec (.rdright a) s = .next { s with rsp := some (optionalResponse ((s.kids a.toNat).map Prod.snd)) } :=
  withIndex_of_lt h

/-- An absent optional value is answered by zeros (30_encoding.md R101, 93_implementation_defined.md U10). -/
@[simp] theorem optionalResponse_none : optionalResponse none = {} := rfl

end Sys2Proof.Proofs
end

