-- ==== Sys2Proof/Proofs/ResetState.lean ====
section
/-! PROOFS. The reset state (10_state.md R42): its fields, the one allocated node, and the statement about it. -/

namespace Sys2Proof.Proofs

open Sys2Proof.Machine Sys2Proof.Laws

section Fields

variable (wb : Nat)

@[simp] theorem weightBits_resetOf : (State.resetOf wb).weightBits = wb := rfl
@[simp] theorem root_resetOf : (State.resetOf wb).root = 0 := rfl
@[simp] theorem nyt_resetOf : (State.resetOf wb).nyt = 0 := rfl
@[simp] theorem ncount_resetOf : (State.resetOf wb).ncount = 1 := rfl
@[simp] theorem flt_resetOf : (State.resetOf wb).flt = .ok := rfl
@[simp] theorem sidx_resetOf : (State.resetOf wb).sidx = [] := rfl
@[simp] theorem weight_resetOf_zero : (State.resetOf wb).weight 0 = 0 := rfl
@[simp] theorem sym_resetOf_zero : (State.resetOf wb).sym 0 = none := rfl
@[simp] theorem parent_resetOf_zero : (State.resetOf wb).parent 0 = none := rfl
@[simp] theorem kids_resetOf_zero : (State.resetOf wb).kids 0 = none := rfl
@[simp] theorem nodeAt_resetOf_zero : (State.resetOf wb).nodeAt 0 = 0 := rfl
@[simp] theorem lookup_resetOf (y : Sym) : (State.resetOf wb).lookup y = none := rfl

/-- Node 0 is the one allocated node, so a law about all allocated nodes is a law about node 0. -/
theorem forall_lt_ncount_resetOf {P : Nat → Prop} : (∀ n, n < (State.resetOf wb).ncount → P n) ↔ P 0 := by
  simp

end Fields

section Invariants

variable (wb : Nat)

/-- No node is internal, so there is no sum to keep (10_state.md R35). -/
theorem weightSum_resetOf : WeightSum (State.resetOf wb) :=
  (forall_lt_ncount_resetOf wb).2 (by simp)

/-- There is only one rank (10_state.md R36). -/
theorem weightOrder_resetOf : WeightOrder (State.resetOf wb) :=
  fun k hk => absurd hk (Nat.not_lt_zero k)

/-- The single node is the NYT leaf (10_state.md R37). -/
theorem nytLaw_resetOf : NytLaw (State.resetOf wb) :=
  ⟨Nat.one_pos, (forall_lt_ncount_resetOf wb).2 (by simp), weight_resetOf_zero wb⟩

/-- The NYT leaf is the only leaf, and it has no symbol (10_state.md R38). -/
theorem leafSymbols_resetOf : LeafSymbols (State.resetOf wb) :=
  ⟨(forall_lt_ncount_resetOf wb).2 (by simp), (forall_lt_ncount_resetOf wb).2 (by simp)⟩

/-- Neither the tree nor the symbol index holds a symbol (10_state.md R38). -/
theorem indexAgrees_resetOf : IndexAgrees (State.resetOf wb) :=
  ⟨(forall_lt_ncount_resetOf wb).2 (by simp), by simp⟩

end Invariants

section Answers

variable {wb : Nat}

/-- The reads of node 0's value fields under a valid bit of 0 answer zeros (10_state.md R42). -/
theorem exec_optionalReads_resetOf {i : Instr} (hi : i ∈ [Instr.rdsym 0, .rdpar 0, .rdleft 0, .rdright 0]) :
    exec i (State.resetOf wb) = .next { State.resetOf wb with rsp := some {} } := by
  have hz : (0 : Arg).toNat = 0 := rfl
  have h0 : (0 : Arg).toNat < (State.resetOf wb).ncount := Nat.one_pos
  simp only [List.mem_cons, List.not_mem_nil, or_false] at hi
  rcases hi with rfl | rfl | rfl | rfl
  · rw [exec_rdsym_of_lt h0, hz, sym_resetOf_zero, Option.map_none, optionalResponse_none]
  · rw [exec_rdpar_of_lt h0, hz, parent_resetOf_zero, optionalResponse_none]
  · rw [exec_rdleft_of_lt h0, hz, kids_resetOf_zero, Option.map_none, optionalResponse_none]
  · rw [exec_rdright_of_lt h0, hz, kids_resetOf_zero, Option.map_none, optionalResponse_none]

/-- No byte value has been seen (10_state.md R42). -/
theorem exec_lookup_resetOf {a : Arg} (ha : a.toNat ≤ 255) :
    exec (.lookup a) (State.resetOf wb) = .next { State.resetOf wb with rsp := some {} } := by
  rw [exec_lookup_of_le ha, lookup_resetOf, optionalResponse_none]

/-- `INIT` gives the reset state of the engine's width (10_state.md R42). -/
theorem exec_init_of_weightBits {u : State} (hu : u.weightBits = wb) :
    exec .init u = .next { State.resetOf wb with inputs := u.inputs, rsp := some {} } := by
  rw [exec_init, resetEngine, hu]

end Answers

/-- Settles O12: the fields by their equations, the invariants because node 0 is the only node, and the answers by the
equations of the commands. -/
theorem resetStateIsTheEmptyTree : Obligations.ResetStateIsTheEmptyTree := fun wb =>
  ⟨root_resetOf wb, nyt_resetOf wb, ncount_resetOf wb, flt_resetOf wb, weight_resetOf_zero wb, sym_resetOf_zero wb,
    parent_resetOf_zero wb, kids_resetOf_zero wb, nodeAt_resetOf_zero wb, lookup_resetOf wb,
    fun _ => exec_optionalReads_resetOf, fun _ => exec_lookup_resetOf,
    weightSum_resetOf wb, weightOrder_resetOf wb, nytLaw_resetOf wb, leafSymbols_resetOf wb, indexAgrees_resetOf wb,
    fun _ => exec_init_of_weightBits⟩

end Sys2Proof.Proofs
end

