-- ==== Sys2Proof/Proofs/IllegalWords.lean ====
section
/-! PROOFS. The illegal command words (30_encoding.md R97, R98): the fields of a word as numbers, the fields that the decoder
rejects, and what the engine does with a rejected word. -/

namespace Sys2Proof.Proofs

open Sys2Proof.Machine

section Fields

variable (w : CmdWord)

/-- The opcode is the word's four high bits (30_encoding.md R93). -/
@[simp] theorem toNat_opField : (opField w).toNat = w.toNat / 4096 := by
  rw [opField, BitVec.extractLsb'_toNat, Nat.shiftRight_eq_div_pow, Nat.mod_eq_of_lt (by omega)]

/-- The operand is the word's twelve low bits (30_encoding.md R93). -/
@[simp] theorem toNat_argField : (argField w).toNat = w.toNat % 4096 := by
  rw [argField, BitVec.extractLsb'_toNat, Nat.shiftRight_zero]

end Fields

/-- A command whose operand is checked by `p` is rejected exactly when the check fails (30_encoding.md R98). -/
theorem exists_ite_eq_error_iff {p : Prop} [Decidable p] {i : Instr} {r : DecodeReject} :
    (∃ e, (if p then Except.ok i else .error r) = .error e) ↔ ¬ p := by
  by_cases hp : p <;> simp [hp]

/-- The fields that are no command: a reserved opcode (30_encoding.md R97) or a reserved operand (30_encoding.md R98). -/
theorem decodeFields_error_iff (op : Opcode) (a : Arg) :
    (∃ e, decodeFields op a = .error e) ↔
      (op.toNat = 14 ∨ op.toNat = 15) ∨
      ((op.toNat = 0 ∨ op.toNat = 1) ∧ a.toNat ≠ 0) ∨
      (op.toNat = 6 ∧ 3 < a.toNat) := by
  unfold decodeFields
  split
  case h_1 hop | h_2 hop => -- `NOP` and `INIT` check for a zero operand
    have hzero : a = 0 ↔ a.toNat = 0 := BitVec.toNat_eq
    rw [exists_ite_eq_error_iff, hzero]
    omega
  case h_7 hop => -- `RDSR` checks for a register number
    rw [exists_ite_eq_error_iff]
    omega
  case h_15 => -- no opcode of the table is left
    have hlt : op.toNat < 16 := op.isLt
    simp only [imp_false] at *
    exact iff_of_true ⟨_, rfl⟩ (by omega)
  all_goals -- the other commands take every operand
    exact iff_of_false (fun ⟨_, he⟩ => nomatch he) (by omega)

/-- The engine takes `ILLEGAL_CMD` on a rejected word (30_encoding.md R105, 60_exceptions.md R251). -/
theorem acceptWord_of_decode_error {w : CmdWord} {e : DecodeReject} (h : decode w = .error e) (s : State) :
    acceptWord w s = .next (takeFault .illegalCmd s) := by
  rw [acceptWord, h, raise]

/-- Settles O4: the rejected fields are read as parts of the word's value. -/
theorem illegalWordsAreTheReservedOnes : Obligations.IllegalWordsAreTheReservedOnes := by
  unfold Obligations.IllegalWordsAreTheReservedOnes
  intro w
  refine ⟨?_, fun _ => acceptWord_of_decode_error⟩
  rw [decode, decodeFields_error_iff, toNat_opField, toNat_argField]

end Sys2Proof.Proofs
end

