-- ==== Sys2Proof/Proofs/CommandEnds.lean ====
section
/-! PROOFS. How a command that goes on ends (00_scope.md R11): every command but `INIT` and `INSERT` presents a response with
status 0 in an otherwise unchanged state, or enters a fault; and every command but `INIT` leaves `FLT` to the latch
(60_exceptions.md R254, R257). -/

namespace Sys2Proof.Proofs

open Sys2Proof.Machine Sys2Proof.Laws

variable {s t : State} {a : Arg}

/-- The state `t` is `s` with a successful response on the port, or `s` after a fault entry. -/
def RespondsOrFaults (s t : State) : Prop :=
  (∃ r : Response, r.status = .ok ∧ t = { s with rsp := some r }) ∨ ∃ c : Status, c ≠ .ok ∧ t = takeFault c s

/-- The state `t` presents a response whose status `FLT` has latched, if `FLT` was 0 in `s` (60_exceptions.md R257). -/
def LatchesStatus (s t : State) : Prop :=
  ∃ r : Response, t.rsp = some r ∧ t.flt = if s.flt = .ok then r.status else s.flt

/-! ## A response, and the checks before it -/

theorem respondsOrFaults_respond {r : Response} (hr : r.status = .ok) (h : respond r s = .next t) :
    RespondsOrFaults s t := by
  cases h
  exact .inl ⟨r, hr, rfl⟩

theorem respondsOrFaults_respondPath {n data : Nat} {flag : Bool} (h : respondPath s n flag data = .next t) :
    RespondsOrFaults s t := by
  unfold respondPath at h
  split at h
  · exact respondsOrFaults_respond rfl h
  · cases h

theorem respondsOrFaults_withSym {k : Sym → Host.Outcome State Fault Refusal}
    (hk : ∀ y, k y = .next t → RespondsOrFaults s t) (h : withSym a s k = .next t) : RespondsOrFaults s t := by
  rcases withSym_cases h with ⟨-, h⟩ | ⟨-, h⟩
  · exact hk _ h
  · cases h
    exact .inr ⟨.alphabet, by decide, rfl⟩

theorem respondsOrFaults_withIndex {k : Nat → Host.Outcome State Fault Refusal}
    (hk : ∀ n, k n = .next t → RespondsOrFaults s t) (h : withIndex a s k = .next t) : RespondsOrFaults s t := by
  rcases withIndex_cases h with ⟨-, h⟩ | ⟨-, h⟩
  · exact hk _ h
  · cases h
    exact .inr ⟨.badIndex, by decide, rfl⟩

theorem respondsOrFaults_withSr {k : Nat → Host.Outcome State Fault Refusal}
    (hk : ∀ v, k v = .next t → RespondsOrFaults s t) (h : withSr a s k = .next t) : RespondsOrFaults s t := by
  unfold withSr at h
  split at h
  · exact hk _ h
  · cases h
    exact .inr ⟨.illegalCmd, by decide, rfl⟩

/-! ## The commands -/

theorem respondsOrFaults_execRdrank (h : execRdrank a s = .next t) : RespondsOrFaults s t := by
  refine respondsOrFaults_withIndex (fun n hn => ?_) h
  split at hn
  · exact respondsOrFaults_respond rfl hn
  · cases hn

/-- Every command but `INIT` and `INSERT` changes at most `FLT`, and that by a fault (20_memory.md R65). -/
theorem exec_respondsOrFaults {i : Instr} (hinit : i ≠ .init) (hinsert : ∀ a, i ≠ .insert a)
    (h : exec i s = .next t) : RespondsOrFaults s t := by
  cases i with
  | init => exact absurd rfl hinit
  | insert a => exact absurd rfl (hinsert a)
  | nop => exact respondsOrFaults_respond rfl h
  | rdsr => exact respondsOrFaults_withSr (fun _ => respondsOrFaults_respond rfl) h
  | lookup => exact respondsOrFaults_withSym (fun _ => respondsOrFaults_respond rfl) h
  | paths => exact respondsOrFaults_withSym (fun _ => respondsOrFaults_respondPath) h
  | pathn => exact respondsOrFaults_withIndex (fun _ => respondsOrFaults_respondPath) h
  | rdrank => exact respondsOrFaults_execRdrank h
  | rdw | rdsym | rdpar | rdleft | rdright | rdord =>
    exact respondsOrFaults_withIndex (fun _ => respondsOrFaults_respond rfl) h

/-! ## `FLT` -/

/-- A fault entry latches its own code. -/
theorem latchesStatus_takeFault (c : Status) (s : State) : LatchesStatus s (takeFault c s) :=
  ⟨{ status := c }, rfl, rfl⟩

/-- A successful response goes with an unchanged `FLT`. -/
theorem latchesStatus_withRsp {r : Response} (hr : r.status = .ok) (hflt : t.flt = s.flt) :
    LatchesStatus s { t with rsp := some r } := by
  refine ⟨r, rfl, hflt.trans ?_⟩
  split
  next hok => rw [hok, hr]
  next => rfl

theorem RespondsOrFaults.latchesStatus (h : RespondsOrFaults s t) : LatchesStatus s t := by
  rcases h with ⟨r, hr, rfl⟩ | ⟨c, -, rfl⟩
  · exact latchesStatus_withRsp hr rfl
  · exact latchesStatus_takeFault c s

/-- A split does not write `FLT` (42_tree_update_engine.md R154). -/
theorem flt_split {y : Sym} {cur : Option Nat} (h : s.split y = .ok (t, cur)) : t.flt = s.flt := by
  obtain ⟨-, u, hu, rfl⟩ := split_cases h
  rcases giveNytPlace_cases hu with ⟨-, rfl⟩ | ⟨q, d, -, -, rfl⟩ <;> rfl

/-- The increment phase does not write `FLT` (42_tree_update_engine.md R156). -/
theorem flt_incrementPhase {fuel : Nat} {cur : Option Nat} (h : State.incrementPhase fuel cur s = .ok t) :
    t.flt = s.flt := by
  obtain ⟨-, -, -, -, hflt, -⟩ := sameBut_incrementPhase h
  exact hflt

/-- The part of `INSERT` after its checks does not write `FLT` (42_tree_update_engine.md R150). -/
theorem flt_insertSymbol {y : Sym} (h : s.insertSymbol y = .ok t) : t.flt = s.flt := by
  rcases insertSymbol_cases h with ⟨f, -, hphase⟩ | ⟨u, cur, -, hsplit, hphase⟩
  · exact flt_incrementPhase hphase
  · exact (flt_incrementPhase hphase).trans (flt_split hsplit)

theorem latchesStatus_execInsert (h : execInsert a s = .next t) : LatchesStatus s t := by
  rcases execInsert_cases h with ⟨-, rfl⟩ | ⟨-, -, rfl⟩ | ⟨-, -, u, hu, rfl⟩
  · exact latchesStatus_takeFault ..
  · exact latchesStatus_takeFault ..
  · exact latchesStatus_withRsp rfl (flt_insertSymbol hu)

/-- Every command but `INIT` leaves `FLT` to the latch (60_exceptions.md R257). -/
theorem exec_latchesStatus {i : Instr} (hinit : i ≠ .init) (h : exec i s = .next t) : LatchesStatus s t := by
  by_cases hinsert : ∃ a, i = .insert a
  · obtain ⟨a, rfl⟩ := hinsert
    exact latchesStatus_execInsert h
  · exact (exec_respondsOrFaults hinit (not_exists.1 hinsert) h).latchesStatus

/-- Every word but that of `INIT` leaves `FLT` to the latch (60_exceptions.md R257). -/
theorem acceptWord_latchesStatus {w : CmdWord} (hinit : decode w ≠ .ok .init) (h : acceptWord w s = .next t) :
    LatchesStatus s t := by
  rcases acceptWord_cases h with ⟨i, hi, h⟩ | ⟨e, -, h⟩
  · exact exec_latchesStatus (fun hn => hinit (hn ▸ hi)) h
  · cases h
    exact latchesStatus_takeFault ..

/-- A code that `FLT` holds stays under the latch. -/
theorem LatchesStatus.flt_eq (h : LatchesStatus s t) (hs : s.flt ≠ .ok) : t.flt = s.flt := by
  obtain ⟨r, -, hflt⟩ := h
  rw [hflt, if_neg hs]

end Sys2Proof.Proofs
end

