-- ==== Sys2Proof/Proofs/SessionControl.lean ====
section
/-! PROOFS. The session and control commands `NOP`, `INIT` and `RDSR` (40_session_control.md R121 to R123). -/

namespace Sys2Proof.Proofs

open Sys2Proof.Machine Sys2Proof.Laws

variable {s : State} {a : Arg}

/-! ## Reserved operands -/

/-- A word with a reserved operand faults: `NOP` or `INIT` with any but 0, `RDSR` above 3 (30_encoding.md R98). -/
theorem acceptWord_of_reserved_operand {op : Opcode}
    (h : ((op.toNat = 0 ∨ op.toNat = 1) ∧ a ≠ 0) ∨ (op.toNat = 6 ∧ 3 < a.toNat)) (s : State) :
    acceptWord (op ++ a) s = .next (takeFault .illegalCmd s) := by
  have hreserved : ∃ e, decodeFields op a = .error e := by
    have hzero : a = 0 ↔ a.toNat = 0 := BitVec.toNat_eq
    exact (decodeFields_error_iff op a).2 (.inr (h.imp_left (And.imp_right hzero.not.1)))
  obtain ⟨e, he⟩ := hreserved
  exact acceptWord_of_decode_error ((decode_append op a).trans he) s

/-! ## `INIT` -/

/-- `INIT` after `INIT` responds in the same state (40_session_control.md R122). -/
theorem exec_init_idempotent {t : State} (h : exec .init s = .next t) : exec .init t = .next t := by
  rw [exec_init] at h
  cases h
  rfl

/-! ## `RDSR` -/

/-- A register number in range is a legal operand (30_encoding.md R98). -/
theorem decode_rdsr (h : a.toNat ≤ 3) : decode ((0x6 : Opcode) ++ a) = .ok (.rdsr a) := by
  rw [decode_append]
  exact if_pos h

/-- `RDSR` responds with the value of the register it names (40_session_control.md R123). -/
theorem exec_rdsr_of_srOperand {v : Nat} (h : srOperand a s = some v) :
    exec (.rdsr a) s = .next { s with rsp := some { data := v } } := by
  rw [exec, execRdsr, withSr, h]
  rfl

/-- `RDSR` of a number that names no register (40_session_control.md R123). -/
theorem exec_rdsr_of_gt (h : 3 < a.toNat) : exec (.rdsr a) s = .next (takeFault .illegalCmd s) :=
  withSr_of_gt h

/-! ## The statements -/

/-- Settles O17: the reset state by the equation of `INIT`, and for the last clause every other word leaves `FLT` to the
latch, which keeps a code once it is there. -/
theorem initStartsASession : Obligations.InitStartsASession := by
  unfold Obligations.InitStartsASession
  refine ⟨by decide, fun s => exec_init_of_weightBits rfl,
    fun a ha => acceptWord_of_reserved_operand (.inl ⟨.inr rfl, ha⟩),
    fun s t => exec_init_idempotent, fun wb => exec_init_of_weightBits rfl, fun w s t h hs ht => ?_⟩
  by_contra hinit
  have hkept : t.flt = s.flt := (acceptWord_latchesStatus hinit h).flt_eq hs
  exact hs (hkept.symm.trans ht)

/-- Settles O16: `NOP` is one response, and its other operands are reserved. -/
theorem nopChangesNothing : Obligations.NopChangesNothing :=
  ⟨by decide, fun s => respond_eq {} s, fun _ ha => acceptWord_of_reserved_operand (.inl ⟨.inl rfl, ha⟩)⟩

/-- Settles O18: each number by the register it names, the others by the operand check; `NYT` is 0 in a sound state. -/
theorem rdsrReadsTheRegister : Obligations.RdsrReadsTheRegister := by
  unfold Obligations.RdsrReadsTheRegister
  refine ⟨fun a => decode_rdsr, fun s => ?_, fun a s ha => ?_, fun s hs => ?_⟩
  · exact ⟨exec_rdsr_of_srOperand rfl, exec_rdsr_of_srOperand rfl, exec_rdsr_of_srOperand rfl,
      exec_rdsr_of_srOperand rfl⟩
  · exact ⟨exec_rdsr_of_gt ha, acceptWord_of_reserved_operand (.inr ⟨rfl, ha⟩) s⟩
  · obtain ⟨hnyt, -⟩ := hs.registers
    exact exec_rdsr_of_srOperand (congrArg some hnyt)

end Sys2Proof.Proofs
end

