-- ==== Sys2Proof/Proofs/SymbolLeafMapper.lean ====
section
/-! PROOFS. The symbol_leaf_mapper (41_symbol_leaf_mapper.md): what `LOOKUP` answers, which node a seen symbol owns in a sound
state, and that the entry of a seen symbol lasts until the next `INIT`. -/

namespace Sys2Proof.Proofs

open Sys2Proof.Machine Sys2Proof.Laws

variable {s t : State} {a : Arg} {y : Sym} {f : Nat}

/-! ## The answer of `LOOKUP` -/

/-- A present optional value is answered with flag 1 (30_encoding.md R101). -/
@[simp] theorem optionalResponse_some (v : Nat) : optionalResponse (some v) = { flag := true, data := v } := rfl

/-- Opcode 2 is `LOOKUP` with every operand (30_encoding.md R96). -/
theorem decode_lookup (a : Arg) : decode ((0x2 : Opcode) ++ a) = .ok (.lookup a) :=
  decode_append 0x2 a

/-- `LOOKUP` of a seen symbol answers its leaf (41_symbol_leaf_mapper.md R140). -/
theorem exec_lookup_of_seen (ha : a.toNat ≤ 255) (hf : s.lookup (a.extractLsb' 0 8) = some f) :
    exec (.lookup a) s = .next { s with rsp := some { flag := true, data := f } } := by
  rw [exec_lookup_of_le ha, hf, optionalResponse_some]

/-- `LOOKUP` of an unseen symbol answers zeros (41_symbol_leaf_mapper.md R140). -/
theorem exec_lookup_of_unseen (ha : a.toNat ≤ 255) (hf : s.lookup (a.extractLsb' 0 8) = none) :
    exec (.lookup a) s = .next { s with rsp := some {} } := by
  rw [exec_lookup_of_le ha, hf, optionalResponse_none]

/-- `LOOKUP` of a value that is no byte faults (41_symbol_leaf_mapper.md R140). -/
theorem exec_lookup_of_gt (ha : 255 < a.toNat) : exec (.lookup a) s = .next (takeFault .alphabet s) :=
  withSym_of_gt ha

/-! ## The leaf of a seen symbol -/

/-- In a sound state the entry of a seen symbol is an allocated leaf with that symbol (10_state.md R38). -/
theorem leaf_of_lookup (hs : Inv s) (hf : s.lookup y = some f) :
    f < s.ncount ∧ s.kids f = none ∧ s.sym f = some y :=
  hs.agrees.2 (y, f) (mem_of_indexLookup hf)

/-- In a sound state no symbol owns node 0, which is the NYT leaf (10_state.md R29). -/
theorem ne_zero_of_lookup (hs : Inv s) (hf : s.lookup y = some f) : f ≠ 0 := by
  obtain ⟨hlt, -, hsym⟩ := leaf_of_lookup hs hf
  obtain ⟨-, hsymbolLeaf, -⟩ := hs.kinds f hlt
  have hisSome : (s.sym f).isSome = true := by rw [hsym, Option.isSome_some]
  exact (hsymbolLeaf.1 hisSome).2

/-! ## The entry of a seen symbol stays -/

/-- The answer of a lookup depends on the symbol index alone (42_tree_update_engine.md R164). -/
theorem lookup_congr (h : t.sidx = s.sidx) (y : Sym) : t.lookup y = s.lookup y :=
  congrArg (indexLookup y) h

/-- A split binds its symbol to the new leaf and writes no other entry (42_tree_update_engine.md R154). -/
theorem sidx_split {cur : Option Nat} (h : s.split y = .ok (t, cur)) :
    t.sidx = indexBind y (s.ncount + 1) s.sidx := by
  obtain ⟨-, u, hu, rfl⟩ := split_cases h
  rcases giveNytPlace_cases hu with ⟨-, rfl⟩ | ⟨q, d, -, -, rfl⟩ <;> rfl

/-- The increment phase does not write the symbol index (42_tree_update_engine.md R156). -/
theorem sidx_incrementPhase {fuel : Nat} {cur : Option Nat} (h : State.incrementPhase fuel cur s = .ok t) :
    t.sidx = s.sidx := by
  obtain ⟨-, -, -, -, -, hsidx, -⟩ := sameBut_incrementPhase h
  exact hsidx

/-- A split for an unseen symbol `z` leaves a seen symbol, which is not `z`, its entry (41_symbol_leaf_mapper.md R141). -/
theorem lookup_split {z : Sym} {cur : Option Nat} (hz : s.lookup z = none) (hf : s.lookup y = some f)
    (h : s.split z = .ok (t, cur)) : t.lookup y = some f := by
  have hne : z ≠ y := by
    rintro rfl
    cases hz.symm.trans hf
  calc t.lookup y = (s.bind z (s.ncount + 1)).lookup y := lookup_congr (sidx_split h) y
    _ = s.lookup y := by rw [lookup_bind, if_neg hne]
    _ = some f := hf

/-- The part of `INSERT` after its checks keeps the entry of a seen symbol: it binds only an unseen one. -/
theorem lookup_insertSymbol {z : Sym} (hf : s.lookup y = some f) (h : s.insertSymbol z = .ok t) :
    t.lookup y = some f := by
  rcases insertSymbol_cases h with ⟨_, -, hphase⟩ | ⟨u, cur, hz, hsplit, hphase⟩
  · exact (lookup_congr (sidx_incrementPhase hphase) y).trans hf
  · exact (lookup_congr (sidx_incrementPhase hphase) y).trans (lookup_split hz hf hsplit)

theorem lookup_execInsert (hf : s.lookup y = some f) (h : execInsert a s = .next t) : t.lookup y = some f := by
  rcases execInsert_cases h with ⟨-, rfl⟩ | ⟨-, -, rfl⟩ | ⟨-, -, u, hu, rfl⟩
  · exact hf
  · exact hf
  · have hkept : u.lookup y = some f := lookup_insertSymbol hf hu
    exact hkept

/-- A response and a fault entry write no entry of the symbol index. -/
theorem RespondsOrFaults.sidx_eq (h : RespondsOrFaults s t) : t.sidx = s.sidx := by
  rcases h with ⟨r, -, rfl⟩ | ⟨c, -, rfl⟩ <;> rfl

/-- Every command but `INIT` keeps the entry of a seen symbol (41_symbol_leaf_mapper.md R140). -/
theorem lookup_exec {i : Instr} (hinit : i ≠ .init) (hf : s.lookup y = some f) (h : exec i s = .next t) :
    t.lookup y = some f := by
  by_cases hinsert : ∃ a, i = .insert a
  · obtain ⟨a, rfl⟩ := hinsert
    exact lookup_execInsert hf h
  · exact (lookup_congr (exec_respondsOrFaults hinit (not_exists.1 hinsert) h).sidx_eq y).trans hf

/-- Every word but that of `INIT` keeps the entry of a seen symbol (41_symbol_leaf_mapper.md R140). -/
theorem lookup_acceptWord {w : CmdWord} (hinit : decode w ≠ .ok .init) (hf : s.lookup y = some f)
    (h : acceptWord w s = .next t) : t.lookup y = some f := by
  rcases acceptWord_cases h with ⟨i, hi, h⟩ | ⟨e, -, h⟩
  · exact lookup_exec (fun hn => hinit (hn ▸ hi)) hf h
  · cases h
    exact hf

/-- Settles O19: the answers by the equations of `LOOKUP`, the leaf because the symbol index agrees with the tree, and the
last clause because `INSERT` binds only an unseen symbol and no other command but `INIT` writes the index. -/
theorem lookupAnswersTheLeaf : Obligations.LookupAnswersTheLeaf := by
  unfold Obligations.LookupAnswersTheLeaf
  refine ⟨decode_lookup, fun a s f => exec_lookup_of_seen, fun a s => exec_lookup_of_unseen, fun a s => exec_lookup_of_gt,
    fun a wb => exec_lookup_resetOf, fun s y f hs hf => ?_, fun w s t y f _ h hinit hf => lookup_acceptWord hinit hf h⟩
  obtain ⟨hlt, hkids, hsym⟩ := leaf_of_lookup hs hf
  exact ⟨hlt, ne_zero_of_lookup hs hf, hkids, hsym⟩

end Sys2Proof.Proofs
end

