-- ==== Sys2Proof/Proofs/Leader.lean ====
section
/-! PROOFS. The leader of a weight (42_tree_update_engine.md R157): the node of that weight with the highest rank, and in a
sound state when there is one. -/

namespace Sys2Proof.Proofs

open Sys2Proof.Machine Sys2Proof.Laws

variable {s : State} {w l n : Nat}

/-- The search from the highest rank down passes exactly the ranks above the one it stops at. -/
theorem leader_eq_some_iff :
    s.leader w = some l ↔
      ∃ k, s.ord[k]? = some l ∧ s.weight l = w ∧ ∀ j m : Nat, k < j → s.ord[j]? = some m → s.weight m ≠ w := by
  simp only [State.leader, List.find?_eq_some_iff_getElem, List.getElem_reverse, List.length_reverse,
    beq_iff_eq, Bool.not_eq_true', beq_eq_false_iff_ne]
  constructor
  · rintro ⟨hw, i, hi, hl, habove⟩
    refine ⟨s.ord.length - 1 - i, List.getElem?_eq_some_iff.2 ⟨by omega, hl⟩, hw, fun j m hj hm => ?_⟩
    obtain ⟨hlt, rfl⟩ := List.getElem?_eq_some_iff.1 hm
    simpa [Nat.sub_sub_self (Nat.le_sub_one_of_lt hlt)] using habove (s.ord.length - 1 - j) (by omega)
  · rintro ⟨k, hk, hw, habove⟩
    obtain ⟨hlt, hl⟩ := List.getElem?_eq_some_iff.1 hk
    refine ⟨hw, s.ord.length - 1 - k, by omega, ?_, fun j hj => ?_⟩
    · simpa [Nat.sub_sub_self (Nat.le_sub_one_of_lt hlt)] using hl
    · exact habove (s.ord.length - 1 - j) _ (by omega) (List.getElem?_eq_getElem (by omega))

/-- In a sound state the NYT leaf is the only node of its weight (20_memory.md R66). -/
theorem eq_nyt_of_weight_eq (hs : Inv s) (hn : n < s.ncount) (h : s.weight n = s.weight s.nyt) : n = s.nyt := by
  obtain ⟨-, -, hzero⟩ := hs.kinds n hn
  obtain ⟨hnyt, -⟩ := hs.registers
  obtain ⟨-, -, hweight⟩ := hs.nyt
  exact (hzero.1 (h.trans hweight)).trans hnyt.symm

/-- Settles O42: the leader by the search from the highest rank down; in a sound state the node itself is ranked, so the search
ends, and at the NYT leaf only for the NYT leaf's own weight. -/
theorem leaderIsTheHighestOfItsWeight : Obligations.LeaderIsTheHighestOfItsWeight := by
  unfold Obligations.LeaderIsTheHighestOfItsWeight
  refine ⟨fun s w l => leader_eq_some_iff, fun s n hs hn => ?_⟩
  have hmem : n ∈ s.ord := (Inv.mem_ord hs).2 hn
  obtain ⟨l, hl⟩ := Option.isSome_iff_exists.1 (leader_isSome hmem rfl)
  refine ⟨l, hl, fun hne hnyt => hne (eq_nyt_of_weight_eq hs hn ?_)⟩
  obtain ⟨-, hweight⟩ := leader_mem hl
  exact hnyt ▸ hweight.symm

end Sys2Proof.Proofs
end

