-- ==== Sys2Proof/Proofs/Swap.lean ====
section
/-! PROOFS. What `swap` writes (42_tree_update_engine.md R159): the ranks, the links and the child slots of a state after the
exchange of two nodes, and in a sound state that the exchange takes place. -/

namespace Sys2Proof.Proofs

open Sys2Proof.Machine Sys2Proof.Laws

/-! ## The exchange, field by field -/

section Exchange

variable {s : State} {a ka pa b kb pb : Nat} {sa sb : Side}

/-- A node keeps its own weight (42_tree_update_engine.md R159). -/
@[simp] theorem weight_exchange (n : Nat) : (s.exchange a ka pa sa b kb pb sb).weight n = s.weight n := by
  simp only [State.exchange, weight_setParent, weight_setChild]
  rfl

/-- A node keeps its own symbol (42_tree_update_engine.md R159). -/
@[simp] theorem sym_exchange (n : Nat) : (s.exchange a ka pa sa b kb pb sb).sym n = s.sym n := by
  simp only [State.exchange, sym_setParent, sym_setChild]
  rfl

/-- The two nodes take each other's parent. -/
theorem parent_exchange (n : Nat) :
    (s.exchange a ka pa sa b kb pb sb).parent n =
      if b = n ∧ n < s.nodes.length then some pa
      else if a = n ∧ n < s.nodes.length then some pb else s.parent n := by
  simp only [State.exchange, parent_setParent, parent_setChild, length_setParent, length_setChild]
  rfl

/-- The two slots take each other's node, first `b` in the slot of `a`, then `a` in that of `b`. -/
theorem kids_exchange (n : Nat) :
    (s.exchange a ka pa sa b kb pb sb).kids n =
      (if pb = n ∧ n < s.nodes.length then Option.map (State.putSlot sb a) else id)
        ((if pa = n ∧ n < s.nodes.length then Option.map (State.putSlot sa b) else id) (s.kids n)) := by
  simp only [State.exchange, kids_setParent, kids_setChild, length_setChild]
  split <;> split <;> rfl

theorem nodeAt_exchange_first (hka : ka < s.ord.length) (hk : ka ≠ kb) :
    (s.exchange a ka pa sa b kb pb sb).nodeAt ka = b :=
  nodeAt_eq (by rw [ord_exchange, List.getElem?_set_ne hk.symm, List.getElem?_set_self hka])

theorem nodeAt_exchange_second (hkb : kb < s.ord.length) :
    (s.exchange a ka pa sa b kb pb sb).nodeAt kb = a :=
  nodeAt_eq (by rw [ord_exchange, List.getElem?_set_self (by rwa [List.length_set])])

theorem nodeAt_exchange_other {k : Nat} (hka : k ≠ ka) (hkb : k ≠ kb) :
    (s.exchange a ka pa sa b kb pb sb).nodeAt k = s.nodeAt k := by
  rw [State.nodeAt, ord_exchange, List.getElem?_set_ne hkb.symm, List.getElem?_set_ne hka.symm, State.nodeAt]

/-- For siblings the two writes exchange `LEFT` and `RIGHT`. -/
theorem putSlot_putSlot_siblings {p : Nat} (hab : a ≠ b) (ha : s.childSide p a = some sa) (hb : s.childSide p b = some sb) :
    ((s.kids p).map (State.putSlot sa b)).map (State.putSlot sb a) = (s.kids p).map Prod.swap := by
  obtain ⟨l, r, hkids, hl⟩ := childSide_eq_some.1 ha
  obtain ⟨l', r', hkids', hr⟩ := childSide_eq_some.1 hb
  cases hkids.symm.trans hkids'
  rw [hkids]
  rcases hl with ⟨rfl, rfl, -⟩ | ⟨rfl, rfl, -⟩ <;> rcases hr with ⟨rfl, rfl, -⟩ | ⟨rfl, rfl, -⟩
  · exact absurd rfl hab
  · rfl
  · rfl
  · exact absurd rfl hab

end Exchange

/-! ## Ranks and slots in a sound state -/

section Sound

variable {s : State} {n p k : Nat}

/-- In a sound state an allocated node has a rank in use (10_state.md R32, R33). -/
theorem exists_rank (hs : Inv s) (hn : n < s.ncount) : ∃ k, s.rank n = some k :=
  ⟨_, rank_of_mem (Inv.nodup_ord hs) ((Inv.mem_ord hs).2 hn)⟩

theorem rank_lt_length (h : s.rank n = some k) : k < s.ord.length :=
  (List.getElem?_eq_some_iff.1 (getElem?_of_rank h)).1

/-- Two nodes never share a rank (10_state.md R33). -/
theorem rank_injective {m j : Nat} (hn : s.rank n = some k) (hm : s.rank m = some j) (hne : n ≠ m) : k ≠ j := by
  rintro rfl
  exact hne (Option.some.inj ((getElem?_of_rank hn).symm.trans (getElem?_of_rank hm)))

/-- In a sound state a parent holds its child in a slot (10_state.md R31). -/
theorem exists_childSide (hs : Inv s) (hn : n < s.ncount) (hp : s.parent n = some p) :
    ∃ d, s.childSide p n = some d := by
  obtain ⟨-, -, -, hslot⟩ := hs.links
  exact Option.isSome_iff_exists.1 (hslot n hn p hp).2

/-- In a sound state the entries held are the allocated ones (10_state.md R23). -/
theorem length_nodes (hs : Inv s) : s.nodes.length = s.ncount := hs.count.1

end Sound

/-- Settles O43: a sound state has the two ranks and the two slots, so `swap` is the exchange, read field by field.
That neither node is the other's parent matters for the tree that results, not for the fields written, so it is not used. -/
theorem swapExchangesRanksAndPlaces : Obligations.SwapExchangesRanksAndPlaces := by
  unfold Obligations.SwapExchangesRanksAndPlaces
  intro s a b pa pb hs ha hb hab hpa hpb _ _
  obtain ⟨ka, hka⟩ := exists_rank hs ha
  obtain ⟨kb, hkb⟩ := exists_rank hs hb
  obtain ⟨sa, hsa⟩ := exists_childSide hs ha hpa
  obtain ⟨sb, hsb⟩ := exists_childSide hs hb hpb
  have hlen : s.nodes.length = s.ncount := length_nodes hs
  have hpa_lt : pa < s.ncount := Inv.parent_lt hs ha hpa
  have hpb_lt : pb < s.ncount := Inv.parent_lt hs hb hpb
  refine ⟨_, ka, kb, sa, sb, swap_ok hka hkb hpa hpb hsa hsb, hka, hkb, hsa, hsb,
    nodeAt_exchange_first (rank_lt_length hka) (rank_injective hka hkb hab), nodeAt_exchange_second (rank_lt_length hkb),
    fun k => nodeAt_exchange_other, ?_, ?_, fun hne => ⟨?_, ?_⟩, ?_, fun n => ⟨weight_exchange n, sym_exchange n⟩,
    fun n hna hnb => ?_, fun n hna hnb => ?_, rfl, rfl, rfl, rfl, rfl, rfl, rfl, rfl⟩
  · simp [parent_exchange, hlen, ha, hab.symm]
  · simp [parent_exchange, hlen, hb]
  · simp [kids_exchange, hlen, hpa_lt, hne.symm]
  · simp [kids_exchange, hlen, hpb_lt, hne]
  · rintro rfl
    rw [← putSlot_putSlot_siblings hab hsa hsb]
    simp [kids_exchange, hlen, hpa_lt]
  · simp [parent_exchange, hna.symm, hnb.symm]
  · simp [kids_exchange, hna.symm, hnb.symm]

end Sys2Proof.Proofs
end

