-- ==== Sys2Proof/Proofs/Split.lean ====
section
/-! PROOFS. What `split` writes (42_tree_update_engine.md R154, R155): each entry of the node store, the order sequence and the
symbol index after it, and in a sound state that it completes. -/

namespace Sys2Proof.Proofs

open Sys2Proof.Machine Sys2Proof.Laws

/-! ## Whole entries after an update -/

section Entries

variable {s : State}

theorem node_setParent (n p m : Nat) :
    (s.setParent n p).node m = if n = m ∧ m < s.nodes.length then { s.node m with par := some p } else s.node m :=
  node_modNode ..

theorem node_setChild (p : Nat) (d : Side) (c m : Nat) :
    (s.setChild p d c).node m =
      if p = m ∧ m < s.nodes.length then { s.node m with kids := (s.node m).kids.map (State.putSlot d c) }
      else s.node m :=
  node_modNode ..

/-- A slot written by its side is the slot that held the node. -/
theorem putSlot_of_childSide {p n l r : Nat} {d : Side} (h : s.childSide p n = some d) (hk : s.kids p = some (l, r))
    (c : Nat) : State.putSlot d c (l, r) = if l = n then (c, r) else (l, c) := by
  obtain ⟨l', r', hk', hslot⟩ := childSide_eq_some.1 h
  cases hk.symm.trans hk'
  rcases hslot with ⟨rfl, hl, -⟩ | ⟨rfl, -, hl⟩
  · rw [if_pos hl]
    rfl
  · rw [if_neg hl]
    rfl

theorem childSide_congr {t : State} {p : Nat} (h : t.kids p = s.kids p) (n : Nat) : t.childSide p n = s.childSide p n := by
  rw [State.childSide, State.childSide, h]

end Entries

/-! ## The new pair of nodes -/

section NewPair

variable {s : State} {y : Sym}

/-- In a sound state the NYT leaf is allocated (10_state.md R37). -/
theorem nyt_lt (hs : Inv s) : s.nyt < s.ncount := hs.nyt.1

/-- A split before the new internal node takes the NYT leaf's place: the two new entries are there and the NYT leaf is the
internal node's child (42_tree_update_engine.md R154). -/
def withNewPair (s : State) (y : Sym) : State :=
  (s.allocPair s.ncount (s.ncount + 1) y).setParent s.nyt s.ncount

theorem length_withNewPair (s : State) (y : Sym) : (withNewPair s y).nodes.length = s.nodes.length + 2 := by
  rw [withNewPair, length_setParent, length_allocPair]

theorem node_withNewPair_of_ne {n : Nat} (hn : n ≠ s.nyt) :
    (withNewPair s y).node n = (s.allocPair s.ncount (s.ncount + 1) y).node n := by
  rw [withNewPair, node_setParent, if_neg fun h => hn h.1.symm]

theorem node_withNewPair_internal (hs : Inv s) :
    (withNewPair s y).node s.ncount = ⟨1, none, s.parent s.nyt, some (s.nyt, s.ncount + 1)⟩ := by
  rw [node_withNewPair_of_ne (nyt_lt hs).ne', ← length_nodes hs, node_allocPair_internal]

theorem node_withNewPair_leaf (hs : Inv s) :
    (withNewPair s y).node (s.ncount + 1) = ⟨1, some y, some s.ncount, none⟩ := by
  rw [node_withNewPair_of_ne (Nat.lt_succ_of_lt (nyt_lt hs)).ne', ← length_nodes hs, node_allocPair_leaf]

theorem node_withNewPair_nyt (hs : Inv s) :
    (withNewPair s y).node s.nyt = { s.node s.nyt with par := some s.ncount } := by
  have hnyt : s.nyt < s.nodes.length := length_nodes hs ▸ nyt_lt hs
  rw [withNewPair, node_setParent, length_allocPair, if_pos ⟨rfl, Nat.lt_add_right 2 hnyt⟩, node_allocPair_old _ _ _ hnyt]

theorem node_withNewPair_old (hs : Inv s) {n : Nat} (hlt : n < s.ncount) (hn : n ≠ s.nyt) :
    (withNewPair s y).node n = s.node n := by
  rw [node_withNewPair_of_ne hn, node_allocPair_old _ _ _ (length_nodes hs ▸ hlt)]

end NewPair

/-! ## The split -/

section Split

variable {s t : State} {y : Sym} {cur : Option Nat}

/-- The NYT leaf is no node's parent: it has no children (10_state.md R37). -/
theorem ne_nyt_of_childSide (hs : Inv s) {p n : Nat} {d : Side} (hd : s.childSide p n = some d) : p ≠ s.nyt := by
  rintro rfl
  obtain ⟨hlt, hleaf, -⟩ := hs.nyt
  obtain ⟨l, r, hkids, -⟩ := childSide_eq_some.1 hd
  cases hkids.symm.trans ((hleaf s.nyt hlt).2 rfl).1

/-- The new pair leaves the slots of the NYT leaf's parent as they were. -/
theorem childSide_withNewPair (hs : Inv s) {p : Nat} {d : Side} (hp : s.parent s.nyt = some p)
    (hd : s.childSide p s.nyt = some d) : (withNewPair s y).childSide p s.nyt = some d := by
  have hnode : (withNewPair s y).node p = s.node p :=
    node_withNewPair_old hs (Inv.parent_lt hs (nyt_lt hs) hp) (ne_nyt_of_childSide hs hd)
  exact (childSide_congr (congrArg Node.kids hnode) _).trans hd

/-- `split` completes when the new internal node finds its place (42_tree_update_engine.md R154). -/
theorem split_ok {u : State} (hu : (withNewPair s y).giveNytPlace (s.parent s.nyt) s.ncount = .ok u) :
    s.split y = .ok ({ (u.orderInsert (s.ncount + 1) s.ncount).bind y (s.ncount + 1) with ncount := u.ncount + 2 },
      s.parent s.nyt) := by
  rw [withNewPair] at hu
  simp only [State.split, hu]

/-- In a sound state a split completes and answers the NYT leaf's former parent (42_tree_update_engine.md R154). -/
theorem exists_split (hs : Inv s) (y : Sym) : ∃ t, s.split y = .ok (t, s.parent s.nyt) := by
  have hplace : ∃ u, (withNewPair s y).giveNytPlace (s.parent s.nyt) s.ncount = .ok u := by
    rcases hp : s.parent s.nyt with _ | p
    · exact ⟨_, rfl⟩
    · obtain ⟨d, hd⟩ := exists_childSide hs (nyt_lt hs) hp
      have hslot : (withNewPair s y).childSide p (withNewPair s y).nyt = some d := childSide_withNewPair hs hp hd
      exact ⟨_, by rw [State.giveNytPlace, hslot]⟩
  obtain ⟨u, hu⟩ := hplace
  exact ⟨_, split_ok hu⟩

/-- What a split's place for the new internal node does to the tree: `ROOT`, or one slot of the former parent, and no other
entry (42_tree_update_engine.md R154). -/
theorem split_place_cases (hs : Inv s) (h : s.split y = .ok (t, cur)) :
    (s.parent s.nyt = none ∧ t.root = s.ncount ∧ ∀ n, t.node n = (withNewPair s y).node n) ∨
    ∃ p d, s.parent s.nyt = some p ∧ s.childSide p s.nyt = some d ∧ t.root = s.root ∧
      ∀ n, t.node n = ((withNewPair s y).setChild p d s.ncount).node n := by
  obtain ⟨-, u, hu, rfl⟩ := split_cases h
  rcases giveNytPlace_cases hu with ⟨hp, rfl⟩ | ⟨p, d, hp, hd, rfl⟩
  · exact .inl ⟨hp, rfl, fun _ => rfl⟩
  · obtain ⟨e, he⟩ := exists_childSide hs (nyt_lt hs) hp
    cases hd.symm.trans (childSide_withNewPair hs hp he)
    exact .inr ⟨p, d, hp, he, rfl, fun _ => rfl⟩

/-- Every entry but the former parent's is the one of the new pair. -/
theorem node_split_of_ne_parent (hs : Inv s) (h : s.split y = .ok (t, cur)) {n : Nat} (hn : s.parent s.nyt ≠ some n) :
    t.node n = (withNewPair s y).node n := by
  rcases split_place_cases hs h with ⟨-, -, hnode⟩ | ⟨p, d, hp, -, -, hnode⟩
  · exact hnode n
  · rw [hnode, node_setChild, if_neg]
    rintro ⟨rfl, -⟩
    exact hn hp

/-- The former parent of the NYT leaf has the new internal node in the slot that held the NYT leaf, and `ROOT` stays. -/
theorem node_split_parent (hs : Inv s) (h : s.split y = .ok (t, cur)) {p l r : Nat} (hp : s.parent s.nyt = some p)
    (hk : s.kids p = some (l, r)) :
    t.root = s.root ∧
      t.node p = { s.node p with kids := some (if l = s.nyt then (s.ncount, r) else (l, s.ncount)) } := by
  rcases split_place_cases hs h with ⟨hp', -, -⟩ | ⟨q, d, hq, hd, hroot, hnode⟩
  · cases hp.symm.trans hp'
  · cases hp.symm.trans hq
    have hlt : p < s.ncount := Inv.parent_lt hs (nyt_lt hs) hp
    have hlen : p < (withNewPair s y).nodes.length := by
      rw [length_withNewPair, length_nodes hs]
      exact Nat.lt_add_right 2 hlt
    have hkids : (s.node p).kids = some (l, r) := hk
    refine ⟨hroot, ?_⟩
    rw [hnode, node_setChild, if_pos ⟨rfl, hlen⟩, node_withNewPair_old hs hlt (ne_nyt_of_childSide hs hd), hkids,
      Option.map_some, putSlot_of_childSide hd hk]

/-- No allocated node's parent is an index not yet allocated (10_state.md R31). -/
theorem parent_ne_of_ge (hs : Inv s) {m n : Nat} (hm : m < s.ncount) (hn : s.ncount ≤ n) : s.parent m ≠ some n :=
  fun h => absurd (Inv.parent_lt hs hm h) (Nat.not_lt.2 hn)

theorem node_split_internal (hs : Inv s) (h : s.split y = .ok (t, cur)) :
    t.node s.ncount = ⟨1, none, s.parent s.nyt, some (s.nyt, s.ncount + 1)⟩ :=
  (node_split_of_ne_parent hs h (parent_ne_of_ge hs (nyt_lt hs) le_rfl)).trans (node_withNewPair_internal hs)

theorem node_split_leaf (hs : Inv s) (h : s.split y = .ok (t, cur)) :
    t.node (s.ncount + 1) = ⟨1, some y, some s.ncount, none⟩ :=
  (node_split_of_ne_parent hs h (parent_ne_of_ge hs (nyt_lt hs) (Nat.le_succ _))).trans (node_withNewPair_leaf hs)

theorem node_split_nyt (hs : Inv s) (h : s.split y = .ok (t, cur)) :
    t.node s.nyt = { s.node s.nyt with par := some s.ncount } := by
  have hself : s.parent s.nyt ≠ some s.nyt := by
    intro hp
    obtain ⟨d, hd⟩ := exists_childSide hs (nyt_lt hs) hp
    exact ne_nyt_of_childSide hs hd rfl
  exact (node_split_of_ne_parent hs h hself).trans (node_withNewPair_nyt hs)

/-- Entries besides the NYT leaf's and its former parent's stay (42_tree_update_engine.md R154). -/
theorem node_split_old (hs : Inv s) (h : s.split y = .ok (t, cur)) {n : Nat} (hlt : n < s.ncount) (hn : n ≠ s.nyt)
    (hp : s.parent s.nyt ≠ some n) : t.node n = s.node n :=
  (node_split_of_ne_parent hs h hp).trans (node_withNewPair_old hs hlt hn)

/-- Without a former parent the new internal node is the root (42_tree_update_engine.md R154). -/
theorem root_split_of_parent_none (hs : Inv s) (h : s.split y = .ok (t, cur)) (hp : s.parent s.nyt = none) :
    t.root = s.ncount := by
  rcases split_place_cases hs h with ⟨-, hroot, -⟩ | ⟨p, d, hp', -⟩
  · exact hroot
  · cases hp.symm.trans hp'

/-- The fields besides the tree: the count grows by two, the order is that of `order_insert`, the rest stays. -/
theorem fields_split (h : s.split y = .ok (t, cur)) :
    t.ncount = s.ncount + 2 ∧ t.nyt = s.nyt ∧ t.flt = s.flt ∧ t.weightBits = s.weightBits ∧ t.rsp = s.rsp ∧
      t.inputs = s.inputs ∧ t.ord = (s.orderInsert (s.ncount + 1) s.ncount).ord := by
  obtain ⟨-, u, hu, rfl⟩ := split_cases h
  rcases giveNytPlace_cases hu with ⟨-, rfl⟩ | ⟨p, d, -, -, rfl⟩ <;> exact ⟨rfl, rfl, rfl, rfl, rfl, rfl, rfl⟩

/-- After a split the symbol is bound to the new leaf and no other entry of the index changes. -/
theorem lookup_split_eq (h : s.split y = .ok (t, cur)) (z : Sym) :
    t.lookup z = if y = z then some (s.ncount + 1) else s.lookup z :=
  (lookup_congr (t := t) (s := s.bind y (s.ncount + 1)) (sidx_split h) z).trans (lookup_bind ..)

end Split

/-! ## The order sequence -/

section OrderInsert

variable {s t : State} {f i : Nat}

theorem nodeAt_congr (h : t.ord = s.ord) (k : Nat) : t.nodeAt k = s.nodeAt k := by
  rw [State.nodeAt, State.nodeAt, h]

/-- `order_insert` puts its two nodes directly above the first rank (42_tree_update_engine.md R155). -/
theorem nodeAt_orderInsert (h : s.ord ≠ []) :
    (s.orderInsert f i).nodeAt 0 = s.nodeAt 0 ∧ (s.orderInsert f i).nodeAt 1 = f ∧ (s.orderInsert f i).nodeAt 2 = i ∧
      ∀ k, 1 ≤ k → (s.orderInsert f i).nodeAt (k + 2) = s.nodeAt k := by
  obtain ⟨n, rest, hord⟩ := List.exists_cons_of_ne_nil h
  simp only [State.nodeAt, ord_orderInsert, hord]
  refine ⟨rfl, rfl, rfl, fun k hk => ?_⟩
  obtain ⟨j, rfl⟩ := Nat.exists_eq_add_of_le' hk
  rfl

end OrderInsert

/-- Settles O41: the split completes because a sound parent holds the NYT leaf in a slot; each field is then read from the
state it answers. -/
theorem splitPutsAnInternalNodeInNytsPlace : Obligations.SplitPutsAnInternalNodeInNytsPlace := by
  unfold Obligations.SplitPutsAnInternalNodeInNytsPlace
  intro s y hs _
  obtain ⟨t, ht⟩ := exists_split hs y
  obtain ⟨hncount, hnyt, hflt, hwidth, hrsp, hinputs, hord⟩ := fields_split ht
  have hne : s.ord ≠ [] := List.ne_nil_of_mem ((Inv.mem_ord hs).2 (nyt_lt hs))
  obtain ⟨hat0, hat1, hat2, habove⟩ := nodeAt_orderInsert (f := s.ncount + 1) (i := s.ncount) hne
  exact ⟨t, ht, hncount, hnyt, hflt, hwidth, hrsp, hinputs, node_split_internal hs ht, node_split_leaf hs ht,
    node_split_nyt hs ht, root_split_of_parent_none hs ht, fun p l r => node_split_parent hs ht,
    fun n => node_split_old hs ht, fun k hk _ => (nodeAt_congr hord _).trans (habove k hk),
    (nodeAt_congr hord 0).trans hat0, (nodeAt_congr hord 1).trans hat1, (nodeAt_congr hord 2).trans hat2,
    (lookup_split_eq ht y).trans (if_pos rfl), fun z hz => (lookup_split_eq ht z).trans (if_neg hz.symm)⟩

end Sys2Proof.Proofs
end

