-- ==== Sys2Proof/Proofs/NodeReadout.lean ====
section
/-! PROOFS. The reads of a node's optional fields (43_tree_readout.md R194 to R197): the answer with the field present and
absent, and in a sound state which nodes have a symbol, a parent or children. -/

namespace Sys2Proof.Proofs

open Sys2Proof.Machine Sys2Proof.Laws

variable {s : State} {a : Arg} {n p l r : Nat}

/-! ## The answers -/

/-- `RDSYM` of a symbol leaf (43_tree_readout.md R194). -/
theorem exec_rdsym_of_some {y : Sym} (ha : a.toNat < s.ncount) (h : s.sym a.toNat = some y) :
    exec (.rdsym a) s = .next { s with rsp := some { flag := true, data := y.toNat } } := by
  rw [exec_rdsym_of_lt ha, h, Option.map_some, optionalResponse_some]

theorem exec_rdsym_of_none (ha : a.toNat < s.ncount) (h : s.sym a.toNat = none) :
    exec (.rdsym a) s = .next { s with rsp := some {} } := by
  rw [exec_rdsym_of_lt ha, h, Option.map_none, optionalResponse_none]

/-- `RDPAR` of a node with a parent (43_tree_readout.md R195). -/
theorem exec_rdpar_of_some (ha : a.toNat < s.ncount) (h : s.parent a.toNat = some p) :
    exec (.rdpar a) s = .next { s with rsp := some { flag := true, data := p } } := by
  rw [exec_rdpar_of_lt ha, h, optionalResponse_some]

theorem exec_rdpar_of_none (ha : a.toNat < s.ncount) (h : s.parent a.toNat = none) :
    exec (.rdpar a) s = .next { s with rsp := some {} } := by
  rw [exec_rdpar_of_lt ha, h, optionalResponse_none]

/-- `RDLEFT` of an internal node (43_tree_readout.md R196). -/
theorem exec_rdleft_of_some (ha : a.toNat < s.ncount) (h : s.kids a.toNat = some (l, r)) :
    exec (.rdleft a) s = .next { s with rsp := some { flag := true, data := l } } := by
  rw [exec_rdleft_of_lt ha, h, Option.map_some, optionalResponse_some]

theorem exec_rdleft_of_none (ha : a.toNat < s.ncount) (h : s.kids a.toNat = none) :
    exec (.rdleft a) s = .next { s with rsp := some {} } := by
  rw [exec_rdleft_of_lt ha, h, Option.map_none, optionalResponse_none]

/-- `RDRIGHT` of an internal node (43_tree_readout.md R197). -/
theorem exec_rdright_of_some (ha : a.toNat < s.ncount) (h : s.kids a.toNat = some (l, r)) :
    exec (.rdright a) s = .next { s with rsp := some { flag := true, data := r } } := by
  rw [exec_rdright_of_lt ha, h, Option.map_some, optionalResponse_some]

theorem exec_rdright_of_none (ha : a.toNat < s.ncount) (h : s.kids a.toNat = none) :
    exec (.rdright a) s = .next { s with rsp := some {} } := by
  rw [exec_rdright_of_lt ha, h, Option.map_none, optionalResponse_none]

/-! ## The nodes of a sound state -/

/-- In a sound state the operand 0 names the NYT leaf (10_state.md R22). -/
theorem toNat_zero_eq_nyt (hs : Inv s) : (0 : Arg).toNat = s.nyt := by
  obtain ⟨hnyt, -⟩ := hs.registers
  exact hnyt.symm

/-- In a sound state the NYT leaf and the internal nodes, and no others, have no symbol (10_state.md R29). -/
theorem sym_eq_none_iff (hs : Inv s) (hn : n < s.ncount) : s.sym n = none ↔ n = s.nyt ∨ s.kids n ≠ none := by
  obtain ⟨hinternal, hsymbol, -⟩ := hs.kinds n hn
  obtain ⟨hnyt, -⟩ := hs.registers
  rw [← Option.not_isSome_iff_eq_none, hsymbol, hnyt, ← Option.isSome_iff_ne_none, hinternal]
  omega

/-- In a sound state only the root has no parent (10_state.md R31). -/
theorem parent_eq_none_iff (hs : Inv s) (hn : n < s.ncount) : s.parent n = none ↔ n = s.root := by
  obtain ⟨-, hroot, -⟩ := hs.links
  exact hroot n hn

/-- In a sound state the two children of a node are different and have it as their parent (10_state.md R31). -/
theorem children_of_kids (hs : Inv s) (hn : n < s.ncount) (hk : s.kids n = some (l, r)) :
    l < s.ncount ∧ r < s.ncount ∧ l ≠ r ∧ s.parent l = some n ∧ s.parent r = some n := by
  obtain ⟨-, -, hchildren, -⟩ := hs.links
  exact hchildren n hn (l, r) hk

/-- In a sound state the NYT leaf is its parent's left child (10_state.md R40). -/
theorem kids_parent_nyt (hs : Inv s) (hp : s.parent s.nyt = some p) : s.kids p = some (s.nyt, s.nodeAt 1) := by
  obtain ⟨-, -, -, hleft⟩ := hs.ranks
  exact (hleft p hp).2

/-- In a sound state the left child of the NYT leaf's parent is the NYT leaf (10_state.md R40). -/
theorem left_eq_nyt (hs : Inv s) (hp : s.parent s.nyt = some n) (hk : s.kids n = some (l, r)) : l = s.nyt := by
  have hkids : some (l, r) = some (s.nyt, s.nodeAt 1) := hk.symm.trans (kids_parent_nyt hs hp)
  exact congrArg Prod.fst (Option.some.inj hkids)

/-- In a sound state the NYT leaf is no right child (10_state.md R40). -/
theorem right_ne_nyt (hs : Inv s) (hn : n < s.ncount) (hk : s.kids n = some (l, r)) : r ≠ s.nyt := by
  intro hr
  obtain ⟨-, -, hne, -, hp⟩ := children_of_kids hs hn hk
  exact hne ((left_eq_nyt hs (hr ▸ hp) hk).trans hr.symm)

/-! ## The statements -/

/-- Settles O23: the two answers by the equation of `RDSYM`, and the nodes without a symbol by the kinds of nodes. -/
theorem rdsymReadsTheSymbol : Obligations.RdsymReadsTheSymbol := by
  unfold Obligations.RdsymReadsTheSymbol
  exact ⟨decode_append 0x8, fun a s y => exec_rdsym_of_some, fun a s => exec_rdsym_of_none,
    fun a s => withIndex_of_ge, fun n s => sym_eq_none_iff⟩

/-- Settles O24: the two answers by the equation of `RDPAR`; that only the root has no parent is the law of the links. -/
theorem rdparReadsTheParent : Obligations.RdparReadsTheParent := by
  unfold Obligations.RdparReadsTheParent
  exact ⟨decode_append 0x9, fun a s p => exec_rdpar_of_some, fun a s => exec_rdpar_of_none,
    fun a s => withIndex_of_ge, fun n s => parent_eq_none_iff⟩

/-- Settles O25: the two answers by the equation of `RDLEFT`. -/
theorem rdleftReadsTheLeftChild : Obligations.RdleftReadsTheLeftChild :=
  ⟨decode_append 0xA, fun _ _ _ _ => exec_rdleft_of_some, fun _ _ => exec_rdleft_of_none, fun _ _ => withIndex_of_ge⟩

/-- Settles O26: the two answers by the equation of `RDRIGHT`; node 0 is the NYT leaf, which is a left child. -/
theorem rdrightReadsTheRightChild : Obligations.RdrightReadsTheRightChild := by
  unfold Obligations.RdrightReadsTheRightChild
  refine ⟨decode_append 0xB, fun a s l r => exec_rdright_of_some, fun a s => exec_rdright_of_none,
    fun a s => withIndex_of_ge, fun n l r s hs hn hk => ?_⟩
  obtain ⟨hnyt, -⟩ := hs.registers
  exact hnyt ▸ right_ne_nyt hs hn hk

end Sys2Proof.Proofs
end

