-- ==== Sys2Proof/Proofs/OrderReadout.lean ====
section
/-! PROOFS. The reads of the order sequence `RDRANK` and `RDORD` (43_tree_readout.md R198, R199): in a sound state a node's
rank is the one place where it stands, so the two reads are inverse. -/

namespace Sys2Proof.Proofs

open Sys2Proof.Machine Sys2Proof.Laws

variable {s : State} {a : Arg} {n k : Nat}

/-! ## Ranks in a sound state -/

/-- In a sound state a rank in use holds the node it reads as. -/
theorem getElem?_ord (hs : Inv s) (hk : k < s.ncount) : s.ord[k]? = some (s.nodeAt k) := by
  have hlt : k < s.ord.length := Inv.length_ord hs ▸ hk
  rw [List.getElem?_eq_getElem hlt, nodeAt_eq (List.getElem?_eq_getElem hlt)]

/-- In a sound state a node has exactly the rank in use at which it stands (10_state.md R33). -/
theorem rank_eq_some_iff (hs : Inv s) : s.rank n = some k ↔ k < s.ncount ∧ s.nodeAt k = n := by
  constructor
  · intro h
    exact ⟨Inv.length_ord hs ▸ rank_lt_length h, nodeAt_eq (getElem?_of_rank h)⟩
  · rintro ⟨hk, rfl⟩
    have hnd : s.ord.Nodup := Inv.nodup_ord hs
    obtain ⟨hlt, hat⟩ := List.getElem?_eq_some_iff.1 (getElem?_ord hs hk)
    rw [← hat, rank_of_mem hnd (List.getElem_mem hlt), hnd.idxOf_getElem]

/-- In a sound state the NYT leaf stands at the lowest rank (10_state.md R40). -/
theorem rank_nyt (hs : Inv s) : s.rank s.nyt = some 0 := by
  obtain ⟨hfirst, -⟩ := hs.ranks
  exact (rank_eq_some_iff hs).2 ⟨Nat.zero_lt_of_lt (nyt_lt hs), hfirst⟩

/-- In a sound state the root stands at the highest rank (10_state.md R40). -/
theorem rank_root (hs : Inv s) : s.rank s.root = some (s.ncount - 1) := by
  obtain ⟨-, hlast, -⟩ := hs.ranks
  exact (rank_eq_some_iff hs).2 ⟨Nat.sub_one_lt (Nat.ne_zero_of_lt (nyt_lt hs)), hlast⟩

/-! ## The answers -/

/-- `RDRANK` of an allocated node that has a rank (43_tree_readout.md R198). -/
theorem exec_rdrank_of_rank (ha : a.toNat < s.ncount) (hk : s.rank a.toNat = some k) :
    exec (.rdrank a) s = .next { s with rsp := some { data := k } } := by
  rw [exec, execRdrank, withIndex_of_lt ha, hk]
  rfl

/-- `RDORD` of a rank in use (43_tree_readout.md R199). -/
theorem exec_rdord_of_lt (ha : a.toNat < s.ncount) :
    exec (.rdord a) s = .next { s with rsp := some { data := s.nodeAt a.toNat } } :=
  withIndex_of_lt ha

/-- Responses with different data are different outcomes. -/
theorem next_data_eq_iff {u v : Nat} :
    (.next { s with rsp := some { data := u } } : Host.Outcome State Fault Refusal) =
      .next { s with rsp := some { data := v } } ↔ u = v := by
  simp

theorem exec_rdrank_eq_iff (hs : Inv s) (ha : a.toNat < s.ncount) :
    exec (.rdrank a) s = .next { s with rsp := some { data := k } } ↔ s.rank a.toNat = some k := by
  obtain ⟨j, hj⟩ := exists_rank hs ha
  rw [exec_rdrank_of_rank ha hj, next_data_eq_iff, hj, Option.some.injEq]

theorem exec_rdord_eq_iff (ha : a.toNat < s.ncount) :
    exec (.rdord a) s = .next { s with rsp := some { data := n } } ↔ s.nodeAt a.toNat = n := by
  rw [exec_rdord_of_lt ha, next_data_eq_iff]

/-! ## The statements -/

/-- Settles O27: an allocated node has a rank, and the rank is the one place where the node stands; the NYT leaf, which is
node 0, is first and the root last. -/
theorem rdrankReadsTheRank : Obligations.RdrankReadsTheRank := by
  unfold Obligations.RdrankReadsTheRank
  refine ⟨decode_append 0xC, fun a s hs ha => ?_, fun a s => withIndex_of_ge, fun s hs => ⟨?_, ?_⟩⟩
  · obtain ⟨k, hk⟩ := exists_rank hs ha
    obtain ⟨hlt, hat⟩ := (rank_eq_some_iff hs).1 hk
    refine ⟨k, hlt, hat, fun j hj hjat => ?_, exec_rdrank_of_rank ha hk⟩
    exact Option.some.inj (((rank_eq_some_iff hs).2 ⟨hj, hjat⟩).symm.trans hk)
  · have harg : (0 : Arg).toNat = s.nyt := toNat_zero_eq_nyt hs
    exact exec_rdrank_of_rank (harg.symm ▸ nyt_lt hs) (harg.symm ▸ rank_nyt hs)
  · have harg : (argNat s.root).toNat = s.root := toNat_argNat (Inv.lt_operand hs (Inv.root_lt hs))
    exact exec_rdrank_of_rank (harg.symm ▸ Inv.root_lt hs) (harg.symm ▸ rank_root hs)

/-- Settles O28: the two reads are inverse because a node has exactly the rank at which it stands. -/
theorem rdordReadsTheOrder : Obligations.RdordReadsTheOrder := by
  unfold Obligations.RdordReadsTheOrder
  refine ⟨decode_append 0xD, fun a s => exec_rdord_of_lt, fun a s => withIndex_of_ge, fun a b s hs ha hb => ?_⟩
  calc exec (.rdrank a) s = .next { s with rsp := some { data := b.toNat } }
      ↔ s.rank a.toNat = some b.toNat := exec_rdrank_eq_iff hs ha
    _ ↔ s.nodeAt b.toNat = a.toNat := (rank_eq_some_iff hs).trans (and_iff_right hb)
    _ ↔ exec (.rdord b) s = .next { s with rsp := some { data := a.toNat } } := (exec_rdord_eq_iff hb).symm

end Sys2Proof.Proofs
end

