-- ==== Sys2Proof/Proofs/RootPath.lean ====
section
/-! PROOFS. The root path in a sound state (43_tree_readout.md R190): it exists, it is the one that the recursion gives, and
taking its branches from the root leads to the node. -/

namespace Sys2Proof.Proofs

open Sys2Proof.Machine Sys2Proof.Laws

variable {s : State} {n p : Nat} {d : Side} {bits up : List Bool}

/-! ## The recursion -/

/-- A node without a parent has the empty path (43_tree_readout.md R190). -/
theorem path_root (h : s.parent n = none) : s.path n = some [] := pathWithin_root s.ncount h

/-- A defined path is the empty one of a parentless node, or the parent's path and one bit (43_tree_readout.md R190). -/
theorem path_cases (h : s.path n = some bits) :
    (s.parent n = none ∧ bits = []) ∨
    ∃ p d up, s.parent n = some p ∧ s.childSide p n = some d ∧ s.path p = some up ∧
      bits = up ++ [State.branchBit d] := by
  rcases pathWithin_cases h with hroot | ⟨fuel, p, d, up, hfuel, hp, hd, hup, rfl⟩
  · exact .inl hroot
  · exact .inr ⟨p, d, up, hp, hd, pathWithin_mono hup (hfuel ▸ Nat.le_succ fuel), rfl⟩

/-! ## Existence -/

/-- In a sound state a parent ranks above its child (10_state.md R40). -/
theorem idxOf_lt_idxOf_parent (hs : Inv s) (hn : n < s.ncount) (hp : s.parent n = some p) :
    s.ord.idxOf n < s.ord.idxOf p := by
  obtain ⟨-, -, habove, -⟩ := hs.ranks
  exact habove n hn p hp

/-- As many links as there are ranks from the node on are enough: each link leads to a higher rank. -/
theorem exists_pathWithin (hs : Inv s) {fuel : Nat} (hn : n < s.ncount) (hfuel : s.ncount ≤ s.ord.idxOf n + fuel) :
    ∃ bits, s.pathWithin fuel n = some bits := by
  induction fuel generalizing n with
  | zero =>
    have hlt : s.ord.idxOf n < s.ord.length := List.idxOf_lt_length_iff.2 ((Inv.mem_ord hs).2 hn)
    rw [Inv.length_ord hs] at hlt
    omega
  | succ fuel ih =>
    rcases hp : s.parent n with _ | p
    · exact ⟨[], pathWithin_root _ hp⟩
    · have habove : s.ord.idxOf n < s.ord.idxOf p := idxOf_lt_idxOf_parent hs hn hp
      obtain ⟨d, hd⟩ := exists_childSide hs hn hp
      obtain ⟨up, hup⟩ := ih (Inv.parent_lt hs hn hp) (by omega)
      exact ⟨_, pathWithin_child hp hd hup⟩

/-- In a sound state every allocated node has a root path (43_tree_readout.md R190). -/
theorem exists_path (hs : Inv s) (hn : n < s.ncount) : ∃ bits, s.path n = some bits :=
  exists_pathWithin hs hn (Nat.le_add_left ..)

/-- In a sound state a child's path is its parent's path and the bit of its slot (43_tree_readout.md R190). -/
theorem path_child (hs : Inv s) (hn : n < s.ncount) (hp : s.parent n = some p) (hd : s.childSide p n = some d)
    (hup : s.path p = some up) : s.path n = some (up ++ [State.branchBit d]) := by
  obtain ⟨bits, hbits⟩ := exists_path hs hn
  rcases path_cases hbits with ⟨hnone, -⟩ | ⟨p', d', up', hp', hd', hup', rfl⟩
  · cases hp.symm.trans hnone
  · cases hp.symm.trans hp'
    cases hd.symm.trans hd'
    cases hup.symm.trans hup'
    exact hbits

/-! ## Descent along a path -/

/-- Taking two lists of branches in turn (44_encoder_decoder_drivers.md R226). -/
theorem descend_append (m : Nat) (above below : List Bool) :
    s.descend m (above ++ below) = (s.descend m above).bind fun n => s.descend n below := by
  induction above generalizing m with
  | nil => rfl
  | cons b above ih =>
    rw [List.cons_append, State.descend, State.descend]
    rcases s.kids m with _ | ⟨l, r⟩
    · rfl
    · exact ih _

/-- The bit of a child's slot leads from the parent to the child. -/
theorem descend_branchBit (h : s.childSide p n = some d) : s.descend p [State.branchBit d] = some n := by
  obtain ⟨l, r, hk, ⟨rfl, rfl, -⟩ | ⟨rfl, rfl, -⟩⟩ := childSide_eq_some.1 h
  · simp [State.descend, hk, State.branchBit]
  · simp [State.descend, hk, State.branchBit]

theorem descend_pathWithin (hs : Inv s) {fuel : Nat} (hn : n < s.ncount) (h : s.pathWithin fuel n = some bits) :
    s.descend s.root bits = some n := by
  induction fuel generalizing n bits with
  | zero =>
    rcases pathWithin_cases h with ⟨hp, rfl⟩ | ⟨_, _, _, _, hzero, -⟩
    · rw [(parent_eq_none_iff hs hn).1 hp, State.descend]
    · cases hzero
  | succ fuel ih =>
    rcases pathWithin_cases h with ⟨hp, rfl⟩ | ⟨fuel', p, d, up, hfuel, hp, hd, hup, rfl⟩
    · rw [(parent_eq_none_iff hs hn).1 hp, State.descend]
    · cases hfuel
      rw [descend_append, ih (Inv.parent_lt hs hn hp) hup]
      exact descend_branchBit hd

/-- In a sound state the path of a node leads from the root to it (43_tree_readout.md R190). -/
theorem descend_path (hs : Inv s) (hn : n < s.ncount) (h : s.path n = some bits) : s.descend s.root bits = some n :=
  descend_pathWithin hs hn h

end Sys2Proof.Proofs
end

