-- ==== Sys2Proof/Proofs/PathReadout.lean ====
section
/-! PROOFS. The reads of root paths `PATHS` and `PATHN` (43_tree_readout.md R191, R192), with the corner cases of the NYT path
and of a tree with one seen symbol. -/

namespace Sys2Proof.Proofs

open Sys2Proof.Machine Sys2Proof.Laws

variable {s : State} {a : Arg} {y : Sym} {n p f : Nat} {bits : List Bool}

/-! ## The answers -/

theorem respondPath_of_path {flag : Bool} {data : Nat} (h : s.path n = some bits) :
    respondPath s n flag data = .next { s with rsp := some { flag := flag, data := data, path := bits } } := by
  rw [respondPath, h]
  rfl

/-- `PATHS` of a byte value whose target has a path (43_tree_readout.md R191). -/
theorem exec_paths_of_path (ha : a.toNat ≤ 255) (h : s.path (pathTarget s (a.extractLsb' 0 8)) = some bits) :
    exec (.paths a) s = .next { s with
      rsp := some { flag := (s.lookup (a.extractLsb' 0 8)).isSome, data := pathTarget s (a.extractLsb' 0 8),
                    path := bits } } := by
  rw [exec, execPaths, withSym_of_le ha, respondPath_of_path h]

/-- `PATHN` of an allocated node that has a path (43_tree_readout.md R192). -/
theorem exec_pathn_of_path (ha : a.toNat < s.ncount) (h : s.path a.toNat = some bits) :
    exec (.pathn a) s = .next { s with rsp := some { path := bits } } := by
  rw [exec, execPathn, withIndex_of_lt ha, respondPath_of_path h]

/-! ## The target of `PATHS` -/

theorem pathTarget_of_seen (h : s.lookup y = some f) : pathTarget s y = f := by
  rw [pathTarget, h, Option.getD_some]

theorem pathTarget_of_unseen (h : s.lookup y = none) : pathTarget s y = s.nyt := by
  rw [pathTarget, h, Option.getD_none]

/-- In a sound state the target of `PATHS` is allocated (43_tree_readout.md R191). -/
theorem pathTarget_lt (hs : Inv s) (y : Sym) : pathTarget s y < s.ncount := by
  rcases hf : s.lookup y with _ | f
  · exact pathTarget_of_unseen hf ▸ nyt_lt hs
  · obtain ⟨hlt, -⟩ := leaf_of_lookup hs hf
    exact pathTarget_of_seen hf ▸ hlt

/-! ## Corner cases -/

/-- The NYT leaf is in the left slot of its parent (10_state.md R40). -/
theorem childSide_nyt (hs : Inv s) (hp : s.parent s.nyt = some p) : s.childSide p s.nyt = some .left :=
  have hk : s.kids p = some (s.nyt, s.nodeAt 1) := kids_parent_nyt hs hp
  childSide_eq_some.2 ⟨_, _, hk, .inl ⟨rfl, rfl, right_ne_nyt hs (Inv.parent_lt hs (nyt_lt hs) hp) hk⟩⟩

/-- The sibling of the NYT leaf is in the right slot. -/
theorem childSide_sibling_nyt (hs : Inv s) (hp : s.parent s.nyt = some p) (hn : n < s.ncount)
    (hpn : s.parent n = some p) (hne : n ≠ s.nyt) : s.childSide p n = some .right := by
  obtain ⟨d, hd⟩ := exists_childSide hs hn hpn
  obtain ⟨l, r, hk, ⟨-, hl, -⟩ | ⟨rfl, -, -⟩⟩ := childSide_eq_some.1 hd
  · exact absurd (hl.symm.trans (left_eq_nyt hs hp hk)) hne
  · exact hd

/-- In a sound state a non-empty NYT path ends in 0 (43_tree_readout.md R191). -/
theorem getLast?_path_nyt (hs : Inv s) (h : s.path s.nyt = some bits) (hne : bits ≠ []) :
    bits.getLast? = some false := by
  rcases path_cases h with ⟨-, hnil⟩ | ⟨p, d, up, hp, hd, -, rfl⟩
  · exact absurd hnil hne
  · cases hd.symm.trans (childSide_nyt hs hp)
    exact List.getLast?_concat

/-- In a sound state a parent has an odd index, as every internal node (10_state.md R29). -/
theorem parent_odd (hs : Inv s) (hn : n < s.ncount) (hp : s.parent n = some p) : p % 2 = 1 := by
  obtain ⟨hinternal, -⟩ := hs.kinds p (Inv.parent_lt hs hn hp)
  obtain ⟨d, hd⟩ := exists_childSide hs hn hp
  obtain ⟨l, r, hk, -⟩ := childSide_eq_some.1 hd
  exact hinternal.1 (hk ▸ rfl)

/-- With one seen symbol the root is the only internal node, so it is the parent of every other node. -/
theorem parent_of_ncount_three (hs : Inv s) (h3 : s.ncount = 3) (hn : n < s.ncount) (hne : n ≠ s.root) :
    s.parent n = some s.root := by
  obtain ⟨p, hp⟩ := Option.ne_none_iff_exists'.1 (mt (parent_eq_none_iff hs hn).1 hne)
  have hlt : p < s.ncount := Inv.parent_lt hs hn hp
  have hodd : p % 2 = 1 := parent_odd hs hn hp
  obtain ⟨-, hroot⟩ := hs.registers
  rw [hp, hroot, if_neg (by omega), Option.some.injEq]
  omega

/-- With one seen symbol the symbol's path is 1 and the NYT path 0 (43_tree_readout.md R191). -/
theorem paths_of_ncount_three (hs : Inv s) (h3 : s.ncount = 3) (hf : s.lookup y = some f) :
    s.path f = some [true] ∧ s.path s.nyt = some [false] := by
  obtain ⟨hlt, hleaf, -⟩ := leaf_of_lookup hs hf
  obtain ⟨hnyt, hroot⟩ := hs.registers
  have hnyt_ne_root : s.nyt ≠ s.root := by
    rw [hnyt, hroot, if_neg (by omega)]
    decide
  have hf_ne_nyt : f ≠ s.nyt := hnyt ▸ ne_zero_of_lookup hs hf
  have hp : s.parent s.nyt = some s.root := parent_of_ncount_three hs h3 (nyt_lt hs) hnyt_ne_root
  have hf_ne_root : f ≠ s.root := by
    rintro rfl
    cases hleaf.symm.trans (kids_parent_nyt hs hp)
  have hpf : s.parent f = some s.root := parent_of_ncount_three hs h3 hlt hf_ne_root
  have hempty : s.path s.root = some [] := path_root ((parent_eq_none_iff hs (Inv.root_lt hs)).2 rfl)
  exact ⟨path_child hs hlt hpf (childSide_sibling_nyt hs hp hlt hpf hf_ne_nyt) hempty,
    path_child hs (nyt_lt hs) hp (childSide_nyt hs hp) hempty⟩

/-! ## The statements -/

/-- Settles O20: the target is allocated, so it has a path, which leads to it; the corner cases follow because the NYT leaf is
a left child. -/
theorem pathsAnswersTheRootPath : Obligations.PathsAnswersTheRootPath := by
  unfold Obligations.PathsAnswersTheRootPath
  refine ⟨decode_append 0x4, fun a s hs ha => ?_, fun s y => ?_, fun a s => withSym_of_gt, fun a wb ha => ?_,
    fun s y f => paths_of_ncount_three, fun s bits => getLast?_path_nyt⟩
  · obtain ⟨bits, hbits⟩ := exists_path hs (pathTarget_lt hs (a.extractLsb' 0 8))
    exact ⟨bits, hbits, descend_path hs (pathTarget_lt hs _) hbits, exec_paths_of_path ha hbits⟩
  · rcases hf : s.lookup y with _ | f
    · exact pathTarget_of_unseen hf
    · exact pathTarget_of_seen hf
  · exact exec_paths_of_path ha (path_root (parent_resetOf_zero wb))

/-- Settles O21: an allocated node has a path, which leads to it and is empty at the root; node 0 is the NYT leaf. -/
theorem pathnAnswersTheRootPath : Obligations.PathnAnswersTheRootPath := by
  unfold Obligations.PathnAnswersTheRootPath
  refine ⟨decode_append 0x5, fun a s hs ha => ?_, fun a s => withIndex_of_ge, fun s hs => ?_⟩
  · obtain ⟨bits, hbits⟩ := exists_path hs ha
    refine ⟨bits, hbits, descend_path hs ha hbits, fun hroot => ?_, exec_pathn_of_path ha hbits⟩
    have hempty : s.path a.toNat = some [] := path_root ((parent_eq_none_iff hs ha).2 hroot)
    exact Option.some.inj (hbits.symm.trans hempty)
  · have harg : (0 : Arg).toNat = s.nyt := toNat_zero_eq_nyt hs
    obtain ⟨bits, hbits⟩ := exists_path hs (nyt_lt hs)
    exact ⟨bits, hbits, exec_pathn_of_path (harg.symm ▸ nyt_lt hs) (harg.symm ▸ hbits)⟩

end Sys2Proof.Proofs
end

