-- ==== Sys2Proof/Proofs/TreeShape.lean ====
section
/-! PROOFS. What the increment phase never breaks (42_tree_update_engine.md R156): the laws of a sound state besides the sums
and the order of the weights. First their consequences, which earlier files draw for sound states and a phase needs without the
laws of the weights; then what keeps them. -/

namespace Sys2Proof.Proofs

open Sys2Proof.Machine Sys2Proof.Laws

/-- The laws of a sound state (10_state.md R29 to R38, R40) without the sums, the order and the width of the weights. -/
structure Shape (s : State) : Prop where
  count     : CountLaw s
  order     : OrderPermutation s
  kinds     : KindLaw s
  links     : LinkLaw s
  nyt       : NytLaw s
  symbols   : LeafSymbols s
  agrees    : IndexAgrees s
  index     : SymIndex.wf s.sidx = true
  registers : RegisterLaw s
  ranks     : RankLaw s

theorem shape_of_inv {s : State} (h : Inv s) : Shape s :=
  ⟨h.count, h.order, h.kinds, h.links, h.nyt, h.symbols, h.agrees, h.index, h.registers, h.ranks⟩

/-! ## Consequences -/

section Consequences

variable {s : State} {n m p c k l r : Nat}

theorem Shape.mem_ord (h : Shape s) : n ∈ s.ord ↔ n < s.ncount := by
  rw [h.order.mem_iff, List.mem_range]

theorem Shape.nodup_ord (h : Shape s) : s.ord.Nodup := h.order.nodup_iff.2 List.nodup_range

theorem Shape.length_ord (h : Shape s) : s.ord.length = s.ncount := by rw [h.order.length_eq, List.length_range]

theorem Shape.root_lt (h : Shape s) : s.root < s.ncount := h.links.1

theorem Shape.nyt_lt (h : Shape s) : s.nyt < s.ncount := h.nyt.1

theorem Shape.parent_eq_none_iff (h : Shape s) (hn : n < s.ncount) : s.parent n = none ↔ n = s.root := by
  obtain ⟨-, hroot, -⟩ := h.links
  exact hroot n hn

/-- A parent is allocated and holds its child in a slot (10_state.md R31). -/
theorem Shape.parent_slot (h : Shape s) (hn : n < s.ncount) (hp : s.parent n = some p) :
    p < s.ncount ∧ ∃ d, s.childSide p n = some d := by
  obtain ⟨-, -, -, hslot⟩ := h.links
  exact (hslot n hn p hp).imp_right Option.isSome_iff_exists.1

theorem Shape.parent_lt (h : Shape s) (hn : n < s.ncount) (hp : s.parent n = some p) : p < s.ncount :=
  (h.parent_slot hn hp).1

theorem Shape.exists_childSide (h : Shape s) (hn : n < s.ncount) (hp : s.parent n = some p) :
    ∃ d, s.childSide p n = some d :=
  (h.parent_slot hn hp).2

/-- The two children of a node are different and have it as their parent (10_state.md R31). -/
theorem Shape.children (h : Shape s) (hn : n < s.ncount) (hk : s.kids n = some (l, r)) :
    l < s.ncount ∧ r < s.ncount ∧ l ≠ r ∧ s.parent l = some n ∧ s.parent r = some n := by
  obtain ⟨-, -, hchildren, -⟩ := h.links
  exact hchildren n hn (l, r) hk

/-- A child stands in one of its parent's two slots (10_state.md R31). -/
theorem Shape.kids_of_parent (h : Shape s) (hn : n < s.ncount) (hp : s.parent n = some p) :
    ∃ l r, s.kids p = some (l, r) ∧ (l = n ∨ r = n) := by
  obtain ⟨d, hd⟩ := h.exists_childSide hn hp
  obtain ⟨l, r, hk, ⟨-, hl, -⟩ | ⟨-, hr, -⟩⟩ := childSide_eq_some.1 hd
  · exact ⟨l, r, hk, .inl hl⟩
  · exact ⟨l, r, hk, .inr hr⟩

/-- A node is in no slot of a node that is not its parent (10_state.md R31). -/
theorem Shape.ne_of_parent_ne (h : Shape s) (hp : p < s.ncount) (hk : s.kids p = some (l, r))
    (hm : s.parent m ≠ some p) : l ≠ m ∧ r ≠ m := by
  obtain ⟨-, -, -, hpl, hpr⟩ := h.children hp hk
  exact ⟨fun e => hm (e ▸ hpl), fun e => hm (e ▸ hpr)⟩

theorem Shape.kids_nyt (h : Shape s) : s.kids s.nyt = none := by
  obtain ⟨hlt, honly, -⟩ := h.nyt
  exact ((honly s.nyt hlt).2 rfl).1

/-- The NYT leaf is the only node of weight 0 (20_memory.md R66). -/
theorem Shape.weight_eq_zero_iff (h : Shape s) (hn : n < s.ncount) : s.weight n = 0 ↔ n = s.nyt := by
  obtain ⟨hnyt, -⟩ := h.registers
  obtain ⟨-, -, hzero⟩ := h.kinds n hn
  rw [hzero, hnyt]

theorem Shape.idxOf_lt (h : Shape s) (hn : n < s.ncount) : s.ord.idxOf n < s.ncount := by
  rw [← h.length_ord]
  exact List.idxOf_lt_length_iff.2 (h.mem_ord.2 hn)

theorem Shape.idxOf_inj (h : Shape s) (hn : n < s.ncount) : s.ord.idxOf n = s.ord.idxOf m ↔ n = m :=
  List.idxOf_inj (h.mem_ord.2 hn)

theorem Shape.idxOf_nodeAt (h : Shape s) (hk : k < s.ncount) : s.ord.idxOf (s.nodeAt k) = k := by
  have hlt : k < s.ord.length := h.length_ord.symm ▸ hk
  rw [nodeAt_eq (List.getElem?_eq_getElem hlt), h.nodup_ord.idxOf_getElem]

theorem Shape.nodeAt_lt (h : Shape s) (hk : k < s.ncount) : s.nodeAt k < s.ncount := by
  have hlt : k < s.ord.length := h.length_ord.symm ▸ hk
  rw [nodeAt_eq (List.getElem?_eq_getElem hlt), ← h.mem_ord]
  exact List.getElem_mem hlt

/-- The NYT leaf stands at the lowest rank and at no other (10_state.md R40). -/
theorem Shape.idxOf_eq_zero_iff (h : Shape s) (hn : n < s.ncount) : s.ord.idxOf n = 0 ↔ n = s.nyt := by
  have hnyt : s.ord.idxOf s.nyt = 0 := by
    rw [← h.ranks.1, h.idxOf_nodeAt (Nat.zero_lt_of_lt hn)]
  rw [← hnyt, h.idxOf_inj hn]

/-- No node ranks above the root (10_state.md R40). -/
theorem Shape.idxOf_le_root (h : Shape s) (hn : n < s.ncount) : s.ord.idxOf n ≤ s.ord.idxOf s.root := by
  have hlt : s.ord.idxOf n < s.ncount := h.idxOf_lt hn
  obtain ⟨-, hlast, -⟩ := h.ranks
  rw [← hlast, h.idxOf_nodeAt (by omega)]
  omega

/-- A parent ranks above its child (10_state.md R40). -/
theorem Shape.idxOf_lt_parent (h : Shape s) (hn : n < s.ncount) (hp : s.parent n = some p) :
    s.ord.idxOf n < s.ord.idxOf p := by
  obtain ⟨-, -, habove, -⟩ := h.ranks
  exact habove n hn p hp

/-- The sibling and the parent of the NYT leaf stand at the ranks 1 and 2 (log 13). -/
theorem Shape.ranks_around_nyt (h : Shape s) (hp : s.parent s.nyt = some p) :
    s.kids p = some (s.nyt, s.nodeAt 1) ∧ s.ord.idxOf (s.nodeAt 1) = 1 ∧ s.ord.idxOf p = 2 := by
  obtain ⟨-, -, -, hleft⟩ := h.ranks
  obtain ⟨hat, hk⟩ := hleft p hp
  have hlt : s.ord.idxOf s.nyt < s.ord.idxOf p := h.idxOf_lt_parent h.nyt_lt hp
  have hne : s.ncount ≠ 1 := by
    have := h.idxOf_lt (h.parent_lt h.nyt_lt hp)
    omega
  obtain ⟨-, hodd, -⟩ := h.count
  refine ⟨hk, h.idxOf_nodeAt (by omega), ?_⟩
  rw [← hat, h.idxOf_nodeAt (by omega)]

/-- A child as heavy as its parent is the NYT leaf's sibling, where the parent's weight is its children's sum: the other child
has weight 0. -/
theorem Shape.ranks_of_weight_eq_parent (h : Shape s) (hc : c < s.ncount) (hne : c ≠ s.nyt) (hp : s.parent c = some p)
    (hsum : ∀ k ∈ s.kids p, s.weight p = s.weight k.1 + s.weight k.2) (hw : s.weight c = s.weight p) :
    s.ord.idxOf c = 1 ∧ s.ord.idxOf p = 2 := by
  obtain ⟨l, r, hk, hslot⟩ := h.kids_of_parent hc hp
  obtain ⟨hl, hr, -, hpl, hpr⟩ := h.children (h.parent_lt hc hp) hk
  have hpw : s.weight p = s.weight l + s.weight r := hsum (l, r) hk
  have hnyt : l = s.nyt ∨ r = s.nyt := by
    rcases hslot with rfl | rfl
    · exact .inr ((h.weight_eq_zero_iff hr).1 (by omega))
    · exact .inl ((h.weight_eq_zero_iff hl).1 (by omega))
  have hparent : s.parent s.nyt = some p := by
    rcases hnyt with rfl | rfl
    · exact hpl
    · exact hpr
  obtain ⟨hk', hone, htwo⟩ := h.ranks_around_nyt hparent
  cases hk.symm.trans hk'
  rcases hslot with rfl | rfl
  · exact absurd rfl hne
  · exact ⟨hone, htwo⟩

/-- Allocated nodes are exactly the entries of the node store (10_state.md R23). -/
theorem Shape.length_nodes (h : Shape s) : s.nodes.length = s.ncount := h.count.1

end Consequences

/-! ## What keeps the shape -/

section Keeps

variable {s t : State}

/-- The laws that speak of kinds, symbols and the index hold as long as the frame of the increment phase does and no weight
becomes or stops being 0. -/
theorem shape_of_sameBut (h : Shape s) (hf : SameBut s t) (hw : ∀ n, n < s.ncount → (t.weight n = 0 ↔ s.weight n = 0))
    (ho : OrderPermutation t) (hl : LinkLaw t) (hr : RankLaw t) : Shape t := by
  obtain ⟨-, hroot, hnyt, hncount, -, hsidx, -, -, hnodes, -, hnode⟩ := hf
  have hsym (n : Nat) : t.sym n = s.sym n := (hnode n).1
  have hkids (n : Nat) : (t.kids n).isSome = (s.kids n).isSome := (hnode n).2
  have hleaf (n : Nat) : t.kids n = none ↔ s.kids n = none := by
    rw [← Option.isNone_iff_eq_none, ← Option.isNone_iff_eq_none, ← Option.not_isSome, ← Option.not_isSome, hkids]
  have hlookup (y : Sym) : t.lookup y = s.lookup y := lookup_congr hsidx y
  refine ⟨?_, ho, ?_, hl, ?_, ?_, ?_, ?_, ?_, hr⟩
  · simpa only [CountLaw, hnodes, hncount, hsidx] using h.count
  · intro n hn
    rw [hkids, hsym, hw n (hncount ▸ hn)]
    exact h.kinds n (hncount ▸ hn)
  · obtain ⟨hlt, honly, hzero⟩ := h.nyt
    refine ⟨hnyt.symm ▸ hncount.symm ▸ hlt, fun n hn => ?_, ?_⟩
    · rw [hleaf, hsym, hnyt]
      exact honly n (hncount ▸ hn)
    · rw [hnyt, hw _ hlt]
      exact hzero
  · simpa only [LeafSymbols, hncount, hleaf, hsym, hnyt] using h.symbols
  · simpa only [IndexAgrees, hncount, hleaf, hsym, hsidx, hlookup] using h.agrees
  · rw [hsidx]
    exact h.index
  · simpa only [RegisterLaw, hnyt, hroot, hncount] using h.registers

end Keeps

end Sys2Proof.Proofs
end

