-- ==== Sys2Proof/Proofs/IncrementPhase.lean ====
section
/-! PROOFS. The increment phase (42_tree_update_engine.md R156): the invariant of its loop, which is that of a sound state but
for the weights on the way from the cursor to the root; every visit keeps it and leads to a higher rank, so the phase ends. -/

namespace Sys2Proof.Proofs

open Sys2Proof.Machine Sys2Proof.Laws

/-! ## The invariant -/

/-- The weights `w` with one more at node `n`. -/
def bump (n : Nat) (w : Nat → Nat) (m : Nat) : Nat := w m + if m = n then 1 else 0

/-- The weights `w` of the allocated nodes do not fall as the rank rises (10_state.md R36). -/
def Ordered (s : State) (w : Nat → Nat) : Prop :=
  ∀ m n, m < s.ncount → n < s.ncount → s.ord.idxOf m ≤ s.ord.idxOf n → w m ≤ w n

/-- One where the condition holds: what the cursor's increment, still to come, adds. -/
def owed (c : Prop) [Decidable c] : Nat := if c then 1 else 0

/-- The increment phase at the cursor `cur`. The increment of the cursor's node is owed to its children's sum and to the
root, which will weigh `total`. The weights are in order, or will be after the increment: a cursor that comes from the NYT
leaf's sibling was not exchanged with it (42_tree_update_engine.md R158). -/
structure Phase (total : Nat) (cur : Option Nat) (s : State) : Prop where
  shape  : Shape s
  sums   : ∀ m, m < s.ncount → ∀ k ∈ s.kids m,
    s.weight m + owed (cur = some m) = s.weight k.1 + s.weight k.2
  sorted : Ordered s s.weight ∨ ∃ n, cur = some n ∧ Ordered s (bump n s.weight)
  root   : s.weight s.root + owed (cur ≠ none) = total
  width  : 1 ≤ s.weightBits ∧ total ≤ weightMax s.weightBits
  cursor : ∀ n, cur = some n → n < s.ncount ∧ n ≠ s.nyt

section Order

variable {s : State} {n m : Nat} {w : Nat → Nat}

@[simp] theorem bump_self : bump n w n = w n + 1 := by simp [bump]

@[simp] theorem bump_of_ne (h : m ≠ n) : bump n w m = w m := by rw [bump, if_neg h, Nat.add_zero]

theorem bump_comm : bump n (bump m w) = bump m (bump n w) := funext fun _ => Nat.add_right_comm ..

theorem le_bump : w m ≤ bump n w m := Nat.le_add_right ..

@[simp] theorem owed_of_true {c : Prop} [Decidable c] (h : c) : owed c = 1 := if_pos h

@[simp] theorem owed_of_false {c : Prop} [Decidable c] (h : ¬ c) : owed c = 0 := if_neg h

/-- The order between neighbours in rank is the order between all nodes. -/
theorem ordered_iff_weightOrder (h : Shape s) : Ordered s s.weight ↔ WeightOrder s := by
  constructor
  · intro ho k hk
    refine ho _ _ (h.nodeAt_lt (by omega)) (h.nodeAt_lt (by omega)) ?_
    rw [h.idxOf_nodeAt (by omega), h.idxOf_nodeAt (by omega)]
    exact Nat.le_succ k
  · intro ho m n hm hn hmn
    have hupTo : ∀ j, s.ord.idxOf m ≤ j → j < s.ncount →
        s.weight (s.nodeAt (s.ord.idxOf m)) ≤ s.weight (s.nodeAt j) := by
      intro j hj
      induction j, hj using Nat.le_induction with
      | base => exact fun _ => le_rfl
      | succ j hj ih => exact fun hlt => (ih (by omega)).trans (ho j (by omega))
    have hat {i : Nat} (hi : i < s.ncount) : s.nodeAt (s.ord.idxOf i) = i :=
      (h.idxOf_inj (h.nodeAt_lt (h.idxOf_lt hi))).1 (h.idxOf_nodeAt (h.idxOf_lt hi))
    have hle := hupTo _ hmn (h.idxOf_lt hn)
    rwa [hat hm, hat hn] at hle

/-- One more at a node keeps the order where every node above it is heavier. -/
theorem ordered_bump (h : Shape s) (hn : n < s.ncount) (ho : Ordered s w)
    (habove : ∀ m, m < s.ncount → s.ord.idxOf n < s.ord.idxOf m → w n < w m) : Ordered s (bump n w) := by
  intro a b ha hb hab
  by_cases han : a = n
  · subst han
    by_cases hba : b = a
    · rw [hba]
    · have hne : s.ord.idxOf a ≠ s.ord.idxOf b := mt (h.idxOf_inj ha).1 (Ne.symm hba)
      rw [bump_self, bump_of_ne hba]
      exact habove b hb (by omega)
  · rw [bump_of_ne han]
    exact (ho a b ha hb hab).trans le_bump

end Order

section Phase

variable {s t : State} {total n l : Nat}

/-- A sound state is a phase without a cursor, but for the weight that the root will have. -/
theorem inv_of_phase (h : Phase total none s) : Inv s := by
  have hroot : s.weight s.root = total := by simpa using h.root
  have hs : Shape s := h.shape
  refine ⟨hs.count, hs.order, hs.kinds, hs.links, fun m hm k hk => by simpa using h.sums m hm k hk, ?_, hs.nyt, hs.symbols,
    hs.agrees, hs.index, hs.registers, hs.ranks, ⟨h.width.1, hroot ▸ h.width.2⟩,
    indexLaw_of hs.count hs.order hs.links hs.nyt hs.agrees⟩
  rcases h.sorted with ho | ⟨n, hn, -⟩
  · exact (ordered_iff_weightOrder hs).1 ho
  · cases hn

/-- In a sound state no symbol owns the NYT leaf (10_state.md R37). -/
theorem ne_nyt_of_lookup {y : Sym} (hs : Inv s) (hf : s.lookup y = some n) : n ≠ s.nyt := by
  obtain ⟨hzero, -⟩ := hs.registers
  exact hzero ▸ ne_zero_of_lookup hs hf

/-- The phase of a seen symbol starts at its leaf in a sound state (42_tree_update_engine.md R150). -/
theorem phase_of_lookup {y : Sym} (hs : Inv s) (hf : s.lookup y = some n) (hw : s.weight s.root < weightMax s.weightBits) :
    Phase (s.weight s.root + 1) (some n) s := by
  have hshape : Shape s := shape_of_inv hs
  obtain ⟨hn, hk, -⟩ := leaf_of_lookup hs hf
  refine ⟨hshape, fun m hm k hkm => ?_, .inl ((ordered_iff_weightOrder hshape).2 hs.sorted), by simp,
    ⟨hs.width.1, hw⟩, fun _ h => Option.some.inj h ▸ ⟨hn, ne_nyt_of_lookup hs hf⟩⟩
  have hnm : some n ≠ some m := by
    rintro ⟨⟩
    cases hk.symm.trans hkm
  simpa [hnm] using hs.sums m hm k hkm

/-- The cursor's node weighs less than the root will: at most as much as the root, whose increment is owed as well. -/
theorem Phase.weight_lt (h : Phase total (some n) s) : s.weight n < total := by
  obtain ⟨hn, -⟩ := h.cursor n rfl
  have hroot : s.weight s.root + 1 = total := by simpa using h.root
  have hle : s.ord.idxOf n ≤ s.ord.idxOf s.root := h.shape.idxOf_le_root hn
  by_cases hnroot : n = s.root
  · rw [← hroot, hnroot]
    exact Nat.lt_succ_self _
  · rcases h.sorted with ho | ⟨_, ⟨⟩, ho⟩
    · have := ho n s.root hn h.shape.root_lt hle
      omega
    · have := ho n s.root hn h.shape.root_lt hle
      rw [bump_self, bump_of_ne (Ne.symm hnroot)] at this
      omega

end Phase

/-! ## The increment of the cursor's node -/

section Increment

variable {s : State} {total n : Nat}

@[simp] theorem parent_increment (n m : Nat) : (s.increment n).parent m = s.parent m := parent_setWeight ..

@[simp] theorem kids_increment (n m : Nat) : (s.increment n).kids m = s.kids m := kids_setWeight ..

@[simp] theorem nodeAt_increment (n k : Nat) : (s.increment n).nodeAt k = s.nodeAt k := rfl

@[simp] theorem childSide_increment (n p m : Nat) : (s.increment n).childSide p m = s.childSide p m :=
  childSide_congr (kids_increment n p) m

/-- An increment that fits the width adds one at its node alone (42_tree_update_engine.md R160). -/
theorem weight_increment_eq (hn : n < s.nodes.length) (hw : s.weight n < weightMax s.weightBits) :
    (s.increment n).weight = bump n s.weight := by
  funext m
  rw [State.increment, weight_setWeight, weightSucc]
  by_cases hmn : m = n
  · subst hmn
    rw [if_pos ⟨rfl, hn⟩, bump_self]
    unfold weightMax at hw
    exact Nat.mod_eq_of_lt (by omega)
  · rw [if_neg fun h => hmn h.1.symm, bump_of_ne hmn]

/-- An increment of a node that is not the NYT leaf keeps the shape. -/
theorem shape_increment (h : Shape s) (hn : n < s.ncount) (hne : n ≠ s.nyt) (hw : s.weight n < weightMax s.weightBits) :
    Shape (s.increment n) := by
  refine shape_of_sameBut h (sameBut_increment s n) (fun m hm => ?_) h.order ?_ ?_
  · rw [weight_increment_eq (h.length_nodes.symm ▸ hn) hw]
    by_cases hmn : m = n
    · subst hmn
      have : s.weight m ≠ 0 := mt (h.weight_eq_zero_iff hm).1 hne
      rw [bump_self]
      omega
    · rw [bump_of_ne hmn]
  · simpa only [LinkLaw, root_increment, ncount_increment, parent_increment, kids_increment, childSide_increment]
      using h.links
  · simpa only [RankLaw, root_increment, nyt_increment, ncount_increment, parent_increment, kids_increment,
      nodeAt_increment, ord_increment] using h.ranks

/-- The increment pays what is owed at the cursor's node, and owes it at the node's parent. -/
theorem sums_increment (h : Phase total (some n) s) {m : Nat} (hm : m < s.ncount) :
    ∀ k ∈ s.kids m, bump n s.weight m + owed (s.parent n = some m) = bump n s.weight k.1 + bump n s.weight k.2 := by
  rintro ⟨l, r⟩ hk
  have hs : Shape s := h.shape
  obtain ⟨hn, -⟩ := h.cursor n rfl
  obtain ⟨-, -, hlr, hpl, hpr⟩ := hs.children hm hk
  have hsum : s.weight m + owed (some n = some m) = s.weight l + s.weight r := h.sums m hm (l, r) hk
  by_cases hp : s.parent n = some m
  · have hnm : n ≠ m := by
      rintro rfl
      exact lt_irrefl _ (hs.idxOf_lt_parent hn hp)
    rw [owed_of_false (by simpa using hnm)] at hsum
    rw [owed_of_true hp, bump_of_ne hnm.symm]
    obtain ⟨l', r', hk', hslot⟩ := hs.kids_of_parent hn hp
    cases hk.symm.trans hk'
    rcases hslot with rfl | rfl
    · rw [bump_self, bump_of_ne hlr.symm]
      omega
    · rw [bump_self, bump_of_ne hlr]
      omega
  · obtain ⟨hln, hrn⟩ := hs.ne_of_parent_ne hm hk hp
    rw [owed_of_false hp, bump_of_ne hln, bump_of_ne hrn, ← hsum]
    by_cases hmn : m = n
    · simp [hmn]
    · simp [hmn, Ne.symm hmn]

/-- The phase goes on at the parent of the cursor's node, where the weights are in order after its increment, or will be after
its parent's. -/
theorem phase_increment (h : Phase total (some n) s)
    (ho : Ordered s (bump n s.weight) ∨ ∃ p, s.parent n = some p ∧ Ordered s (bump p (bump n s.weight))) :
    Phase total (s.parent n) (s.increment n) := by
  have hs : Shape s := h.shape
  obtain ⟨hn, hne⟩ := h.cursor n rfl
  have hlt : s.weight n < weightMax s.weightBits := h.weight_lt.trans_le h.width.2
  have hw : (s.increment n).weight = bump n s.weight := weight_increment_eq (hs.length_nodes.symm ▸ hn) hlt
  refine ⟨shape_increment hs hn hne hlt, fun m hm k hk => ?_, ?_, ?_, h.width, fun p hp => ⟨hs.parent_lt hn hp, ?_⟩⟩
  · rw [hw]
    rw [kids_increment] at hk
    exact sums_increment h hm k hk
  · rw [hw]
    exact ho
  · have hroot : s.weight s.root + 1 = total := by simpa using h.root
    rw [hw, root_increment]
    by_cases hnroot : n = s.root
    · rw [owed_of_false (not_not.2 ((hs.parent_eq_none_iff hn).2 hnroot)), hnroot, bump_self]
      exact hroot
    · rw [owed_of_true (mt (hs.parent_eq_none_iff hn).1 hnroot), bump_of_ne (Ne.symm hnroot)]
      exact hroot
  · rintro rfl
    obtain ⟨l, r, hk, -⟩ := hs.kids_of_parent hn hp
    cases hk.symm.trans hs.kids_nyt

end Increment

end Sys2Proof.Proofs
end

