-- ==== Sys2Proof/Proofs/Exchange.lean ====
section
/-! PROOFS. The exchange of two nodes (42_tree_update_engine.md R159) as a renaming: each of the two takes the other's rank and
place in the tree, so every rank and every child slot holds the renamed node. A renaming of two nodes of one weight keeps the
phase. -/

namespace Sys2Proof.Proofs

open Sys2Proof.Machine Sys2Proof.Laws

/-! ## Renaming -/

/-- The state `t` is `s` with the nodes `a` and `b` exchanged in rank and place; an entry keeps its other fields. -/
structure Renamed (a b : Nat) (s t : State) : Prop where
  frame  : SameBut s t
  weight : ∀ n, t.weight n = s.weight n
  ord    : t.ord = s.ord.map (Equiv.swap a b)
  parent : ∀ n, n < s.ncount → t.parent n = s.parent (Equiv.swap a b n)
  kids   : ∀ p, p < s.ncount → t.kids p = (s.kids p).map (Prod.map (Equiv.swap a b) (Equiv.swap a b))

section Swap

variable {s t : State} {a b n p : Nat}

/-- Setting the ranks of two nodes to each other renames the order sequence. -/
theorem set_set_eq_map_swap {xs : List Nat} (hnd : xs.Nodup) {i j : Nat} (hi : xs[i]? = some a) (hj : xs[j]? = some b) :
    (xs.set i b).set j a = xs.map (Equiv.swap a b) := by
  obtain ⟨hilt, rfl⟩ := List.getElem?_eq_some_iff.1 hi
  obtain ⟨hjlt, rfl⟩ := List.getElem?_eq_some_iff.1 hj
  refine List.ext_getElem (by simp) fun k hk _ => ?_
  have hklt : k < xs.length := by simpa using hk
  rw [List.getElem_set, List.getElem_map]
  by_cases hjk : j = k
  · subst hjk
    rw [if_pos rfl, Equiv.swap_apply_right]
  · rw [if_neg hjk, List.getElem_set]
    by_cases hik : i = k
    · subst hik
      rw [if_pos rfl, Equiv.swap_apply_left]
    · rw [if_neg hik, Equiv.swap_apply_of_ne_of_ne]
      · exact mt (hnd.getElem_inj_iff).1 (Ne.symm hik)
      · exact mt (hnd.getElem_inj_iff).1 (Ne.symm hjk)

/-- A slot written by its side renames the children where its old and new node are exchanged and the other slot holds
neither. -/
theorem putSlot_eq_swap {l r : Nat} {d : Side} (hd : s.childSide p a = some d) (hk : s.kids p = some (l, r))
    (hl : l ≠ b) (hr : r ≠ b) : State.putSlot d b (l, r) = (Equiv.swap a b l, Equiv.swap a b r) := by
  obtain ⟨l', r', hk', hslot⟩ := childSide_eq_some.1 hd
  cases hk.symm.trans hk'
  rcases hslot with ⟨rfl, rfl, hne⟩ | ⟨rfl, rfl, hne⟩
  · rw [Equiv.swap_apply_left, Equiv.swap_apply_of_ne_of_ne hne hr]
    rfl
  · rw [Equiv.swap_apply_left, Equiv.swap_apply_of_ne_of_ne hne hl]
    rfl

/-- An exchange renames the children of every node. -/
theorem kids_exchange_eq_map (h : Shape s) {ka pa kb pb : Nat} {sa sb : Side} (hab : a ≠ b)
    (hpa : s.parent a = some pa) (hpb : s.parent b = some pb) (hsa : s.childSide pa a = some sa)
    (hsb : s.childSide pb b = some sb) (hp : p < s.ncount) :
    (s.exchange a ka pa sa b kb pb sb).kids p = (s.kids p).map (Prod.map (Equiv.swap a b) (Equiv.swap a b)) := by
  have hlt : p < s.nodes.length := h.length_nodes.symm ▸ hp
  rw [kids_exchange]
  rcases hk : s.kids p with _ | ⟨l, r⟩
  · split <;> split <;> rfl
  by_cases ha : pa = p <;> by_cases hb : pb = p
  · subst ha hb
    rw [if_pos ⟨rfl, hlt⟩, if_pos ⟨rfl, hlt⟩, ← hk, putSlot_putSlot_siblings hab hsa hsb, hk]
    obtain ⟨l', r', hk', hl⟩ := childSide_eq_some.1 hsa
    obtain ⟨l'', r'', hk'', hr⟩ := childSide_eq_some.1 hsb
    cases hk.symm.trans hk'
    cases hk.symm.trans hk''
    rcases hl with ⟨-, rfl, hne⟩ | ⟨-, rfl, hne⟩ <;> rcases hr with ⟨-, rfl, -⟩ | ⟨-, rfl, -⟩
    · exact absurd rfl hab
    · simp
    · simp
    · exact absurd rfl hab
  · subst ha
    obtain ⟨hl, hr⟩ := h.ne_of_parent_ne hp hk (m := b) (by simpa [hpb] using hb)
    rw [if_neg fun e => hb e.1, if_pos ⟨rfl, hlt⟩, id, Option.map_some, putSlot_eq_swap hsa hk hl hr]
    rfl
  · subst hb
    obtain ⟨hl, hr⟩ := h.ne_of_parent_ne hp hk (m := a) (by simpa [hpa] using ha)
    rw [if_pos ⟨rfl, hlt⟩, if_neg fun e => ha e.1, id, Option.map_some, putSlot_eq_swap hsb hk hl hr, Equiv.swap_comm]
    rfl
  · obtain ⟨hla, hra⟩ := h.ne_of_parent_ne hp hk (m := a) (by simpa [hpa] using ha)
    obtain ⟨hlb, hrb⟩ := h.ne_of_parent_ne hp hk (m := b) (by simpa [hpb] using hb)
    rw [if_neg fun e => hb e.1, if_neg fun e => ha e.1]
    simp [Equiv.swap_apply_of_ne_of_ne, *]

/-- An exchange of two nodes of a tree renames it. -/
theorem renamed_exchange (h : Shape s) {ka pa kb pb : Nat} {sa sb : Side} (hab : a ≠ b)
    (hka : s.rank a = some ka) (hkb : s.rank b = some kb) (hpa : s.parent a = some pa)
    (hpb : s.parent b = some pb) (hsa : s.childSide pa a = some sa) (hsb : s.childSide pb b = some sb) :
    Renamed a b s (s.exchange a ka pa sa b kb pb sb) := by
  refine ⟨sameBut_exchange .., weight_exchange, ?_, fun n hn => ?_, fun p => kids_exchange_eq_map h hab hpa hpb hsa hsb⟩
  · exact set_set_eq_map_swap h.nodup_ord (getElem?_of_rank hka) (getElem?_of_rank hkb)
  · have hlt : n < s.nodes.length := h.length_nodes.symm ▸ hn
    rw [parent_exchange]
    by_cases hbn : b = n
    · subst hbn
      rw [if_pos ⟨rfl, hlt⟩, Equiv.swap_apply_right, hpa]
    · rw [if_neg fun e => hbn e.1]
      by_cases han : a = n
      · subst han
        rw [if_pos ⟨rfl, hlt⟩, Equiv.swap_apply_left, hpb]
      · rw [if_neg fun e => han e.1, Equiv.swap_apply_of_ne_of_ne (Ne.symm han) (Ne.symm hbn)]

end Swap

/-! ## A renamed tree -/

section RenamedTree

variable {s t : State} {a b n m p : Nat}

theorem idxOf_map_swap (xs : List Nat) (n : Nat) :
    (xs.map (Equiv.swap a b)).idxOf n = xs.idxOf (Equiv.swap a b n) := by
  induction xs with
  | nil => rfl
  | cons x xs ih =>
    have hhead : (Equiv.swap a b x == n) = (x == Equiv.swap a b n) := by
      rw [Bool.eq_iff_iff, beq_iff_eq, beq_iff_eq, Equiv.swap_apply_eq_iff]
    rw [List.map_cons, List.idxOf_cons, List.idxOf_cons, ih, hhead]

theorem Renamed.idxOf (h : Renamed a b s t) (n : Nat) : t.ord.idxOf n = s.ord.idxOf (Equiv.swap a b n) := by
  rw [h.ord, idxOf_map_swap]

/-- Renaming two allocated nodes leads to an allocated node. -/
theorem swap_lt_iff {N : Nat} (ha : a < N) (hb : b < N) : Equiv.swap a b n < N ↔ n < N := by
  rw [Equiv.swap_apply_def]
  split
  next e => subst e; exact iff_of_true hb ha
  next =>
    split
    next e => subst e; exact iff_of_true ha hb
    next => rfl

theorem Renamed.nodeAt (h : Renamed a b s t) {k : Nat} (hk : k < s.ord.length) :
    t.nodeAt k = Equiv.swap a b (s.nodeAt k) := by
  rw [nodeAt_eq (List.getElem?_eq_getElem hk)]
  exact nodeAt_eq (by rw [h.ord, List.getElem?_map, List.getElem?_eq_getElem hk, Option.map_some])

theorem Renamed.childSide (h : Renamed a b s t) (hp : p < s.ncount) :
    t.childSide p n = s.childSide p (Equiv.swap a b n) := by
  rw [State.childSide, State.childSide, h.kids p hp]
  rcases s.kids p with _ | ⟨l, r⟩
  · rfl
  · simp only [Option.map_some, Prod.map_apply, Equiv.swap_apply_eq_iff]

/-- Renaming keeps the links of a tree (10_state.md R31). -/
theorem Renamed.linkLaw (h : Renamed a b s t) (hs : Shape s) (ha : a < s.ncount) (hb : b < s.ncount)
    (har : a ≠ s.root) (hbr : b ≠ s.root) : LinkLaw t := by
  obtain ⟨-, hroot, -, hncount, -⟩ := h.frame
  refine ⟨hroot ▸ hncount ▸ hs.root_lt, fun n hn => ?_, fun p hp k hk => ?_, fun n hn p hp => ?_⟩
  · rw [hncount] at hn
    rw [h.parent n hn, hs.parent_eq_none_iff ((swap_lt_iff ha hb).2 hn), hroot, Equiv.swap_apply_eq_iff,
      Equiv.swap_apply_of_ne_of_ne har.symm hbr.symm]
  · rw [hncount] at hp
    rw [h.kids p hp] at hk
    obtain ⟨⟨l, r⟩, hlr, rfl⟩ := Option.map_eq_some_iff.1 hk
    obtain ⟨hl, hr, hne, hpl, hpr⟩ := hs.children hp hlr
    have hl' : Equiv.swap a b l < s.ncount := (swap_lt_iff ha hb).2 hl
    have hr' : Equiv.swap a b r < s.ncount := (swap_lt_iff ha hb).2 hr
    refine ⟨hncount ▸ hl', hncount ▸ hr', (Equiv.swap a b).injective.ne hne, ?_, ?_⟩
    · rw [Prod.map_fst, h.parent _ hl', Equiv.swap_apply_self, hpl]
    · rw [Prod.map_snd, h.parent _ hr', Equiv.swap_apply_self, hpr]
  · rw [hncount] at hn
    rw [Option.mem_def, h.parent n hn] at hp
    have hn' : Equiv.swap a b n < s.ncount := (swap_lt_iff ha hb).2 hn
    have hplt : p < s.ncount := hs.parent_lt hn' hp
    obtain ⟨d, hd⟩ := hs.exists_childSide hn' hp
    exact ⟨hncount ▸ hplt, by rw [h.childSide hplt, hd, Option.isSome_some]⟩

/-- A parent still ranks above its child after a renaming where `b` moves down no further than above its own children. -/
theorem Renamed.idxOf_lt_parent (h : Renamed a b s t) (hs : Shape s) (ha : a < s.ncount) (hb : b < s.ncount)
    (hlt : s.ord.idxOf a < s.ord.idxOf b)
    (hbelow : ∀ c, c < s.ncount → s.parent c = some b → s.ord.idxOf c < s.ord.idxOf a)
    (hn : n < s.ncount) (hp : t.parent n = some p) : t.ord.idxOf n < t.ord.idxOf p := by
  rw [h.parent n hn] at hp
  have hn' : Equiv.swap a b n < s.ncount := (swap_lt_iff ha hb).2 hn
  have habove : s.ord.idxOf (Equiv.swap a b n) < s.ord.idxOf p := hs.idxOf_lt_parent hn' hp
  rw [h.idxOf, h.idxOf]
  by_cases hpa : p = a
  · subst hpa
    rw [Equiv.swap_apply_left]
    exact habove.trans hlt
  · by_cases hpb : p = b
    · subst hpb
      rw [Equiv.swap_apply_right]
      exact hbelow _ hn' hp
    · rwa [Equiv.swap_apply_of_ne_of_ne hpa hpb]

/-- Renaming keeps the laws about ranks (10_state.md R40) where the lower node `a` may not be above a child of `b`, and
neither is the root, the NYT leaf or its parent. -/
theorem Renamed.rankLaw (h : Renamed a b s t) (hs : Shape s) (ha : a < s.ncount) (hb : b < s.ncount)
    (hlt : s.ord.idxOf a < s.ord.idxOf b)
    (hbelow : ∀ c, c < s.ncount → s.parent c = some b → s.ord.idxOf c < s.ord.idxOf a)
    (hroot : a ≠ s.root ∧ b ≠ s.root) (hnyt : a ≠ s.nyt ∧ b ≠ s.nyt)
    (hparent : s.parent s.nyt ≠ some a ∧ s.parent s.nyt ≠ some b) : RankLaw t := by
  obtain ⟨-, hroot', hnyt', hncount, -⟩ := h.frame
  have hfix {n : Nat} (hna : a ≠ n) (hnb : b ≠ n) : Equiv.swap a b n = n :=
    Equiv.swap_apply_of_ne_of_ne hna.symm hnb.symm
  have hpos : 0 < s.ord.length := hs.length_ord.symm ▸ Nat.zero_lt_of_lt ha
  have hlast : s.ncount - 1 < s.ord.length := hs.length_ord.symm ▸ Nat.sub_one_lt (Nat.ne_zero_of_lt ha)
  obtain ⟨hfirst, htop, -, hleft⟩ := hs.ranks
  refine ⟨?_, ?_, fun n hn p hp => ?_, fun p hp => ?_⟩
  · rw [h.nodeAt hpos, hfirst, hnyt', hfix hnyt.1 hnyt.2]
  · rw [hncount, h.nodeAt hlast, htop, hroot', hfix hroot.1 hroot.2]
  · exact h.idxOf_lt_parent hs ha hb hlt hbelow (hncount ▸ hn) hp
  · rw [hnyt', Option.mem_def, h.parent _ hs.nyt_lt, hfix hnyt.1 hnyt.2] at hp
    obtain ⟨hat, -⟩ := hleft p hp
    obtain ⟨hk, hone, htwo⟩ := hs.ranks_around_nyt hp
    have hpab : Equiv.swap a b p = p :=
      hfix (fun e => hparent.1 (e ▸ hp)) (fun e => hparent.2 (e ▸ hp))
    have hlen : 2 < s.ord.length := by
      rw [hs.length_ord, ← htwo]
      exact hs.idxOf_lt (hs.parent_lt hs.nyt_lt hp)
    refine ⟨?_, ?_⟩
    · rw [h.nodeAt hlen, hat, hpab]
    · rw [h.kids p (hs.parent_lt hs.nyt_lt hp), hk, hnyt', h.nodeAt (Nat.lt_of_succ_lt hlen), Option.map_some,
        Prod.map_apply, hfix hnyt.1 hnyt.2]

theorem Renamed.orderPermutation (h : Renamed a b s t) (hs : Shape s) (ha : a < s.ncount) (hb : b < s.ncount) :
    OrderPermutation t := by
  obtain ⟨-, -, -, hncount, -⟩ := h.frame
  rw [OrderPermutation, h.ord, hncount, List.perm_ext_iff_of_nodup (hs.nodup_ord.map (Equiv.swap a b).injective)
    List.nodup_range]
  intro n
  rw [List.mem_map, List.mem_range, ← swap_lt_iff ha hb, ← hs.mem_ord]
  constructor
  · rintro ⟨m, hm, rfl⟩
    rwa [Equiv.swap_apply_self]
  · exact fun hn => ⟨_, hn, Equiv.swap_apply_self a b n⟩

/-- Renaming two nodes of one weight renames no weight. -/
theorem weight_swap (hw : s.weight a = s.weight b) (n : Nat) : s.weight (Equiv.swap a b n) = s.weight n := by
  rw [Equiv.swap_apply_def]
  split
  next e => rw [e, hw]
  next =>
    split
    next e => rw [e, hw]
    next => rfl

end RenamedTree

end Sys2Proof.Proofs
end

