-- ==== Sys2Proof/Proofs/Visit.lean ====
section
/-! PROOFS. One visit of the increment phase (42_tree_update_engine.md R156 to R161): the cursor's node is exchanged with its
leader, or is its own leader, or is the NYT leaf's sibling below its leader; in each case the phase goes on at its parent. -/

namespace Sys2Proof.Proofs

open Sys2Proof.Machine Sys2Proof.Laws

variable {s t : State} {total n l : Nat}

/-- `enforce` by the leader of the node's weight (42_tree_update_engine.md R164). -/
theorem enforce_of_leader (hl : s.leader (s.weight n) = some l) :
    s.enforce n = if s.swapAllowed n l then s.swap n l else .ok s := by
  rw [State.enforce, hl]

/-- The leader of a node's weight: it ranks at least as high as the node, and no node above it has the weight
(42_tree_update_engine.md R157). -/
theorem Shape.exists_leader (h : Shape s) (hn : n < s.ncount) :
    ∃ l, s.leader (s.weight n) = some l ∧ l < s.ncount ∧ s.weight l = s.weight n ∧ s.ord.idxOf n ≤ s.ord.idxOf l ∧
      ∀ m, m < s.ncount → s.ord.idxOf l < s.ord.idxOf m → s.weight m ≠ s.weight n := by
  obtain ⟨l, hl⟩ := Option.isSome_iff_exists.1 (leader_isSome (h.mem_ord.2 hn) rfl)
  obtain ⟨k, hk, hw, habove⟩ := leader_eq_some_iff.1 hl
  obtain ⟨hklt, rfl⟩ := List.getElem?_eq_some_iff.1 hk
  have hmem : s.ord[k] ∈ s.ord := List.getElem_mem hklt
  have hrank : s.ord.idxOf s.ord[k] = k := h.nodup_ord.idxOf_getElem k hklt
  have hno (m : Nat) (hm : m < s.ncount) (hkm : k < s.ord.idxOf m) : s.weight m ≠ s.weight n := by
    refine habove (s.ord.idxOf m) m hkm (List.getElem?_eq_some_iff.2 ⟨?_, List.getElem_idxOf _⟩)
    exact List.idxOf_lt_length_iff.2 (h.mem_ord.2 hm)
  refine ⟨_, hl, h.mem_ord.1 hmem, hw, ?_, fun m hm hlm => hno m hm (hrank ▸ hlm)⟩
  by_contra hlt
  exact hno n hn (by omega) rfl

/-! ## The three cases -/

/-- Where the increment is still owed to the order, the cursor's node is its own leader. -/
theorem Phase.leader_eq_of_bump (h : Phase total (some n) s) (ho : Ordered s (bump n s.weight)) (hl : l < s.ncount)
    (hw : s.weight l = s.weight n) (hle : s.ord.idxOf n ≤ s.ord.idxOf l) : l = n := by
  by_contra hne
  obtain ⟨hn, -⟩ := h.cursor n rfl
  have := ho n l hn hl hle
  rw [bump_self, bump_of_ne hne] at this
  omega

/-- A node with no equal above it can be incremented (42_tree_update_engine.md R157). -/
theorem Phase.ordered_bump_of_highest (h : Phase total (some n) s)
    (hmax : ∀ m, m < s.ncount → s.ord.idxOf n < s.ord.idxOf m → s.weight m ≠ s.weight n) :
    Ordered s (bump n s.weight) := by
  obtain ⟨hn, -⟩ := h.cursor n rfl
  rcases h.sorted with ho | ⟨_, ⟨⟩, ho⟩
  · refine ordered_bump h.shape hn ho fun m hm hlt => ?_
    exact lt_of_le_of_ne (ho n m hn hm hlt.le) (hmax m hm hlt).symm
  · exact ho

/-- The sums hold at every node but the cursor's. -/
theorem Phase.sum_of_ne (h : Phase total (some n) s) {m : Nat} (hm : m < s.ncount) (hne : m ≠ n) :
    ∀ k ∈ s.kids m, s.weight m = s.weight k.1 + s.weight k.2 := by
  intro k hk
  have hsum := h.sums m hm k hk
  rwa [owed_of_false (by simpa using hne.symm)] at hsum

/-- A node below its leader is the NYT leaf's sibling, so incrementing both in turn keeps the order. -/
theorem Phase.ordered_bump_bump (h : Phase total (some n) s) (ho : Ordered s s.weight) (hp : s.parent n = some l)
    (hw : s.weight l = s.weight n)
    (hmax : ∀ m, m < s.ncount → s.ord.idxOf l < s.ord.idxOf m → s.weight m ≠ s.weight n) :
    Ordered s (bump l (bump n s.weight)) := by
  obtain ⟨hn, hne⟩ := h.cursor n rfl
  have hs : Shape s := h.shape
  have hl : l < s.ncount := hs.parent_lt hn hp
  have hlt : s.ord.idxOf n < s.ord.idxOf l := hs.idxOf_lt_parent hn hp
  have hln : l ≠ n := by
    rintro rfl
    exact lt_irrefl _ hlt
  obtain ⟨hone, htwo⟩ := hs.ranks_of_weight_eq_parent hn hne hp (h.sum_of_ne hl hln) hw.symm
  have hheavier (m : Nat) (hm : m < s.ncount) (hlm : s.ord.idxOf l < s.ord.idxOf m) : s.weight n < s.weight m :=
    lt_of_le_of_ne (ho n m hn hm (by omega)) (hmax m hm hlm).symm
  have hleader : Ordered s (bump l s.weight) :=
    ordered_bump hs hl ho fun m hm hlm => hw ▸ hheavier m hm hlm
  rw [bump_comm]
  refine ordered_bump hs hn hleader fun m hm hnm => ?_
  rw [bump_of_ne hln.symm]
  by_cases hml : m = l
  · rw [hml, bump_self, hw]
    exact Nat.lt_succ_self _
  · have hrank : s.ord.idxOf m ≠ s.ord.idxOf l := mt (hs.idxOf_inj hm).1 hml
    rw [bump_of_ne hml]
    exact hheavier m hm (by omega)

/-- The root is the leader of the cursor's node only if it is the node or its parent. -/
theorem Phase.leader_ne_root (h : Phase total (some n) s) (ho : Ordered s s.weight) (hw : s.weight l = s.weight n)
    (hln : l ≠ n) (hp : s.parent n ≠ some l) : l ≠ s.root := by
  rintro rfl
  obtain ⟨hn, hne⟩ := h.cursor n rfl
  have hs : Shape s := h.shape
  have hsame {m : Nat} (hm : m < s.ncount) (hnm : s.ord.idxOf n ≤ s.ord.idxOf m) : s.weight m = s.weight n :=
    le_antisymm (hw ▸ ho m s.root hm hs.root_lt (hs.idxOf_le_root hm)) (ho n m hn hm hnm)
  obtain ⟨q, hq⟩ := Option.ne_none_iff_exists'.1 (mt (hs.parent_eq_none_iff hn).1 hln.symm)
  have hqlt : q < s.ncount := hs.parent_lt hn hq
  have hnq : s.ord.idxOf n < s.ord.idxOf q := hs.idxOf_lt_parent hn hq
  have hqn : q ≠ n := by
    rintro rfl
    exact lt_irrefl _ hnq
  obtain ⟨hone, htwo⟩ :=
    hs.ranks_of_weight_eq_parent hn hne hq (h.sum_of_ne hqlt hqn) (hsame hqlt hnq.le).symm
  have hqroot : q ≠ s.root := fun e => hp (e ▸ hq)
  obtain ⟨g, hg⟩ := Option.ne_none_iff_exists'.1 (mt (hs.parent_eq_none_iff hqlt).1 hqroot)
  have hglt : g < s.ncount := hs.parent_lt hqlt hg
  have hqg : s.ord.idxOf q < s.ord.idxOf g := hs.idxOf_lt_parent hqlt hg
  have hgn : g ≠ n := by
    rintro rfl
    omega
  have hqnyt : q ≠ s.nyt := by
    rintro rfl
    rw [(hs.idxOf_eq_zero_iff hqlt).2 rfl] at htwo
    cases htwo
  obtain ⟨hone', -⟩ := hs.ranks_of_weight_eq_parent hqlt hqnyt hg (h.sum_of_ne hglt hgn)
    ((hsame hqlt hnq.le).trans (hsame hglt (by omega)).symm)
  omega

/-- A leader that the cursor's node may be exchanged with has no child at or above the node. -/
theorem Phase.children_of_leader_below (h : Phase total (some n) s) (ho : Ordered s s.weight) (hl : l < s.ncount)
    (hw : s.weight l = s.weight n) (hln : l ≠ n) (hp : s.parent n ≠ some l) {c : Nat} (hc : c < s.ncount)
    (hpc : s.parent c = some l) : s.ord.idxOf c < s.ord.idxOf n := by
  by_contra hnc
  obtain ⟨hn, hne⟩ := h.cursor n rfl
  have hs : Shape s := h.shape
  have hcn : c ≠ n := by
    rintro rfl
    exact hp hpc
  have hrank : s.ord.idxOf c ≠ s.ord.idxOf n := mt (hs.idxOf_inj hc).1 hcn
  have hwc : s.weight c = s.weight l :=
    le_antisymm (ho c l hc hl (hs.idxOf_lt_parent hc hpc).le) (hw ▸ ho n c hn hc (by omega))
  have hcnyt : c ≠ s.nyt := by
    rintro rfl
    rw [(hs.idxOf_eq_zero_iff hc).2 rfl] at hnc hrank
    omega
  obtain ⟨hone, -⟩ := hs.ranks_of_weight_eq_parent hc hcnyt hpc (h.sum_of_ne hl hln) hwc
  exact hne ((hs.idxOf_eq_zero_iff hn).1 (by omega))

/-- Neither the cursor's node nor a leader that it may be exchanged with is the parent of the NYT leaf. -/
theorem Phase.parent_nyt_ne (h : Phase total (some n) s) (ho : Ordered s s.weight)
    (hlt : s.ord.idxOf n < s.ord.idxOf l) (hp : s.parent n ≠ some l) :
    s.parent s.nyt ≠ some n ∧ s.parent s.nyt ≠ some l := by
  obtain ⟨hn, hne⟩ := h.cursor n rfl
  have hs : Shape s := h.shape
  constructor
  · intro hpn
    obtain ⟨hk, hone, htwo⟩ := hs.ranks_around_nyt hpn
    obtain ⟨-, hsib, -⟩ := hs.children hn hk
    have hsum : s.weight n + owed (some n = some n) = s.weight s.nyt + s.weight (s.nodeAt 1) := h.sums n hn _ hk
    have hzero : s.weight s.nyt = 0 := (hs.weight_eq_zero_iff hs.nyt_lt).2 rfl
    have hle := ho _ n hsib hn (by omega)
    rw [owed_of_true rfl] at hsum
    omega
  · intro hpl
    obtain ⟨hk, hone, htwo⟩ := hs.ranks_around_nyt hpl
    obtain ⟨-, hsib, -, -, hpsib⟩ := hs.children (hs.parent_lt hs.nyt_lt hpl) hk
    have hpos : s.ord.idxOf n ≠ 0 := mt (hs.idxOf_eq_zero_iff hn).1 hne
    have hnsib : n = s.nodeAt 1 := (hs.idxOf_inj hn).1 (by omega)
    exact hp (hnsib ▸ hpsib)

/-- A renaming of the cursor's node and another node of its weight keeps the phase where it keeps the shape. -/
theorem phase_of_renamed (h : Phase total (some n) s) (ho : Ordered s s.weight) (hl : l < s.ncount)
    (hw : s.weight l = s.weight n) (hr : Renamed n l s t) (ht : Shape t) : Phase total (some n) t := by
  obtain ⟨hn, -⟩ := h.cursor n rfl
  obtain ⟨hwidth, hroot, hnyt, hncount, -⟩ := hr.frame
  refine ⟨ht, fun m hm k hk => ?_, .inl fun a b ha hb hab => ?_, ?_, hwidth ▸ h.width, fun _ hc => ?_⟩
  · rw [hncount] at hm
    rw [hr.kids m hm] at hk
    obtain ⟨⟨x, y⟩, hxy, rfl⟩ := Option.map_eq_some_iff.1 hk
    rw [hr.weight, hr.weight, hr.weight, Prod.map_fst, Prod.map_snd, weight_swap hw.symm, weight_swap hw.symm]
    exact h.sums m hm (x, y) hxy
  · rw [hncount] at ha hb
    rw [hr.idxOf, hr.idxOf] at hab
    rw [hr.weight, hr.weight, ← weight_swap hw.symm a, ← weight_swap hw.symm b]
    exact ho _ _ ((swap_lt_iff hn hl).2 ha) ((swap_lt_iff hn hl).2 hb) hab
  · rw [hroot, hr.weight]
    exact h.root
  · rw [hncount, hnyt]
    exact h.cursor _ hc

/-- The exchange of the cursor's node with its leader completes and keeps the phase. -/
theorem exists_swap_of_phase (h : Phase total (some n) s) (ho : Ordered s s.weight) (hl : l < s.ncount)
    (hw : s.weight l = s.weight n) (hlt : s.ord.idxOf n < s.ord.idxOf l) (hp : s.parent n ≠ some l) :
    ∃ t, s.swap n l = .ok t ∧ Renamed n l s t ∧ Phase total (some n) t := by
  obtain ⟨hn, hne⟩ := h.cursor n rfl
  have hs : Shape s := h.shape
  have hln : l ≠ n := by
    rintro rfl
    exact lt_irrefl _ hlt
  have hlroot : l ≠ s.root := h.leader_ne_root ho hw hln hp
  have hnroot : n ≠ s.root := by
    rintro rfl
    exact absurd (hs.idxOf_le_root hl) (Nat.not_le.2 hlt)
  have hlnyt : l ≠ s.nyt := by
    rintro rfl
    rw [(hs.idxOf_eq_zero_iff hl).2 rfl] at hlt
    exact Nat.not_lt_zero _ hlt
  obtain ⟨pn, hpn⟩ := Option.ne_none_iff_exists'.1 (mt (hs.parent_eq_none_iff hn).1 hnroot)
  obtain ⟨pl, hpl⟩ := Option.ne_none_iff_exists'.1 (mt (hs.parent_eq_none_iff hl).1 hlroot)
  obtain ⟨sn, hsn⟩ := hs.exists_childSide hn hpn
  obtain ⟨sl, hsl⟩ := hs.exists_childSide hl hpl
  have hkn := rank_of_mem hs.nodup_ord (hs.mem_ord.2 hn)
  have hkl := rank_of_mem hs.nodup_ord (hs.mem_ord.2 hl)
  have hr := renamed_exchange hs hln.symm hkn hkl hpn hpl hsn hsl
  refine ⟨_, swap_ok hkn hkl hpn hpl hsn hsl, hr, phase_of_renamed h ho hl hw hr ?_⟩
  refine shape_of_sameBut hs hr.frame (fun m _ => by rw [hr.weight]) (hr.orderPermutation hs hn hl)
    (hr.linkLaw hs hn hl hnroot hlroot) (hr.rankLaw hs hn hl hlt ?_ ⟨hnroot, hlroot⟩ ⟨hne, hlnyt⟩
      (h.parent_nyt_ne ho hlt hp))
  exact fun c => h.children_of_leader_below ho hl hw hln hp

/-! ## The visit -/

/-- The state `t` is `s` after `enforce` at the cursor `n`: the phase still stands at `n`, which ranks no lower, and goes on
at its parent after the increment. -/
structure Visited (total n : Nat) (s t : State) : Prop where
  frame : SameBut s t
  here  : Phase total (some n) t
  next  : Phase total (t.parent n) (t.increment n)
  rank  : s.ord.idxOf n ≤ t.ord.idxOf n

/-- Without an exchange the increment follows in the same state. -/
theorem visited_self (h : Phase total (some n) s)
    (ho : Ordered s (bump n s.weight) ∨ ∃ p, s.parent n = some p ∧ Ordered s (bump p (bump n s.weight))) :
    Visited total n s s :=
  ⟨.refl s, h, phase_increment h ho, le_rfl⟩

/-- After the exchange with its leader the cursor's node is its own leader. -/
theorem visited_of_renamed (h : Phase total (some n) t) (hr : Renamed n l s t) (hn : n < s.ncount) (hl : l < s.ncount)
    (hw : s.weight l = s.weight n) (hle : s.ord.idxOf n ≤ s.ord.idxOf l)
    (hmax : ∀ m, m < s.ncount → s.ord.idxOf l < s.ord.idxOf m → s.weight m ≠ s.weight n) : Visited total n s t := by
  have hrank : t.ord.idxOf n = s.ord.idxOf l := by rw [hr.idxOf, Equiv.swap_apply_left]
  obtain ⟨-, -, -, hncount, -⟩ := hr.frame
  refine ⟨hr.frame, h, phase_increment h (.inl (h.ordered_bump_of_highest fun m hm hnm => ?_)), hrank ▸ hle⟩
  rw [hrank, hr.idxOf] at hnm
  rw [hr.weight, hr.weight, ← weight_swap hw.symm m]
  exact hmax _ ((swap_lt_iff hn hl).2 (hncount ▸ hm)) hnm

/-- Every visit of an increment phase completes. -/
theorem exists_visited (h : Phase total (some n) s) : ∃ t, s.enforce n = .ok t ∧ Visited total n s t := by
  obtain ⟨hn, -⟩ := h.cursor n rfl
  have hs : Shape s := h.shape
  obtain ⟨l, hlead, hl, hw, hle, hmax⟩ := hs.exists_leader hn
  rw [enforce_of_leader hlead]
  by_cases hln : l = n
  · subst hln
    exact ⟨s, by simp [State.swapAllowed], visited_self h (.inl (h.ordered_bump_of_highest hmax))⟩
  · have ho : Ordered s s.weight := by
      rcases h.sorted with ho | ⟨_, ⟨⟩, ho⟩
      · exact ho
      · exact absurd (h.leader_eq_of_bump ho hl hw hle) hln
    have hlt : s.ord.idxOf n < s.ord.idxOf l := lt_of_le_of_ne hle (mt (hs.idxOf_inj hn).1 (Ne.symm hln))
    by_cases hp : s.parent n = some l
    · exact ⟨s, by simp [State.swapAllowed, hp], visited_self h (.inr ⟨l, hp, h.ordered_bump_bump ho hp hw hmax⟩)⟩
    · have hnotChild : s.parent l ≠ some n := fun hpl => absurd (hs.idxOf_lt_parent hl hpl) (Nat.not_lt.2 hle)
      obtain ⟨t, ht, hr, hphase⟩ := exists_swap_of_phase h ho hl hw hlt hp
      exact ⟨t, by rw [if_pos (swapAllowed_iff.2 ⟨hln, hp, hnotChild⟩), ht],
        visited_of_renamed hphase hr hn hl hw hle hmax⟩

/-- An increment phase ends in a sound state in which the root has its new weight: each visit leads to a higher rank
(42_tree_update_engine.md R161). -/
theorem incrementPhase_of_phase {fuel : Nat} {cur : Option Nat} (h : Phase total cur s)
    (hfuel : ∀ n, cur = some n → s.ncount ≤ fuel + s.ord.idxOf n) :
    ∃ t, State.incrementPhase fuel cur s = .ok t ∧ Phase total none t := by
  induction fuel generalizing cur s with
  | zero =>
    rcases cur with _ | n
    · exact ⟨s, by rw [State.incrementPhase], h⟩
    · have hlt : s.ord.idxOf n < s.ncount := h.shape.idxOf_lt (h.cursor n rfl).1
      have hge : s.ncount ≤ 0 + s.ord.idxOf n := hfuel n rfl
      omega
  | succ fuel ih =>
    rcases cur with _ | n
    · exact ⟨s, by rw [State.incrementPhase], h⟩
    · obtain ⟨t, ht, hv⟩ := exists_visited h
      obtain ⟨-, -, -, hncount, -⟩ := hv.frame
      have hcursor : (t.increment n).ascend n = t.parent n := parent_increment n n
      rw [State.incrementPhase, ht]
      refine ih (hcursor ▸ hv.next) fun p hp => ?_
      have hup : t.ord.idxOf n < t.ord.idxOf p :=
        hv.here.shape.idxOf_lt_parent (hv.here.cursor n rfl).1 (hcursor ▸ hp)
      have hge : s.ncount ≤ fuel + 1 + s.ord.idxOf n := hfuel n rfl
      have hle : s.ord.idxOf n ≤ t.ord.idxOf n := hv.rank
      rw [ncount_increment, ord_increment, hncount]
      omega

end Sys2Proof.Proofs
end

