-- ==== Sys2Proof/Proofs/SplitPhase.lean ====
section
/-! PROOFS. A split (42_tree_update_engine.md R154, R155) of a sound state is the start of an increment phase at the NYT leaf's
former parent: the new internal node stands in the NYT leaf's place, two ranks higher like every other node. -/

namespace Sys2Proof.Proofs

open Sys2Proof.Machine Sys2Proof.Laws

/-! ## Room for two more nodes -/

section Room

/-- A symbol without an entry is no key of the table. -/
theorem ne_of_indexLookup_eq_none {m : SymIndex} {y : Sym} (h : indexLookup y m = none) : ∀ e ∈ m, e.1 ≠ y := by
  induction m with
  | nil => simp
  | cons e m ih =>
    obtain ⟨k, g⟩ := e
    by_cases hk : k = y
    · simp [indexLookup, hk] at h
    · simp only [indexLookup, hk, if_false] at h
      simpa [hk] using ih h

/-- While a symbol is unseen at most 255 others are seen (42_tree_update_engine.md R153). -/
theorem length_le_of_unseen {m : SymIndex} {y : Sym} (hwf : SymIndex.wf m = true) (h : indexLookup y m = none) :
    m.length ≤ 255 := by
  have hkeys : (m.map fun e => e.1.toNat).Pairwise (· < ·) := by simpa [SymIndex.wf] using hwf
  have hnodup : (y.toNat :: m.map fun e => e.1.toNat).Nodup := by
    refine List.nodup_cons.2 ⟨fun hmem => ?_, hkeys.imp Nat.ne_of_lt⟩
    obtain ⟨e, he, hey⟩ := List.mem_map.1 hmem
    exact ne_of_indexLookup_eq_none h e he (BitVec.eq_of_toNat_eq hey)
  have hsub : (y.toNat :: m.map fun e => e.1.toNat) ⊆ List.range 256 := by
    intro v hv
    rw [List.mem_range]
    rcases List.mem_cons.1 hv with rfl | hv
    · exact y.isLt
    · obtain ⟨e, -, rfl⟩ := List.mem_map.1 hv
      exact e.1.isLt
  have hle := (List.subperm_of_subset hnodup hsub).length_le
  rw [List.length_cons, List.length_map, List.length_range] at hle
  omega

end Room

/-! ## The tree after a split -/

/-- The node that a split leaves in the place of `n`: the new internal node in that of the NYT leaf
(42_tree_update_engine.md R154). -/
def heir (s : State) (n : Nat) : Nat := if n = s.nyt then s.ncount else n

section SplitTree

variable {s t : State} {y : Sym} {cur : Option Nat} {n m p : Nat}

@[simp] theorem heir_nyt (s : State) : heir s s.nyt = s.ncount := if_pos rfl

theorem heir_of_ne (h : n ≠ s.nyt) : heir s n = n := if_neg h

theorem heir_lt (hn : n < s.ncount) : heir s n < s.ncount + 1 := by
  unfold heir
  split <;> omega

theorem heir_ne_nyt (hs : Inv s) (n : Nat) : heir s n ≠ s.nyt := by
  have := nyt_lt hs
  unfold heir
  split <;> omega

theorem heir_inj (hn : n < s.ncount) (hm : m < s.ncount) : heir s n = heir s m ↔ n = m := by
  unfold heir
  split <;> split <;> omega

/-- After a split every node is the NYT leaf, the new leaf, or stands in an old node's place. -/
theorem eq_heir_of_lt (hs : Inv s) (hn : n < s.ncount + 2) :
    n = s.nyt ∨ n = s.ncount + 1 ∨ ∃ m, m < s.ncount ∧ n = heir s m := by
  by_cases hnyt : n = s.nyt
  · exact .inl hnyt
  · by_cases hlt : n < s.ncount
    · exact .inr (.inr ⟨n, hlt, (heir_of_ne hnyt).symm⟩)
    · by_cases hi : n = s.ncount
      · exact .inr (.inr ⟨s.nyt, nyt_lt hs, by rw [heir_nyt, hi]⟩)
      · exact .inr (.inl (by omega))

/-- An old entry keeps all but its parent, which changes at the NYT leaf, and its children, which are replaced by their
heirs. -/
theorem fields_split_old (hs : Inv s) (h : s.split y = .ok (t, cur)) (hn : n < s.ncount) :
    t.weight n = s.weight n ∧ t.sym n = s.sym n ∧ t.parent n = (if n = s.nyt then some s.ncount else s.parent n) ∧
      t.kids n = (s.kids n).map (Prod.map (heir s) (heir s)) := by
  have hshape : Shape s := shape_of_inv hs
  simp only [State.weight, State.sym, State.parent, State.kids]
  by_cases hnyt : n = s.nyt
  · subst hnyt
    have hleaf : (s.node s.nyt).kids = none := hshape.kids_nyt
    rw [node_split_nyt hs h, hleaf]
    simp
  · by_cases hp : s.parent s.nyt = some n
    · have hk : (s.node n).kids = some (s.nyt, s.nodeAt 1) := kids_parent_nyt hs hp
      obtain ⟨-, -, hne, -⟩ := hshape.children hn hk
      rw [(node_split_parent hs h hp hk).2, hk]
      simp [hnyt, heir_of_ne hne.symm]
    · rw [node_split_old hs h hn hnyt hp]
      refine ⟨rfl, rfl, (if_neg hnyt).symm, ?_⟩
      rcases hk : (s.node n).kids with _ | ⟨l, r⟩
      · rfl
      · obtain ⟨hl, hr⟩ := hshape.ne_of_parent_ne hn hk hp
        rw [Option.map_some, Prod.map_apply, heir_of_ne hl, heir_of_ne hr]

theorem fields_split_internal (hs : Inv s) (h : s.split y = .ok (t, cur)) :
    t.weight s.ncount = 1 ∧ t.sym s.ncount = none ∧ t.parent s.ncount = s.parent s.nyt ∧
      t.kids s.ncount = some (s.nyt, s.ncount + 1) := by
  simp only [State.weight, State.sym, State.parent, State.kids, node_split_internal hs h, and_self]

theorem fields_split_leaf (hs : Inv s) (h : s.split y = .ok (t, cur)) :
    t.weight (s.ncount + 1) = 1 ∧ t.sym (s.ncount + 1) = some y ∧ t.parent (s.ncount + 1) = some s.ncount ∧
      t.kids (s.ncount + 1) = none := by
  simp only [State.weight, State.sym, State.parent, State.kids, node_split_leaf hs h, and_self]

/-- An heir has the parent of the node whose place it has. -/
theorem parent_heir (hs : Inv s) (h : s.split y = .ok (t, cur)) (hn : n < s.ncount) :
    t.parent (heir s n) = s.parent n := by
  by_cases hnyt : n = s.nyt
  · subst hnyt
    obtain ⟨-, -, hp, -⟩ := fields_split_internal hs h
    rw [heir_nyt, hp]
  · obtain ⟨-, -, hp, -⟩ := fields_split_old hs h hn
    rw [heir_of_ne hnyt, hp, if_neg hnyt]

/-- An heir has the weight of the node whose place it has, but for the new internal node's 1. -/
theorem weight_heir (hs : Inv s) (h : s.split y = .ok (t, cur)) (hn : n < s.ncount) :
    t.weight (heir s n) = bump s.nyt s.weight n := by
  by_cases hnyt : n = s.nyt
  · subst hnyt
    obtain ⟨hw, -⟩ := fields_split_internal hs h
    rw [heir_nyt, hw, bump_self, ((shape_of_inv hs).weight_eq_zero_iff hn).2 rfl]
  · obtain ⟨hw, -⟩ := fields_split_old hs h hn
    rw [heir_of_ne hnyt, hw, bump_of_ne hnyt]

/-- The root after a split stands in the place of the root before. -/
theorem root_split (hs : Inv s) (h : s.split y = .ok (t, cur)) : t.root = heir s s.root := by
  rcases hp : s.parent s.nyt with _ | p
  · rw [root_split_of_parent_none hs h hp, ← (parent_eq_none_iff hs (nyt_lt hs)).1 hp, heir_nyt]
  · have hne : s.root ≠ s.nyt := by
      intro e
      cases ((parent_eq_none_iff hs (nyt_lt hs)).2 e.symm).symm.trans hp
    rw [heir_of_ne hne, (node_split_parent hs h hp (kids_parent_nyt hs hp)).1]

theorem length_nodes_split (h : s.split y = .ok (t, cur)) : t.nodes.length = s.nodes.length + 2 := by
  obtain ⟨-, u, hu, rfl⟩ := split_cases h
  have hnodes : u.nodes.length = (withNewPair s y).nodes.length := by
    rcases giveNytPlace_cases hu with ⟨-, rfl⟩ | ⟨q, d, -, -, rfl⟩
    · rfl
    · exact length_setChild ..
  exact hnodes.trans (length_withNewPair s y)

/-- The order sequence of a sound state begins with the NYT leaf. -/
theorem ord_eq_cons (hs : Inv s) : ∃ rest, s.ord = s.nyt :: rest := by
  have hne : s.ord ≠ [] := List.ne_nil_of_mem ((Inv.mem_ord hs).2 (nyt_lt hs))
  obtain ⟨n, rest, hord⟩ := List.exists_cons_of_ne_nil hne
  obtain ⟨hfirst, -⟩ := hs.ranks
  rw [State.nodeAt, hord] at hfirst
  exact ⟨rest, hord.trans (congrArg (· :: rest) hfirst)⟩

/-- The order sequence after a split (42_tree_update_engine.md R155). -/
theorem ord_split (h : s.split y = .ok (t, cur)) {rest : List Nat} (hord : s.ord = s.nyt :: rest) :
    t.ord = s.nyt :: (s.ncount + 1) :: s.ncount :: rest := by
  obtain ⟨-, -, -, -, -, -, hto⟩ := fields_split h
  rw [hto, ord_orderInsert, hord]
  rfl

/-- The ranks after a split: the NYT leaf stays, the new leaf follows, and the heirs stand two ranks higher. -/
theorem idxOf_split (hs : Inv s) (h : s.split y = .ok (t, cur)) :
    t.ord.idxOf s.nyt = 0 ∧ t.ord.idxOf (s.ncount + 1) = 1 ∧
      ∀ n, n < s.ncount → t.ord.idxOf (heir s n) = s.ord.idxOf n + 2 := by
  have hlt : s.nyt < s.ncount := nyt_lt hs
  obtain ⟨rest, hord⟩ := ord_eq_cons hs
  have hleaf : s.nyt ≠ s.ncount + 1 := by omega
  rw [ord_split h hord, hord]
  refine ⟨List.idxOf_cons_self, ?_, fun n hn => ?_⟩
  · rw [List.idxOf_cons_ne _ hleaf, List.idxOf_cons_self]
  · by_cases hnyt : n = s.nyt
    · subst hnyt
      rw [heir_nyt, List.idxOf_cons_ne _ hlt.ne, List.idxOf_cons_ne _ (Nat.succ_ne_self _), List.idxOf_cons_self,
        List.idxOf_cons_self]
    · rw [heir_of_ne hnyt, List.idxOf_cons_ne _ (Ne.symm hnyt), List.idxOf_cons_ne _ (by omega),
        List.idxOf_cons_ne _ hn.ne', List.idxOf_cons_ne _ (Ne.symm hnyt)]

end SplitTree

/-! ## The laws after a split -/

section SplitLaws

variable {s t : State} {y : Sym} {cur : Option Nat}

/-- An allocated entry after a split is an old one or one of the new pair. -/
theorem lt_add_two_cases {n N : Nat} (h : n < N + 2) : n < N ∨ n = N ∨ n = N + 1 := by omega

theorem countLaw_split (hs : Inv s) (hy : s.lookup y = none) (h : s.split y = .ok (t, cur)) : CountLaw t := by
  obtain ⟨hncount, -⟩ := fields_split h
  obtain ⟨hlen, hcount, -⟩ := hs.count
  have hroom : s.sidx.length ≤ 255 := length_le_of_unseen hs.index hy
  have hsidx : t.sidx.length = s.sidx.length + 1 := by rw [sidx_split h, length_indexBind hy]
  refine ⟨by rw [length_nodes_split h, hncount, hlen], by omega, ?_⟩
  unfold Config.maxNodes
  omega

theorem orderPermutation_split (hs : Inv s) (h : s.split y = .ok (t, cur)) : OrderPermutation t := by
  obtain ⟨hncount, -⟩ := fields_split h
  obtain ⟨rest, hord⟩ := ord_eq_cons hs
  have hperm : (s.nyt :: rest).Perm (List.range s.ncount) := hord ▸ hs.order
  rw [OrderPermutation, ord_split h hord, hncount, List.range_succ, List.range_succ, List.append_assoc]
  calc List.Perm (s.nyt :: (s.ncount + 1) :: s.ncount :: rest) ((s.ncount + 1) :: s.ncount :: s.nyt :: rest) :=
        (List.Perm.swap ..).trans ((List.Perm.swap ..).cons _)
    List.Perm _ (s.ncount :: (s.ncount + 1) :: s.nyt :: rest) := .swap ..
    List.Perm _ ([s.ncount, s.ncount + 1] ++ List.range s.ncount) := hperm.append_left [s.ncount, s.ncount + 1]
    List.Perm _ (List.range s.ncount ++ ([s.ncount] ++ [s.ncount + 1])) := List.perm_append_comm

theorem kindLaw_split (hs : Inv s) (h : s.split y = .ok (t, cur)) : KindLaw t := by
  obtain ⟨hncount, -⟩ := fields_split h
  obtain ⟨-, hcount, -⟩ := hs.count
  intro n hn
  rw [hncount] at hn
  rcases lt_add_two_cases hn with hn | rfl | rfl
  · obtain ⟨hw, hsym, -, hk⟩ := fields_split_old hs h hn
    rw [hw, hsym, hk, Option.isSome_map]
    exact hs.kinds n hn
  · obtain ⟨hw, hsym, -, hk⟩ := fields_split_internal hs h
    rw [hw, hsym, hk]
    simp
    omega
  · obtain ⟨hw, hsym, -, hk⟩ := fields_split_leaf hs h
    rw [hw, hsym, hk]
    simp
    omega

theorem childSide_split (hs : Inv s) (h : s.split y = .ok (t, cur)) {p n : Nat} (hp : p < s.ncount) (hn : n < s.ncount) :
    t.childSide p (heir s n) = s.childSide p n := by
  obtain ⟨-, -, -, hk⟩ := fields_split_old hs h hp
  rw [State.childSide, State.childSide, hk]
  rcases hk : s.kids p with _ | ⟨l, r⟩
  · rfl
  · obtain ⟨hl, hr, -⟩ := children_of_kids hs hp hk
    simp only [Option.map_some, Prod.map_apply, heir_inj hl hn, heir_inj hr hn]

/-- After a split the children of a node point back to it (10_state.md R31). -/
theorem children_split (hs : Inv s) (h : s.split y = .ok (t, cur)) {p l r : Nat} (hp : p < s.ncount + 2)
    (hk : t.kids p = some (l, r)) :
    l < s.ncount + 2 ∧ r < s.ncount + 2 ∧ l ≠ r ∧ t.parent l = some p ∧ t.parent r = some p := by
  have hnyt : s.nyt < s.ncount := nyt_lt hs
  rcases lt_add_two_cases hp with hp | rfl | rfl
  · obtain ⟨-, -, -, hkp⟩ := fields_split_old hs h hp
    rw [hkp] at hk
    obtain ⟨⟨l', r'⟩, hlr, he⟩ := Option.map_eq_some_iff.1 hk
    cases he
    obtain ⟨hl, hr, hne, hpl, hpr⟩ := children_of_kids hs hp hlr
    exact ⟨Nat.lt_succ_of_lt (heir_lt hl), Nat.lt_succ_of_lt (heir_lt hr), mt (heir_inj hl hr).1 hne,
      (parent_heir hs h hl).trans hpl, (parent_heir hs h hr).trans hpr⟩
  · obtain ⟨-, -, hpnyt, -⟩ := fields_split_old hs h hnyt
    obtain ⟨-, -, -, hki⟩ := fields_split_internal hs h
    obtain ⟨-, -, hpf, -⟩ := fields_split_leaf hs h
    cases hki.symm.trans hk
    exact ⟨by omega, by omega, by omega, hpnyt.trans (if_pos rfl), hpf⟩
  · obtain ⟨-, -, -, hkf⟩ := fields_split_leaf hs h
    cases hkf.symm.trans hk

theorem linkLaw_split (hs : Inv s) (h : s.split y = .ok (t, cur)) : LinkLaw t := by
  obtain ⟨hncount, -⟩ := fields_split h
  have hroot : t.root = heir s s.root := root_split hs h
  have hnyt : s.nyt < s.ncount := nyt_lt hs
  obtain ⟨-, -, hpnyt, -⟩ := fields_split_old hs h hnyt
  obtain ⟨-, -, -, hki⟩ := fields_split_internal hs h
  obtain ⟨-, -, hpf, -⟩ := fields_split_leaf hs h
  have hrlt : heir s s.root < s.ncount + 1 := heir_lt (Inv.root_lt hs)
  have hne : s.nyt ≠ s.ncount + 1 := by omega
  rw [if_pos rfl] at hpnyt
  refine ⟨by omega, fun n hn => ?_, fun p hp k hk => ?_, fun n hn p hp => ?_⟩
  · rw [hncount] at hn
    rw [hroot]
    rcases eq_heir_of_lt hs hn with rfl | rfl | ⟨m, hm, rfl⟩
    · rw [hpnyt]
      simpa using (heir_ne_nyt hs s.root).symm
    · rw [hpf]
      simp
      omega
    · rw [parent_heir hs h hm, heir_inj hm (Inv.root_lt hs), parent_eq_none_iff hs hm]
  · rw [hncount] at hp ⊢
    exact children_split hs h hp hk
  · rw [hncount] at hn
    rcases eq_heir_of_lt hs hn with rfl | rfl | ⟨m, hm, rfl⟩
    · cases hpnyt.symm.trans hp
      exact ⟨by omega, by simp [State.childSide, hki, hne.symm]⟩
    · cases hpf.symm.trans hp
      exact ⟨by omega, by simp [State.childSide, hki, hne]⟩
    · have hp' : s.parent m = some p := (parent_heir hs h hm).symm.trans hp
      have hplt : p < s.ncount := Inv.parent_lt hs hm hp'
      obtain ⟨d, hd⟩ := exists_childSide hs hm hp'
      exact ⟨by omega, by rw [childSide_split hs h hplt hm, hd, Option.isSome_some]⟩

theorem nytLaw_split (hs : Inv s) (h : s.split y = .ok (t, cur)) : NytLaw t := by
  obtain ⟨hncount, hnyt, -⟩ := fields_split h
  obtain ⟨hlt, honly, hzero⟩ := hs.nyt
  obtain ⟨hwnyt, -⟩ := fields_split_old hs h hlt
  refine ⟨by omega, fun n hn => ?_, by rw [hnyt, hwnyt, hzero]⟩
  rw [hncount] at hn
  rw [hnyt]
  rcases lt_add_two_cases hn with hn | rfl | rfl
  · obtain ⟨-, hsym, -, hk⟩ := fields_split_old hs h hn
    rw [hsym, hk, Option.map_eq_none_iff]
    exact honly n hn
  · obtain ⟨-, -, -, hk⟩ := fields_split_internal hs h
    rw [hk]
    simp
    omega
  · obtain ⟨-, hsym, -⟩ := fields_split_leaf hs h
    rw [hsym]
    simp
    omega

theorem indexAgrees_split (hs : Inv s) (hy : s.lookup y = none) (h : s.split y = .ok (t, cur)) : IndexAgrees t := by
  obtain ⟨hncount, -⟩ := fields_split h
  obtain ⟨hleaves, hentries⟩ := hs.agrees
  obtain ⟨-, hsymi, -, hki⟩ := fields_split_internal hs h
  obtain ⟨-, hsymf, -, hkf⟩ := fields_split_leaf hs h
  refine ⟨fun n hn hk z hz => ?_, fun e he => ?_⟩
  · rw [hncount] at hn
    rw [lookup_split_eq h]
    rcases lt_add_two_cases hn with hn | rfl | rfl
    · obtain ⟨-, hsym, -, hkids⟩ := fields_split_old hs h hn
      have hz' : s.lookup z = some n :=
        hleaves n hn (Option.map_eq_none_iff.1 (hkids.symm.trans hk)) z (hsym ▸ hz)
      rw [if_neg, hz']
      rintro rfl
      cases hy.symm.trans hz'
    · cases hki.symm.trans hk
    · cases hsymf.symm.trans hz
      rw [if_pos rfl]
  · rw [hncount]
    rw [sidx_split h] at he
    rcases mem_indexBind he with rfl | he
    · exact ⟨by omega, hkf, hsymf⟩
    · obtain ⟨hlt, hk, hsym⟩ := hentries e he
      obtain ⟨-, hsym', -, hk'⟩ := fields_split_old hs h hlt
      exact ⟨by omega, by rw [hk', hk, Option.map_none], hsym'.trans hsym⟩

/-- Two leaves have different symbols because the index gives one leaf for each (10_state.md R38). -/
theorem leafSymbols_of (hn : NytLaw t) (ha : IndexAgrees t) : LeafSymbols t := by
  obtain ⟨-, honly, -⟩ := hn
  obtain ⟨hleaves, -⟩ := ha
  refine ⟨fun n hn hk hne => ?_, fun n hn m hm ⟨hne, hkn, hkm⟩ => ?_⟩
  · exact Option.isSome_iff_ne_none.2 fun hsym => hne ((honly n hn).1 ⟨hk, hsym⟩)
  · rcases hsym : t.sym n with _ | z
    · exact .inl rfl
    · refine .inr fun he => hne ?_
      exact Option.some.inj ((hleaves n hn hkn z hsym).symm.trans (hleaves m hm hkm z he.symm))

theorem registerLaw_split (hs : Inv s) (h : s.split y = .ok (t, cur)) : RegisterLaw t := by
  obtain ⟨hncount, hnyt, -⟩ := fields_split h
  obtain ⟨hzero, hroot⟩ := hs.registers
  have hpos : 0 < s.ncount := Nat.zero_lt_of_lt (nyt_lt hs)
  refine ⟨hnyt.trans hzero, ?_⟩
  rw [root_split hs h, heir, hroot, hzero, hncount, if_neg (by omega : s.ncount + 2 ≠ 1)]
  split <;> split <;> omega

/-- The highest rank holds the root before and after a split. -/
theorem nodeAt_last_split (hs : Inv s) (h : s.split y = .ok (t, cur)) : t.nodeAt (t.ncount - 1) = t.root := by
  obtain ⟨hncount, -, -, -, -, -, hord⟩ := fields_split h
  have hne : s.ord ≠ [] := List.ne_nil_of_mem ((Inv.mem_ord hs).2 (nyt_lt hs))
  obtain ⟨-, -, hat2, habove⟩ := nodeAt_orderInsert (f := s.ncount + 1) (i := s.ncount) hne
  obtain ⟨-, hlast, -⟩ := hs.ranks
  rw [nodeAt_congr hord, root_split hs h, hncount]
  by_cases hone : s.ncount = 1
  · have hroot : s.root = s.nyt := by
      have hrlt : s.root < s.ncount := Inv.root_lt hs
      have hnlt : s.nyt < s.ncount := nyt_lt hs
      omega
    have htop : s.ncount + 2 - 1 = 2 := by omega
    rw [hroot, heir_nyt, htop, hat2]
  · have hroot : s.root ≠ s.nyt := by
      obtain ⟨hzero, hroot⟩ := hs.registers
      rw [hroot, hzero, if_neg hone]
      decide
    have htop : s.ncount + 2 - 1 = (s.ncount - 1) + 2 := by
      have hnlt : s.nyt < s.ncount := nyt_lt hs
      omega
    rw [heir_of_ne hroot, ← hlast, htop]
    exact habove (s.ncount - 1) (by omega)

theorem rankLaw_split (hs : Inv s) (h : s.split y = .ok (t, cur)) : RankLaw t := by
  obtain ⟨hncount, hnyt, -, -, -, -, hord⟩ := fields_split h
  have hlt : s.nyt < s.ncount := nyt_lt hs
  have hne : s.ord ≠ [] := List.ne_nil_of_mem ((Inv.mem_ord hs).2 hlt)
  obtain ⟨hat0, hat1, hat2, -⟩ := nodeAt_orderInsert (f := s.ncount + 1) (i := s.ncount) hne
  obtain ⟨hidxnyt, hidxf, hidx⟩ := idxOf_split hs h
  obtain ⟨-, -, hpnyt, -⟩ := fields_split_old hs h hlt
  obtain ⟨-, -, hpi, hki⟩ := fields_split_internal hs h
  obtain ⟨-, -, hpf, -⟩ := fields_split_leaf hs h
  have hidxi : t.ord.idxOf s.ncount = s.ord.idxOf s.nyt + 2 := heir_nyt s ▸ hidx s.nyt hlt
  obtain ⟨hfirst, -, hparent, -⟩ := hs.ranks
  rw [if_pos rfl] at hpnyt
  refine ⟨by rw [nodeAt_congr hord, hat0, hfirst, hnyt], nodeAt_last_split hs h, fun n hn p hp => ?_, fun p hp => ?_⟩
  · rw [hncount] at hn
    rcases eq_heir_of_lt hs hn with rfl | rfl | ⟨m, hm, rfl⟩
    · cases hpnyt.symm.trans hp
      omega
    · cases hpf.symm.trans hp
      omega
    · have hp' : s.parent m = some p := (parent_heir hs h hm).symm.trans hp
      have hpne : p ≠ s.nyt := by
        obtain ⟨d, hd⟩ := exists_childSide hs hm hp'
        exact ne_nyt_of_childSide hs hd
      have hidxp : t.ord.idxOf p = s.ord.idxOf p + 2 := by
        rw [← hidx p (Inv.parent_lt hs hm hp'), heir_of_ne hpne]
      rw [hidx m hm, hidxp]
      exact Nat.add_lt_add_right (hparent m hm p hp') 2
  · rw [hnyt] at hp ⊢
    cases hpnyt.symm.trans hp
    exact ⟨(nodeAt_congr hord 2).trans hat2, by rw [hki, nodeAt_congr hord, hat1]⟩

theorem shape_split (hs : Inv s) (hy : s.lookup y = none) (h : s.split y = .ok (t, cur)) : Shape t where
  count := countLaw_split hs hy h
  order := orderPermutation_split hs h
  kinds := kindLaw_split hs h
  links := linkLaw_split hs h
  nyt := nytLaw_split hs h
  symbols := leafSymbols_of (nytLaw_split hs h) (indexAgrees_split hs hy h)
  agrees := indexAgrees_split hs hy h
  index := by
    rw [sidx_split h]
    exact indexBind_wf y _ hs.index
  registers := registerLaw_split hs h
  ranks := rankLaw_split hs h

/-! ## The phase after a split -/

/-- The NYT leaf's place weighs one more, which its former parent is owed. -/
theorem sums_split (hs : Inv s) (h : s.split y = .ok (t, cur)) {m : Nat} (hm : m < t.ncount) :
    ∀ k ∈ t.kids m, t.weight m + owed (s.parent s.nyt = some m) = t.weight k.1 + t.weight k.2 := by
  obtain ⟨hncount, -⟩ := fields_split h
  have hlt : s.nyt < s.ncount := nyt_lt hs
  obtain ⟨hwnyt, -⟩ := fields_split_old hs h hlt
  obtain ⟨hwi, -, -, hki⟩ := fields_split_internal hs h
  obtain ⟨hwf, -, -, hkf⟩ := fields_split_leaf hs h
  obtain ⟨-, -, hzero⟩ := hs.nyt
  intro k hk
  rw [hncount] at hm
  rcases lt_add_two_cases hm with hm | rfl | rfl
  · obtain ⟨hw, -, -, hkm⟩ := fields_split_old hs h hm
    rw [hkm] at hk
    obtain ⟨⟨l, r⟩, hlr, rfl⟩ := Option.map_eq_some_iff.1 hk
    obtain ⟨hl, hr, hne, hpl, hpr⟩ := children_of_kids hs hm hlr
    have hsum : s.weight m = s.weight l + s.weight r := hs.sums m hm (l, r) hlr
    rw [Prod.map_fst, Prod.map_snd, weight_heir hs h hl, weight_heir hs h hr, hw, hsum]
    by_cases hp : s.parent s.nyt = some m
    · have hleft : l = s.nyt := left_eq_nyt hs hp hlr
      rw [owed_of_true hp, hleft, bump_self, bump_of_ne (hleft ▸ hne.symm)]
      omega
    · obtain ⟨hlne, hrne⟩ := (shape_of_inv hs).ne_of_parent_ne hm hlr hp
      rw [owed_of_false hp, bump_of_ne hlne, bump_of_ne hrne, Nat.add_zero]
  · cases hki.symm.trans hk
    rw [hwi, hwf, hwnyt, hzero, owed_of_false (parent_ne_of_ge hs hlt le_rfl)]
  · cases hkf.symm.trans hk

/-- The new leaf and the new internal node are the lightest nodes above the NYT leaf, so the weights are in order. -/
theorem ordered_split (hs : Inv s) (h : s.split y = .ok (t, cur)) : Ordered t t.weight := by
  obtain ⟨hncount, -⟩ := fields_split h
  have hshape : Shape s := shape_of_inv hs
  have hlt : s.nyt < s.ncount := nyt_lt hs
  obtain ⟨hwnyt, -⟩ := fields_split_old hs h hlt
  obtain ⟨hwf, -⟩ := fields_split_leaf hs h
  obtain ⟨-, -, hzero⟩ := hs.nyt
  obtain ⟨hidxnyt, hidxf, hidx⟩ := idxOf_split hs h
  have hpos {m : Nat} (hm : m < s.ncount) (hne : m ≠ s.nyt) : 0 < s.weight m :=
    Nat.pos_of_ne_zero (mt (hshape.weight_eq_zero_iff hm).1 hne)
  have hold : Ordered s (bump s.nyt s.weight) := by
    refine ordered_bump hshape hlt ((ordered_iff_weightOrder hshape).2 hs.sorted) fun m hm hnm => ?_
    rw [hzero]
    refine hpos hm ?_
    rintro rfl
    exact lt_irrefl _ hnm
  have hheir {m : Nat} (hm : m < s.ncount) : 1 ≤ bump s.nyt s.weight m := by
    by_cases hne : m = s.nyt
    · rw [hne, bump_self]
      exact Nat.le_add_left 1 _
    · rw [bump_of_ne hne]
      exact hpos hm hne
  intro a b ha hb hab
  rw [hncount] at ha hb
  rcases eq_heir_of_lt hs ha with rfl | rfl | ⟨m, hm, rfl⟩
  · rw [hwnyt, hzero]
    exact Nat.zero_le _
  · rcases eq_heir_of_lt hs hb with rfl | rfl | ⟨n, hn, rfl⟩
    · omega
    · exact le_rfl
    · rw [hwf, weight_heir hs h hn]
      exact hheir hn
  · rw [hidx m hm] at hab
    rcases eq_heir_of_lt hs hb with rfl | rfl | ⟨n, hn, rfl⟩
    · omega
    · omega
    · rw [hidx n hn] at hab
      rw [weight_heir hs h hm, weight_heir hs h hn]
      exact hold m n hm hn (by omega)

/-- A split starts the phase at the NYT leaf's former parent (42_tree_update_engine.md R154). -/
theorem phase_of_split (hs : Inv s) (hy : s.lookup y = none) (h : s.split y = .ok (t, cur))
    (hw : s.weight s.root < weightMax s.weightBits) : Phase (s.weight s.root + 1) cur t := by
  obtain ⟨hncount, hnyt, -, hwidth, -⟩ := fields_split h
  obtain ⟨rfl, -⟩ := split_cases h
  refine ⟨shape_split hs hy h, fun m => sums_split hs h, .inl (ordered_split hs h), ?_,
    hwidth.symm ▸ ⟨hs.width.1, hw⟩, fun p hp => ⟨?_, ?_⟩⟩
  · rw [root_split hs h, weight_heir hs h (Inv.root_lt hs)]
    by_cases hroot : s.nyt = s.root
    · rw [owed_of_false (not_not.2 ((parent_eq_none_iff hs (nyt_lt hs)).2 hroot)), hroot, bump_self]
    · rw [owed_of_true (mt (parent_eq_none_iff hs (nyt_lt hs)).1 hroot), bump_of_ne (Ne.symm hroot)]
  · have := Inv.parent_lt hs (nyt_lt hs) hp
    omega
  · rw [hnyt]
    obtain ⟨d, hd⟩ := exists_childSide hs (nyt_lt hs) hp
    exact ne_nyt_of_childSide hs hd

end SplitLaws

end Sys2Proof.Proofs
end

