-- ==== Sys2Proof/Proofs/Insert.lean ====
section
/-! PROOFS. `INSERT` below the greatest weight (42_tree_update_engine.md R150): in a sound state it completes in a sound state
whose root weighs one more, and it does the same on an engine of another width that does not overflow either
(70_reset_and_hazards.md R283). -/

namespace Sys2Proof.Proofs

open Sys2Proof.Machine Sys2Proof.Laws

variable {s t : State} {y : Sym}

/-! ## Completion -/

/-- In a sound state `INSERT` starts an increment phase at a leaf or after a split, and the phase ends. -/
theorem exists_insertSymbol (hs : Inv s) (hw : s.weight s.root < weightMax s.weightBits) (y : Sym) :
    ∃ t, s.insertSymbol y = .ok t ∧ Inv t ∧ t.weight t.root = s.weight s.root + 1 := by
  have hend : ∃ t, s.insertSymbol y = .ok t ∧ Phase (s.weight s.root + 1) none t := by
    unfold State.insertSymbol
    rcases hy : s.lookup y with _ | f
    · obtain ⟨u, hu⟩ := exists_split hs y
      simp only [hu]
      exact incrementPhase_of_phase (phase_of_split hs hy hu hw) fun _ _ => Nat.le_add_right ..
    · exact incrementPhase_of_phase (phase_of_lookup hs hy hw) fun _ _ => Nat.le_add_right ..
  obtain ⟨t, ht, hphase⟩ := hend
  exact ⟨t, ht, inv_of_phase hphase, by simpa using hphase.root⟩

/-- `INSERT` writes neither the width nor the ports (10_state.md R30, 42_tree_update_engine.md R152). -/
theorem frame_insertSymbol (h : s.insertSymbol y = .ok t) :
    t.weightBits = s.weightBits ∧ t.rsp = s.rsp ∧ t.inputs = s.inputs := by
  rcases insertSymbol_cases h with ⟨f, -, hphase⟩ | ⟨u, cur, -, hsplit, hphase⟩
  · obtain ⟨hwidth, -, -, -, -, -, hrsp, hinputs, -⟩ := sameBut_incrementPhase hphase
    exact ⟨hwidth, hrsp, hinputs⟩
  · obtain ⟨hwidth, -, -, -, -, -, hrsp, hinputs, -⟩ := sameBut_incrementPhase hphase
    obtain ⟨-, -, -, hwidth', hrsp', hinputs', -⟩ := fields_split hsplit
    exact ⟨hwidth.trans hwidth', hrsp.trans hrsp', hinputs.trans hinputs'⟩

/-- `INSERT` of a byte value responds in the updated tree (42_tree_update_engine.md R150). -/
theorem exec_insert_of_insertSymbol (hw : s.weight s.root ≠ weightMax s.weightBits) (h : s.insertSymbol y = .ok t) :
    exec (.insert (argSym y)) s =
      .next { t with rsp := some { flag := (s.lookup y).isNone, data := (t.lookup y).getD 0 } } := by
  rw [exec, execInsert, withSym_of_le (argSym_le y), if_neg hw, extract_argSym, h]
  rfl

/-! ## Another engine -/

/-- The same tree and registers in an engine of another width and with other pin samples to come (00_scope.md R6). -/
def onEngine (wb : Nat) (ins : List PortIn) (s : State) : State := { s with weightBits := wb, inputs := ins }

section OnEngine

variable {wb : Nat} {ins : List PortIn} {total n : Nat} {cur : Option Nat}

theorem enforce_onEngine (h : s.enforce n = .ok t) : (onEngine wb ins s).enforce n = .ok (onEngine wb ins t) := by
  obtain ⟨l, hl, ⟨hswap, hto⟩ | ⟨hstay, rfl⟩⟩ := enforce_cases h
  · obtain ⟨ka, kb, pa, pb, sa, sb, hka, hkb, hpa, hpb, hsa, hsb, rfl⟩ := swap_cases hto
    rw [enforce_of_leader (s := onEngine wb ins s) hl]
    exact (if_pos hswap).trans (swap_ok (s := onEngine wb ins s) hka hkb hpa hpb hsa hsb)
  · rw [enforce_of_leader (s := onEngine wb ins t) hl]
    exact if_neg (Bool.eq_false_iff.1 hstay)

/-- An increment that fits both widths is the same on both engines. -/
theorem increment_onEngine (h : s.weight n < weightMax s.weightBits) (h' : s.weight n < weightMax wb) :
    (onEngine wb ins s).increment n = onEngine wb ins (s.increment n) := by
  unfold weightMax at h h'
  have hsucc : weightSucc wb (s.weight n) = weightSucc s.weightBits (s.weight n) := by
    rw [weightSucc, weightSucc, Nat.mod_eq_of_lt (by omega), Nat.mod_eq_of_lt (by omega)]
  exact congrArg (fun v => onEngine wb ins (s.setWeight n v)) hsucc

/-- An increment phase whose total fits both widths is the same on both engines. -/
theorem incrementPhase_onEngine {fuel : Nat} (hp : Phase total cur s) (hwb : total ≤ weightMax wb)
    (h : State.incrementPhase fuel cur s = .ok t) :
    State.incrementPhase fuel cur (onEngine wb ins s) = .ok (onEngine wb ins t) := by
  induction fuel generalizing cur s with
  | zero =>
    rcases cur with _ | n
    · rw [State.incrementPhase] at h ⊢
      cases h
      rfl
    · cases h
  | succ fuel ih =>
    rcases cur with _ | n
    · rw [State.incrementPhase] at h ⊢
      cases h
      rfl
    · obtain ⟨u, hu, hv⟩ := exists_visited hp
      have hlt : u.weight n < total := hv.here.weight_lt
      have hcursor : (u.increment n).ascend n = u.parent n := parent_increment n n
      rw [State.incrementPhase, hu] at h
      rw [State.incrementPhase, enforce_onEngine hu]
      simp only [increment_onEngine (hlt.trans_le hv.here.width.2) (hlt.trans_le hwb)]
      exact ih (hcursor ▸ hv.next) h

theorem giveNytPlace_onEngine {p : Option Nat} {i : Nat} (h : s.giveNytPlace p i = .ok t) :
    (onEngine wb ins s).giveNytPlace p i = .ok (onEngine wb ins t) := by
  rcases giveNytPlace_cases h with ⟨rfl, rfl⟩ | ⟨q, d, rfl, hd, rfl⟩
  · rfl
  · have hd' : (onEngine wb ins s).childSide q (onEngine wb ins s).nyt = some d := hd
    rw [State.giveNytPlace, hd']
    rfl

theorem split_onEngine (h : s.split y = .ok (t, cur)) : (onEngine wb ins s).split y = .ok (onEngine wb ins t, cur) := by
  obtain ⟨rfl, u, hu, rfl⟩ := split_cases h
  exact split_ok (s := onEngine wb ins s) (giveNytPlace_onEngine hu)

/-- An `INSERT` that overflows on neither engine does the same on both (70_reset_and_hazards.md R283). -/
theorem insertSymbol_onEngine (hs : Inv s) (hw : s.weight s.root < weightMax s.weightBits)
    (hwb : s.weight s.root < weightMax wb) (h : s.insertSymbol y = .ok t) :
    (onEngine wb ins s).insertSymbol y = .ok (onEngine wb ins t) := by
  rcases insertSymbol_cases h with ⟨f, hf, hphase⟩ | ⟨u, cur, hy, hsplit, hphase⟩
  · have hf' : (onEngine wb ins s).lookup y = some f := hf
    rw [State.insertSymbol, hf']
    exact incrementPhase_onEngine (phase_of_lookup hs hf hw) hwb hphase
  · have hy' : (onEngine wb ins s).lookup y = none := hy
    simp only [State.insertSymbol, hy', split_onEngine hsplit]
    exact incrementPhase_onEngine (phase_of_split hs hy hsplit hw) hwb hphase

/-- A sound tree whose root's weight fits the other width is sound on the other engine. -/
theorem inv_onEngine (hs : Inv s) (hwb : 1 ≤ wb) (hw : s.weight s.root ≤ weightMax wb) : Inv (onEngine wb ins s) :=
  ⟨hs.count, hs.order, hs.kinds, hs.links, hs.sums, hs.sorted, hs.nyt, hs.symbols, hs.agrees, hs.index, hs.registers,
    hs.ranks, ⟨hwb, hw⟩, hs.indices⟩

end OnEngine

end Sys2Proof.Proofs
end

