-- ==== Sys2Proof/Proofs/PathLength.lean ====
section
/-! PROOFS. No root path of a sound state has more than `MAX_DEPTH` = 256 bits (00_scope.md R6, 10_state.md R31): the nodes
above a node are internal, and at most 256 nodes are. -/

namespace Sys2Proof.Proofs

open Sys2Proof.Machine Sys2Proof.Laws

variable {s : State} {n p fuel : Nat} {bits : List Bool}

/-- The internal nodes, those of odd index (10_state.md R29), that rank above `n`. -/
def internalAbove (s : State) (n : Nat) : Finset Nat :=
  (Finset.range s.ncount).filter fun m => m % 2 = 1 ∧ s.ord.idxOf n < s.ord.idxOf m

theorem mem_internalAbove {m : Nat} :
    m ∈ internalAbove s n ↔ m < s.ncount ∧ m % 2 = 1 ∧ s.ord.idxOf n < s.ord.idxOf m := by
  simp [internalAbove]

/-- There are at most 256 internal nodes (00_scope.md R6). -/
theorem card_internalAbove_le (hs : Inv s) (n : Nat) : (internalAbove s n).card ≤ 256 := by
  obtain ⟨-, -, hmax⟩ := hs.count
  unfold Config.maxNodes at hmax
  have hhalf : Set.MapsTo (· / 2) (internalAbove s n : Set Nat) (Finset.range 256 : Set Nat) := by
    intro m hm
    obtain ⟨hlt, hodd, -⟩ := mem_internalAbove.1 (Finset.mem_coe.1 hm)
    simp only [Finset.coe_range, Set.mem_Iio]
    omega
  have hinj : Set.InjOn (· / 2) (internalAbove s n : Set Nat) := by
    intro a ha b hb hab
    obtain ⟨-, hodda, -⟩ := mem_internalAbove.1 (Finset.mem_coe.1 ha)
    obtain ⟨-, hoddb, -⟩ := mem_internalAbove.1 (Finset.mem_coe.1 hb)
    simp only at hab
    omega
  exact (Finset.card_le_card_of_injOn _ hhalf hinj).trans_eq (Finset.card_range 256)

/-- The parent is one of the internal nodes above its child, and not above itself. -/
theorem card_internalAbove_parent (hs : Inv s) (hn : n < s.ncount) (hp : s.parent n = some p) :
    (internalAbove s p).card < (internalAbove s n).card := by
  have hlt : s.ord.idxOf n < s.ord.idxOf p := idxOf_lt_idxOf_parent hs hn hp
  refine Finset.card_lt_card (Finset.ssubset_iff_of_subset (fun m hm => ?_) |>.2 ⟨p, ?_, ?_⟩)
  · obtain ⟨hmlt, hodd, habove⟩ := mem_internalAbove.1 hm
    exact mem_internalAbove.2 ⟨hmlt, hodd, hlt.trans habove⟩
  · exact mem_internalAbove.2 ⟨Inv.parent_lt hs hn hp, parent_odd hs hn hp, hlt⟩
  · intro hself
    obtain ⟨-, -, habove⟩ := mem_internalAbove.1 hself
    exact lt_irrefl _ habove

theorem length_le_card_internalAbove (hs : Inv s) (hn : n < s.ncount) (h : s.pathWithin fuel n = some bits) :
    bits.length ≤ (internalAbove s n).card := by
  induction fuel generalizing n bits with
  | zero =>
    rcases pathWithin_cases h with ⟨-, rfl⟩ | ⟨_, _, _, _, hzero, -⟩
    · exact Nat.zero_le _
    · cases hzero
  | succ fuel ih =>
    rcases pathWithin_cases h with ⟨-, rfl⟩ | ⟨fuel', p, d, up, hfuel, hp, -, hup, rfl⟩
    · exact Nat.zero_le _
    · cases hfuel
      rw [List.length_append]
      exact (ih (Inv.parent_lt hs hn hp) hup).trans_lt (card_internalAbove_parent hs hn hp)

/-- A path by any number of links is one by as many links as it has bits. -/
theorem pathWithin_length (h : s.pathWithin fuel n = some bits) : s.pathWithin bits.length n = some bits := by
  induction fuel generalizing n bits with
  | zero =>
    rcases pathWithin_cases h with ⟨hp, rfl⟩ | ⟨_, _, _, _, hzero, -⟩
    · exact pathWithin_root _ hp
    · cases hzero
  | succ fuel ih =>
    rcases pathWithin_cases h with ⟨hp, rfl⟩ | ⟨fuel', p, d, up, hfuel, hp, hd, hup, rfl⟩
    · exact pathWithin_root _ hp
    · cases hfuel
      rw [List.length_append]
      exact pathWithin_child hp hd (ih hup)

/-- In a sound state `MAX_DEPTH` links are enough for every root path (00_scope.md R6). -/
theorem pathWithin_maxDepth (hs : Inv s) (hn : n < s.ncount) (h : s.path n = some bits) :
    s.pathWithin Config.maxDepth n = some bits :=
  pathWithin_mono (pathWithin_length h) ((length_le_card_internalAbove hs hn h).trans (card_internalAbove_le hs n))

end Sys2Proof.Proofs
end

