-- ==== Sys2Proof/Proofs/DriverCommands.lean ====
section
/-! PROOFS. What a driver gets for each command it issues in a sound state (44_encoder_decoder_drivers.md R231): a read gives
its response and leaves the engine as it was, with the response taken. -/

namespace Sys2Proof.Proofs

open Sys2Proof.Machine Sys2Proof.Laws

variable {s t : State} {n : Nat} {y : Sym} {bits : List Bool}

/-- An engine without a response waiting has none to take. -/
theorem takeResponse_of_ready (hr : s.rsp = none) : takeResponse s = s := by
  rw [takeResponse, ← hr]

/-- A command that only responds leaves an engine without a response as it was. -/
theorem issue_of_respond {i : Instr} {r : Response} (hr : s.rsp = none) (h : exec i s = .next { s with rsp := some r })
    (hok : r.status = .ok) : issue i s = .ok (r, s) :=
  (issue_ok h rfl hok).trans (congrArg (fun u => Except.ok (r, u)) (takeResponse_of_ready hr))

/-- `INIT` gives the driver a reset engine (44_encoder_decoder_drivers.md R223, R225). -/
theorem issue_init (s : State) : issue .init s = .ok ({}, resetEngine s) := issue_ok (exec_init s) rfl rfl

section Reads

theorem issue_rdpar (hs : Inv s) (hr : s.rsp = none) (hn : n < s.ncount) :
    issue (.rdpar (argNat n)) s = .ok (optionalResponse (s.parent n), s) := by
  have harg : (argNat n).toNat = n := toNat_argNat (Inv.lt_operand hs hn)
  refine issue_of_respond hr ?_ rfl
  rw [exec_rdpar_of_lt (harg.symm ▸ hn), harg]

theorem issue_rdleft (hs : Inv s) (hr : s.rsp = none) (hn : n < s.ncount) :
    issue (.rdleft (argNat n)) s = .ok (optionalResponse ((s.kids n).map Prod.fst), s) := by
  have harg : (argNat n).toNat = n := toNat_argNat (Inv.lt_operand hs hn)
  refine issue_of_respond hr ?_ rfl
  rw [exec_rdleft_of_lt (harg.symm ▸ hn), harg]

theorem issue_rdright (hs : Inv s) (hr : s.rsp = none) (hn : n < s.ncount) :
    issue (.rdright (argNat n)) s = .ok (optionalResponse ((s.kids n).map Prod.snd), s) := by
  have harg : (argNat n).toNat = n := toNat_argNat (Inv.lt_operand hs hn)
  refine issue_of_respond hr ?_ rfl
  rw [exec_rdright_of_lt (harg.symm ▸ hn), harg]

theorem issue_rdsym (hs : Inv s) (hr : s.rsp = none) (hn : n < s.ncount) :
    issue (.rdsym (argNat n)) s = .ok (optionalResponse ((s.sym n).map BitVec.toNat), s) := by
  have harg : (argNat n).toNat = n := toNat_argNat (Inv.lt_operand hs hn)
  refine issue_of_respond hr ?_ rfl
  rw [exec_rdsym_of_lt (harg.symm ▸ hn), harg]

/-- `RDSR 0` gives the driver the root. -/
theorem issue_rdsr_root (hr : s.rsp = none) : issue (.rdsr 0) s = .ok ({ data := s.root }, s) :=
  issue_of_respond hr (exec_rdsr_of_srOperand rfl) rfl

/-- `RDSR 1` gives the driver the NYT leaf. -/
theorem issue_rdsr_nyt (hr : s.rsp = none) : issue (.rdsr 1) s = .ok ({ data := s.nyt }, s) :=
  issue_of_respond hr (exec_rdsr_of_srOperand rfl) rfl

/-- `LOOKUP` gives the driver the leaf of a symbol, if it is seen. -/
theorem issue_lookup (y : Sym) (s : State) :
    issue (.lookup (argSym y)) s = .ok (optionalResponse (s.lookup y), takeResponse s) := by
  refine issue_ok (t := { s with rsp := some (optionalResponse (s.lookup y)) }) ?_ rfl rfl
  rw [exec_lookup_of_le (argSym_le y), extract_argSym]

/-- `PATHS` gives the driver the root path of the symbol's leaf, or of the NYT leaf (43_tree_readout.md R191). -/
theorem issue_paths (hr : s.rsp = none) (h : s.path (pathTarget s y) = some bits) :
    issue (.paths (argSym y)) s =
      .ok ({ flag := (s.lookup y).isSome, data := pathTarget s y, path := bits }, s) := by
  have hpath : s.path (pathTarget s ((argSym y).extractLsb' 0 8)) = some bits := by rw [extract_argSym, h]
  refine issue_of_respond hr ?_ rfl
  rw [exec_paths_of_path (argSym_le y) hpath, extract_argSym]

end Reads

/-- `INSERT` below the greatest weight gives the driver the updated engine (42_tree_update_engine.md R150). -/
theorem issue_insert (hw : s.weight s.root ≠ weightMax s.weightBits) (hr : s.rsp = none)
    (h : s.insertSymbol y = .ok t) : ∃ r, issue (.insert (argSym y)) s = .ok (r, t) := by
  obtain ⟨-, hrsp, -⟩ := frame_insertSymbol h
  have hissue := issue_ok (exec_insert_of_insertSymbol hw h) rfl rfl
  exact ⟨_, hissue.trans (congrArg (fun u => Except.ok (_, u)) (takeResponse_of_ready (hrsp.trans hr)))⟩

end Sys2Proof.Proofs
end

