-- ==== Sys2Proof/Proofs/CodeByLookup.lean ====
section
/-! PROOFS. The code of a symbol by `LOOKUP` and a walk to the root (44_encoder_decoder_drivers.md R236). -/

namespace Sys2Proof.Proofs

open Sys2Proof.Machine Sys2Proof.Laws

variable {s : State} {n p fuel : Nat} {bits : List Bool}

/-- The walk takes a child for the right one where it is not its parent's left child. -/
theorem branchBit_eq_decide {d : Side} {l r : Nat} (hd : s.childSide p n = some d) (hk : s.kids p = some (l, r)) :
    State.branchBit d = decide (l ≠ n) := by
  obtain ⟨l', r', hk', ⟨rfl, hl, -⟩ | ⟨rfl, -, hl⟩⟩ := childSide_eq_some.1 hd
  · cases hk.symm.trans hk'
    simp [State.branchBit, hl]
  · cases hk.symm.trans hk'
    simp [State.branchBit, hl]

/-- The walk ends at the root. -/
theorem climb_of_parent_none (hs : Inv s) (hr : s.rsp = none) (hn : n < s.ncount) (hp : s.parent n = none) (fuel : Nat) :
    climb fuel n s = .ok ([], s) := by
  unfold climb
  rw [issue_rdpar hs hr hn, hp]
  rfl

/-- The walk up collects the bits of the root path (43_tree_readout.md R190). -/
theorem climb_of_pathWithin (hs : Inv s) (hr : s.rsp = none) (hn : n < s.ncount) (h : s.pathWithin fuel n = some bits) :
    climb fuel n s = .ok (bits, s) := by
  induction fuel generalizing n bits with
  | zero =>
    rcases pathWithin_cases h with ⟨hp, rfl⟩ | ⟨_, _, _, _, hzero, -⟩
    · exact climb_of_parent_none hs hr hn hp _
    · cases hzero
  | succ fuel ih =>
    rcases pathWithin_cases h with ⟨hp, rfl⟩ | ⟨fuel', p, d, up, hfuel, hp, hd, hup, rfl⟩
    · exact climb_of_parent_none hs hr hn hp _
    · cases hfuel
      have hplt : p < s.ncount := Inv.parent_lt hs hn hp
      obtain ⟨l, r, hk, -⟩ := childSide_eq_some.1 hd
      unfold climb
      simp [issue_rdpar hs hr hn, hp, issue_rdleft hs hr hplt, hk, ih hplt hup, branchBit_eq_decide hd hk]

/-- Taking a response changes no root path. -/
theorem pathWithin_takeResponse (h : s.pathWithin fuel n = some bits) :
    (takeResponse s).pathWithin fuel n = some bits := by
  induction fuel generalizing n bits with
  | zero =>
    rcases pathWithin_cases h with ⟨hp, rfl⟩ | ⟨_, _, _, _, hzero, -⟩
    · exact pathWithin_root (s := takeResponse s) _ hp
    · cases hzero
  | succ fuel ih =>
    rcases pathWithin_cases h with ⟨hp, rfl⟩ | ⟨fuel', p, d, up, hfuel, hp, hd, hup, rfl⟩
    · exact pathWithin_root (s := takeResponse s) _ hp
    · cases hfuel
      exact pathWithin_child (s := takeResponse s) hp hd (ih hup)

/-- Settles O55: the walk starts at the target of `PATHS`, whose root path has at most 256 bits. -/
theorem codeByLookupIsThePath : Obligations.CodeByLookupIsThePath := by
  unfold Obligations.CodeByLookupIsThePath
  intro s y hs
  obtain ⟨bits, hbits⟩ := exists_path hs (pathTarget_lt hs y)
  have hclimb : climb Config.maxDepth (pathTarget s y) (takeResponse s) = .ok (bits, takeResponse s) :=
    climb_of_pathWithin (inv_takeResponse hs) rfl (pathTarget_lt hs y)
      (pathWithin_takeResponse (pathWithin_maxDepth hs (pathTarget_lt hs y) hbits))
  refine ⟨bits, hbits, ?_⟩
  unfold codeByLookup
  rw [issue_lookup]
  rcases hy : s.lookup y with _ | f
  · rw [pathTarget_of_unseen hy] at hclimb
    simp only [optionalResponse_none, Bool.false_eq_true, if_false, issue_rdsr_nyt (rsp_takeResponse s)]
    exact hclimb
  · rw [pathTarget_of_seen hy] at hclimb
    simp [hclimb]

end Sys2Proof.Proofs
end

