-- ==== Sys2Proof/Proofs/Literal.lean ====
section
/-! PROOFS. Bits, characters and literals (44_encoder_decoder_drivers.md R221, 00_scope.md R8): reading what was written gives
the bits and the byte back. -/

namespace Sys2Proof.Proofs

open Sys2Proof.Machine Sys2Proof.Laws

@[simp] theorem charBit_bitChar (b : Bool) : charBit (bitChar b) = some b := by cases b <;> rfl

@[simp] theorem charBits_map_bitChar (bits : List Bool) : charBits (bits.map bitChar) = some bits := by
  induction bits with
  | nil => rfl
  | cons b bits ih => simp [charBits, ih]

@[simp] theorem length_lit8 (y : Sym) : (lit8 y).length = 8 := rfl

/-- A byte is the value of its bits, most significant first (00_scope.md R8). -/
theorem byte8_lit8 (y : Sym) : byte8 (lit8 y) = y := by
  revert y
  decide

/-- A literal is read back as its byte, and the characters after it are left (44_encoder_decoder_drivers.md R226). -/
theorem readLiteral_lit8 (y : Sym) (rest : List Char) :
    readLiteral ((lit8 y).map bitChar ++ rest) = .ok (y, rest) := by
  have hlen : ((lit8 y).map bitChar).length = 8 := rfl
  have hshort : ¬ ((lit8 y).map bitChar ++ rest).length < 8 := by
    rw [List.length_append, hlen]
    omega
  rw [readLiteral, if_neg hshort, ← hlen, List.take_left, List.drop_left, charBits_map_bitChar]
  simp [byte8_lit8]

end Sys2Proof.Proofs
end

