-- ==== Sys2Proof/Proofs/SessionStart.lean ====
section
/-! PROOFS. The engine at the start of a session (10_state.md R42): the reset state is sound, and the first symbol is emitted
as its literal (44_encoder_decoder_drivers.md R224). -/

namespace Sys2Proof.Proofs

open Sys2Proof.Machine Sys2Proof.Laws

/-! ## `ENCODE` -/

section Encode

variable {s t : State} {y : Sym} {bits : List Bool}

/-- What `ENCODE` emits after the path: the literal of an unseen symbol (44_encoder_decoder_drivers.md R222). -/
def literalPart (s : State) (y : Sym) : List Bool := if (s.lookup y).isSome then [] else lit8 y

theorem literalPart_of_seen {f : Nat} (h : s.lookup y = some f) : literalPart s y = [] := by simp [literalPart, h]

theorem literalPart_of_unseen (h : s.lookup y = none) : literalPart s y = lit8 y := by simp [literalPart, h]

/-- `ENCODE` below the greatest weight (44_encoder_decoder_drivers.md R222). -/
theorem encodeSymbol_of_path (hr : s.rsp = none) (hw : s.weight s.root ≠ weightMax s.weightBits)
    (hpath : s.path (pathTarget s y) = some bits) (h : s.insertSymbol y = .ok t) :
    encodeSymbol y s = ⟨bits ++ literalPart s y, t, none⟩ := by
  obtain ⟨r, hinsert⟩ := issue_insert hw hr h
  simp only [encodeSymbol, issue_paths hr hpath, hinsert, literalPart]

/-- A session goes on after a symbol that did not fail (44_encoder_decoder_drivers.md R223). -/
theorem encodeAll_cons (h : encodeSymbol y s = ⟨bits, t, none⟩) (vs : List Nat) :
    encodeAll (y.toNat :: vs) s = { encodeAll vs t with bits := bits ++ (encodeAll vs t).bits } := by
  have hbyte : y.toNat ≤ 255 := Nat.le_of_lt_succ y.isLt
  rw [encodeAll, if_pos hbyte, BitVec.ofNat_toNat, BitVec.setWidth_eq, h]

/-- An encode session starts from the reset engine (44_encoder_decoder_drivers.md R223). -/
theorem encodeSession_eq (vs : List Nat) (s : State) : encodeSession vs s = encodeAll vs (resetEngine s) := by
  rw [encodeSession, issue_init]

end Encode

/-! ## The reset state -/

section Reset

variable (wb : Nat)

theorem countLaw_resetOf : CountLaw (State.resetOf wb) := ⟨rfl, rfl, show 1 ≤ Config.maxNodes by decide⟩

theorem orderPermutation_resetOf : OrderPermutation (State.resetOf wb) := .refl _

theorem kindLaw_resetOf : KindLaw (State.resetOf wb) := (forall_lt_ncount_resetOf wb).2 (by simp)

/-- The one node is the root, without links (10_state.md R31). -/
theorem linkLaw_resetOf : LinkLaw (State.resetOf wb) :=
  ⟨Nat.one_pos, (forall_lt_ncount_resetOf wb).2 (by simp), (forall_lt_ncount_resetOf wb).2 (by simp),
    (forall_lt_ncount_resetOf wb).2 (by simp)⟩

/-- The one node is first and last (10_state.md R40). -/
theorem rankLaw_resetOf : RankLaw (State.resetOf wb) :=
  ⟨rfl, rfl, (forall_lt_ncount_resetOf wb).2 (by simp), by simp⟩

end Reset

/-- The reset state is sound for every width of at least one bit (10_state.md R42). -/
theorem inv_resetOf {wb : Nat} (h : 1 ≤ wb) : Inv (State.resetOf wb) where
  count := countLaw_resetOf wb
  order := orderPermutation_resetOf wb
  kinds := kindLaw_resetOf wb
  links := linkLaw_resetOf wb
  sums := weightSum_resetOf wb
  sorted := weightOrder_resetOf wb
  nyt := nytLaw_resetOf wb
  symbols := leafSymbols_resetOf wb
  agrees := indexAgrees_resetOf wb
  index := rfl
  registers := ⟨rfl, rfl⟩
  ranks := rankLaw_resetOf wb
  width := ⟨h, Nat.zero_le _⟩
  indices := indexLaw_of (countLaw_resetOf wb) (orderPermutation_resetOf wb) (linkLaw_resetOf wb) (nytLaw_resetOf wb)
    (indexAgrees_resetOf wb)

theorem inv_resetEngine {s : State} (h : 1 ≤ s.weightBits) : Inv (resetEngine s) :=
  inv_congr (inv_resetOf h) rfl rfl rfl rfl rfl rfl rfl

@[simp] theorem weight_resetEngine_zero (s : State) : (resetEngine s).weight 0 = 0 := rfl

/-- Before the first symbol the NYT leaf is the root and nothing is seen, so a symbol is emitted as its literal
(44_encoder_decoder_drivers.md R224). -/
theorem exists_encodeSymbol_resetEngine {s : State} (h : 1 ≤ s.weightBits) (y : Sym) :
    ∃ t, encodeSymbol y (resetEngine s) = ⟨lit8 y, t, none⟩ := by
  have hpos : 0 < weightMax s.weightBits := Nat.sub_pos_of_lt (Nat.one_lt_two_pow (Nat.ne_zero_of_lt h))
  obtain ⟨t, ht, -⟩ := exists_insertSymbol (inv_resetEngine h) (by simpa using hpos) y
  have hpath : (resetEngine s).path (pathTarget (resetEngine s) y) = some [] := path_root rfl
  exact ⟨t, encodeSymbol_of_path (s := resetEngine s) rfl hpos.ne hpath ht⟩

/-- Settles O54: the first symbol emits its literal, and what follows is appended. -/
theorem firstSymbolIsEightRawBits : Obligations.FirstSymbolIsEightRawBits := by
  unfold Obligations.FirstSymbolIsEightRawBits
  intro s y vs h
  obtain ⟨t, ht⟩ := exists_encodeSymbol_resetEngine h y
  rw [encodeSession_eq, encodeSession_eq, encodeAll_cons ht, encodeAll_cons ht]
  exact ⟨List.append_nil _, rfl, List.prefix_append ..⟩

end Sys2Proof.Proofs
end

