-- ==== Sys2Proof/Proofs/RoundTrip.lean ====
section
/-! PROOFS. The round trip (44_encoder_decoder_drivers.md R232): with the same tree, `DECODE` of what `ENCODE` emits for a
symbol gives that symbol and makes the same `INSERT`, so the two engines keep the same tree from symbol to symbol. -/

namespace Sys2Proof.Proofs

open Sys2Proof.Machine Sys2Proof.Laws

/-! ## `DECODE` of one symbol -/

section Decode

variable {s t : State} {n m root : Nat} {y : Sym} {bits : List Bool}

/-- The walk of `DECODE` takes one branch for each character of a path (44_encoder_decoder_drivers.md R226). -/
theorem walkDown_of_descend (hs : Inv s) (hr : s.rsp = none) (hn : n < s.ncount) (hd : s.descend n bits = some m)
    (hm : s.kids m = none) (rest : List Char) : walkDown root (bits.map bitChar ++ rest) n s = .leaf m rest s := by
  induction bits generalizing n with
  | nil =>
    cases hd
    unfold walkDown
    simp [issue_rdleft hs hr hn, hm]
  | cons b bits ih =>
    rcases hk : s.kids n with _ | ⟨l, r⟩
    · simp [State.descend, hk] at hd
    · obtain ⟨hl, hr', -⟩ := children_of_kids hs hn hk
      simp only [State.descend, hk] at hd
      rw [List.map_cons, List.cons_append]
      unfold walkDown
      cases b
      · simp [issue_rdleft hs hr hn, hk, ih hl hd]
      · simp [issue_rdleft hs hr hn, issue_rdright hs hr hn, hk, ih hr' hd]

theorem decodeInsert_of_insertSymbol (hr : s.rsp = none) (hw : s.weight s.root ≠ weightMax s.weightBits)
    (h : s.insertSymbol y = .ok t) (rest : List Char) : decodeInsert y rest s = .symbol y rest t := by
  obtain ⟨r, hinsert⟩ := issue_insert hw hr h
  rw [decodeInsert, hinsert]

/-- The target of `PATHS` is a leaf (43_tree_readout.md R191). -/
theorem kids_pathTarget (hs : Inv s) (y : Sym) : s.kids (pathTarget s y) = none := by
  rcases hy : s.lookup y with _ | f
  · rw [pathTarget_of_unseen hy]
    exact (shape_of_inv hs).kids_nyt
  · obtain ⟨-, hleaf, -⟩ := leaf_of_lookup hs hy
    rw [pathTarget_of_seen hy, hleaf]

/-- At the target of `PATHS` the leaf part of `DECODE` reads the literal of an unseen symbol, or the leaf's symbol
(44_encoder_decoder_drivers.md R226). -/
theorem decodeLeaf_pathTarget (hs : Inv s) (hr : s.rsp = none) (hw : s.weight s.root ≠ weightMax s.weightBits)
    (h : s.insertSymbol y = .ok t) (rest : List Char) :
    decodeLeaf (pathTarget s y) ((literalPart s y).map bitChar ++ rest) s = .symbol y rest t := by
  unfold decodeLeaf
  rw [issue_rdsr_nyt hr]
  rcases hy : s.lookup y with _ | f
  · rw [pathTarget_of_unseen hy, literalPart_of_unseen hy]
    simp [readLiteral_lit8, decodeInsert_of_insertSymbol hr hw h]
  · obtain ⟨hlt, -, hsym⟩ := leaf_of_lookup hs hy
    have hne : f ≠ s.nyt := ne_nyt_of_lookup hs hy
    rw [pathTarget_of_seen hy, literalPart_of_seen hy]
    simp [hne, issue_rdsym hs hr hlt, hsym, decodeInsert_of_insertSymbol hr hw h]

/-- `DECODE` of what `ENCODE` emits for a symbol gives the symbol (44_encoder_decoder_drivers.md R222, R226). -/
theorem decodeSymbol_of_descend (hs : Inv s) (hr : s.rsp = none) (hw : s.weight s.root ≠ weightMax s.weightBits)
    (hd : s.descend s.root bits = some (pathTarget s y)) (h : s.insertSymbol y = .ok t) (rest : List Char) :
    decodeSymbol ((bits ++ literalPart s y).map bitChar ++ rest) s = .symbol y rest t := by
  unfold decodeSymbol
  rw [issue_rdsr_root hr, List.map_append, List.append_assoc]
  simp only [walkDown_of_descend hs hr (Inv.root_lt hs) hd (kids_pathTarget hs y)]
  exact decodeLeaf_pathTarget hs hr hw h rest

/-- With a symbol seen the root is internal (10_state.md R25). -/
theorem exists_kids_root (hs : Inv s) (h : 1 < s.ncount) : ∃ l r, s.kids s.root = some (l, r) := by
  obtain ⟨-, hroot⟩ := hs.registers
  obtain ⟨hinternal, -⟩ := hs.kinds s.root (Inv.root_lt hs)
  rw [if_neg h.ne'] at hroot
  obtain ⟨⟨l, r⟩, hk⟩ := Option.isSome_iff_exists.1 (hinternal.2 (by rw [hroot]))
  exact ⟨l, r, hk⟩

/-- With a symbol seen and no character left the stream ends cleanly (44_encoder_decoder_drivers.md R228). -/
theorem decodeSymbol_nil (hs : Inv s) (hr : s.rsp = none) (h : 1 < s.ncount) : decodeSymbol [] s = .endOfStream s := by
  obtain ⟨l, r, hk⟩ := exists_kids_root hs h
  unfold decodeSymbol
  rw [issue_rdsr_root hr]
  unfold walkDown
  simp [issue_rdleft hs hr (Inv.root_lt hs), hk]

/-- `ENCODE` emits at least one bit: the literal, or the path of a leaf that is not the root. -/
theorem code_length_pos (hs : Inv s) (hd : s.descend s.root bits = some (pathTarget s y)) :
    0 < (bits ++ literalPart s y).length := by
  rcases hy : s.lookup y with _ | f
  · rw [literalPart_of_unseen hy, List.length_append, length_lit8]
    omega
  · rw [literalPart_of_seen hy, List.append_nil, List.length_pos_iff]
    rintro rfl
    rw [pathTarget_of_seen hy, State.descend] at hd
    cases hd
    obtain ⟨-, -, hsym⟩ := leaf_of_lookup hs hy
    obtain ⟨-, hsymbolLeaf, -⟩ := hs.kinds s.root (Inv.root_lt hs)
    obtain ⟨-, hroot⟩ := hs.registers
    have heven := hsymbolLeaf.1 (by rw [hsym, Option.isSome_some])
    split at hroot <;> omega

end Decode

/-! ## A session -/

section Session

variable {s t : State} {wb : Nat} {ins : List PortIn}

/-- The branches lead to the same node on the other engine. -/
theorem descend_onEngine (n : Nat) (bits : List Bool) : (onEngine wb ins s).descend n bits = s.descend n bits := by
  induction bits generalizing n with
  | nil => rfl
  | cons b bits ih =>
    have hk : (onEngine wb ins s).kids n = s.kids n := rfl
    rw [State.descend, State.descend, hk]
    rcases s.kids n with _ | ⟨l, r⟩
    · rfl
    · exact ih _

/-- A sound tree whose root has a weight has more than one node: the NYT leaf weighs 0. -/
theorem one_lt_ncount (hs : Inv s) (hw : s.weight s.root ≠ 0) : 1 < s.ncount := by
  have hne : s.root ≠ s.nyt := mt ((shape_of_inv hs).weight_eq_zero_iff (Inv.root_lt hs)).2 hw
  have hroot := Inv.root_lt hs
  have hnyt := nyt_lt hs
  omega

/-- From one tree an encode session and the decode session of its characters run side by side: symbol by symbol both engines
make the same `INSERT`. -/
theorem decodeAll_encodeAll (ys : List Sym) (hs : Inv s) (hr : s.rsp = none) (hend : ys = [] → 1 < s.ncount)
    (hw : s.weight s.root + ys.length ≤ weightMax s.weightBits) (hwb : s.weight s.root + ys.length ≤ weightMax wb)
    (hbits : 1 ≤ wb) :
    ∃ bits t, encodeAll (ys.map BitVec.toNat) s = ⟨bits, t, none⟩ ∧ ys.length ≤ bits.length ∧
      t.weightBits = s.weightBits ∧ t.inputs = s.inputs ∧
      ∀ fuel, ys.length < fuel →
        decodeAll fuel (bits.map bitChar) (onEngine wb ins s) = ⟨ys, .endOfStream, onEngine wb ins t⟩ := by
  induction ys generalizing s with
  | nil =>
    refine ⟨[], s, rfl, le_rfl, rfl, rfl, fun fuel hfuel => ?_⟩
    obtain ⟨fuel, rfl⟩ := Nat.exists_eq_add_of_le' (Nat.one_le_of_lt hfuel)
    rw [decodeAll, List.map_nil, decodeSymbol_nil (inv_onEngine hs hbits hwb) hr (hend rfl)]
  | cons y ys ih =>
    rw [List.length_cons] at hw hwb
    have hlt : s.weight s.root < weightMax s.weightBits := by omega
    have hltwb : s.weight s.root < weightMax wb := by omega
    obtain ⟨u, hu, hsu, hroot⟩ := exists_insertSymbol hs hlt y
    obtain ⟨hwidth, hrsp, hinputs⟩ := frame_insertSymbol hu
    obtain ⟨path, hpath⟩ := exists_path hs (pathTarget_lt hs y)
    have hdescend : s.descend s.root path = some (pathTarget s y) := descend_path hs (pathTarget_lt hs y) hpath
    obtain ⟨bits, t, hencode, hlen, hwidth', hinputs', hdecode⟩ :=
      ih hsu (hrsp.trans hr) (fun _ => one_lt_ncount hsu (by omega)) (by rw [hroot, hwidth]; omega) (by omega)
    refine ⟨(path ++ literalPart s y) ++ bits, t, ?_, ?_, hwidth'.trans hwidth, hinputs'.trans hinputs,
      fun fuel hfuel => ?_⟩
    · rw [List.map_cons, encodeAll_cons (encodeSymbol_of_path hr hlt.ne hpath hu), hencode]
    · have hpos := code_length_pos hs hdescend
      rw [List.length_append, List.length_cons]
      omega
    · rw [List.length_cons] at hfuel
      obtain ⟨fuel, rfl⟩ := Nat.exists_eq_add_of_le' (Nat.one_le_of_lt hfuel)
      have hsymbol : decodeSymbol ((path ++ literalPart s y).map bitChar ++ bits.map bitChar) (onEngine wb ins s) =
          .symbol y (bits.map bitChar) (onEngine wb ins u) :=
        decodeSymbol_of_descend (inv_onEngine hs hbits hltwb.le) hr hltwb.ne
          ((descend_onEngine _ _).trans hdescend) (insertSymbol_onEngine hs hlt hltwb hu) _
      rw [List.map_append, decodeAll, hsymbol]
      simp only [hdecode fuel (by omega)]

end Session

/-- Settles O59: both sessions start from the reset tree, which differs only by the engine. -/
theorem decodeOfEncodedStreamIsTheInput : Obligations.DecodeOfEncodedStreamIsTheInput := by
  unfold Obligations.DecodeOfEncodedStreamIsTheInput
  intro s u ys hne hs hu
  have hwidth {wb : Nat} (h : ys.length < 2 ^ wb) : 1 ≤ wb := by
    rcases wb with _ | wb
    · exact absurd (List.length_eq_zero_iff.1 (Nat.lt_one_iff.1 h)) hne
    · exact Nat.le_add_left 1 wb
  obtain ⟨bits, t, hencode, hlen, hwidth', hinputs, hdecode⟩ :=
    decodeAll_encodeAll (s := resetEngine s) (wb := u.weightBits) (ins := u.inputs) ys (inv_resetEngine (hwidth hs)) rfl
      (fun h => absurd h hne) (by simpa [weightMax] using Nat.le_sub_one_of_lt hs)
      (by simpa [weightMax] using Nat.le_sub_one_of_lt hu) (hwidth hu)
  have hsession : decodeSession (bits.map bitChar) u = ⟨ys, .endOfStream, onEngine u.weightBits u.inputs t⟩ := by
    rw [decodeSession, issue_init]
    exact hdecode _ (by simpa using Nat.lt_succ_of_le hlen)
  rw [encodeSession_eq, hencode, Encoded.chars, hsession]
  refine ⟨rfl, rfl, rfl, ?_⟩
  rw [weightBits_resetEngine] at hwidth'
  rw [inputs_resetEngine] at hinputs
  rw [← hwidth', ← hinputs]
  rfl

end Sys2Proof.Proofs
end

