-- ==== Sys2Proof/Proofs/FaultEntry.lean ====
section
/-! PROOFS. Which fault a command word raises (60_exceptions.md R250 to R256) and what entering it changes (R254, R257): the
checks of a word find one status in the state before it, and the word ends with that status. -/

namespace Sys2Proof.Proofs

open Sys2Proof.Machine Sys2Proof.Laws

variable {s t : State} {a : Arg} {i : Instr} {w : CmdWord} {c : Status}

/-! ## The status that the checks find -/

/-- What the range check of a symbol operand finds (60_exceptions.md R252). -/
def symCheck (a : Arg) : Status := if a.toNat ≤ 255 then .ok else .alphabet

/-- What the range check of a node index or rank finds (60_exceptions.md R253). -/
def indexCheck (a : Arg) (s : State) : Status := if a.toNat < s.ncount then .ok else .badIndex

/-- What the two checks of `INSERT` find, the alphabet first (42_tree_update_engine.md R151). -/
def insertCheck (a : Arg) (s : State) : Status :=
  if a.toNat ≤ 255 then (if s.weight s.root = weightMax s.weightBits then .weightOverflow else .ok) else .alphabet

/-- What the checks of a decoded command find; the decoder has checked the operand of `RDSR` (60_exceptions.md R256). -/
def commandCheck (i : Instr) (s : State) : Status :=
  match i with
  | .nop | .init | .rdsr _ => .ok
  | .lookup a | .paths a => symCheck a
  | .insert a => insertCheck a s
  | .pathn a | .rdw a | .rdsym a | .rdpar a | .rdleft a | .rdright a | .rdrank a | .rdord a => indexCheck a s

/-- What the checks of a command word find, the decoder's first (60_exceptions.md R256). -/
def wordCheck (w : CmdWord) (s : State) : Status :=
  match decode w with
  | .ok i => commandCheck i s
  | .error _ => .illegalCmd

theorem symCheck_of_le (h : a.toNat ≤ 255) : symCheck a = .ok := if_pos h

theorem symCheck_of_gt (h : 255 < a.toNat) : symCheck a = .alphabet := if_neg (Nat.not_le.2 h)

theorem indexCheck_of_lt (h : a.toNat < s.ncount) : indexCheck a s = .ok := if_pos h

theorem indexCheck_of_ge (h : s.ncount ≤ a.toNat) : indexCheck a s = .badIndex := if_neg (Nat.not_lt.2 h)

theorem insertCheck_of_gt (h : 255 < a.toNat) : insertCheck a s = .alphabet := if_neg (Nat.not_le.2 h)

theorem insertCheck_of_full (h : a.toNat ≤ 255) (hw : s.weight s.root = weightMax s.weightBits) :
    insertCheck a s = .weightOverflow := by
  rw [insertCheck, if_pos h, if_pos hw]

theorem insertCheck_of_room (h : a.toNat ≤ 255) (hw : s.weight s.root ≠ weightMax s.weightBits) :
    insertCheck a s = .ok := by
  rw [insertCheck, if_pos h, if_neg hw]

theorem wordCheck_of_ok (h : decode w = .ok i) (s : State) : wordCheck w s = commandCheck i s := by rw [wordCheck, h]

theorem wordCheck_of_error {e : DecodeReject} (h : decode w = .error e) (s : State) : wordCheck w s = .illegalCmd := by
  rw [wordCheck, h]

/-! ## The causes of a fault -/

/-- A symbol operand gives a fault only by being no byte value (60_exceptions.md R252). -/
theorem symCheck_eq_iff (hc : c ≠ .ok) : symCheck a = c ↔ c = .alphabet ∧ 255 < a.toNat := by
  rcases Nat.lt_or_ge 255 a.toNat with hgt | hle
  · simp [symCheck_of_gt hgt, hgt, eq_comm]
  · simp [symCheck_of_le hle, hc.symm, Nat.not_lt.2 hle]

/-- An index operand gives a fault only by being at or above `NCOUNT` (60_exceptions.md R253). -/
theorem indexCheck_eq_iff (hc : c ≠ .ok) : indexCheck a s = c ↔ c = .badIndex ∧ s.ncount ≤ a.toNat := by
  rcases Nat.lt_or_ge a.toNat s.ncount with hlt | hge
  · simp [indexCheck_of_lt hlt, hc.symm, Nat.not_le.2 hlt]
  · simp [indexCheck_of_ge hge, hge, eq_comm]

/-- `INSERT` gives a fault by its operand, or by a full root for an operand in range (60_exceptions.md R255, R256). -/
theorem insertCheck_eq_iff (hc : c ≠ .ok) :
    insertCheck a s = c ↔
      (c = .alphabet ∧ 255 < a.toNat) ∨
      (c = .weightOverflow ∧ a.toNat ≤ 255 ∧ s.weight s.root = weightMax s.weightBits) := by
  rcases Nat.lt_or_ge 255 a.toNat with hgt | hle
  · simp [insertCheck_of_gt hgt, hgt, Nat.not_le.2 hgt, eq_comm]
  · by_cases hw : s.weight s.root = weightMax s.weightBits
    · simp [insertCheck_of_full hle hw, hw, hle, Nat.not_lt.2 hle, eq_comm]
    · simp [insertCheck_of_room hle hw, hw, hc.symm, Nat.not_lt.2 hle]

/-- The cause of each fault that a decoded command can raise (60_exceptions.md R250); `ILLEGAL_CMD` is the decoder's. -/
def CommandCause (c : Status) (i : Instr) (s : State) : Prop :=
  match c with
  | .ok | .illegalCmd => False
  | .alphabet => ∃ a : Arg, 255 < a.toNat ∧ (i = .lookup a ∨ i = .insert a ∨ i = .paths a)
  | .badIndex => ∃ a : Arg, s.ncount ≤ a.toNat ∧
      (i = .pathn a ∨ i = .rdw a ∨ i = .rdsym a ∨ i = .rdpar a ∨ i = .rdleft a ∨ i = .rdright a ∨ i = .rdrank a ∨
        i = .rdord a)
  | .weightOverflow => ∃ a : Arg, a.toNat ≤ 255 ∧ i = .insert a ∧ s.weight s.root = weightMax s.weightBits

/-- The checks of a command find a fault exactly when the command has its cause (60_exceptions.md R250, R256). -/
theorem commandCheck_eq_iff (hc : c ≠ .ok) : commandCheck i s = c ↔ CommandCause c i s := by
  cases i with
  | nop | init | rdsr => cases c <;> simp [commandCheck, CommandCause] at hc ⊢
  | lookup | paths => cases c <;> simp [commandCheck, CommandCause, symCheck_eq_iff] at hc ⊢
  | insert => cases c <;> simp [commandCheck, CommandCause, insertCheck_eq_iff] at hc ⊢
  | pathn | rdw | rdsym | rdpar | rdleft | rdright | rdrank | rdord =>
    cases c <;> simp [commandCheck, CommandCause, indexCheck_eq_iff] at hc ⊢

/-! ## How a word ends -/

/-- The state `t` is how a command ends whose checks in `s` find the status `c`: a successful response, or the entry of the
fault `c` in the unchanged `s` (60_exceptions.md R254). -/
def EndsWith (c : Status) (s t : State) : Prop :=
  (c = .ok ∧ ∃ r : Response, t.rsp = some r ∧ r.status = .ok) ∨ (c ≠ .ok ∧ t = takeFault c s)

/-- The response has the status that the checks found. -/
theorem EndsWith.status_eq (h : EndsWith c s t) {r : Response} (hr : t.rsp = some r) : r.status = c := by
  rcases h with ⟨rfl, q, hq, hok⟩ | ⟨-, rfl⟩
  · rw [hq] at hr
    cases hr
    exact hok
  · cases hr
    rfl

theorem endsWith_takeFault (hc : c ≠ .ok) (s : State) : EndsWith c s (takeFault c s) := .inr ⟨hc, rfl⟩

/-- A successful response ends a command without a fault, whatever the state `u` that the command left. -/
theorem endsWith_respond {r : Response} {u : State} (hr : r.status = .ok) (h : respond r u = .next t) :
    EndsWith .ok s t := by
  cases h
  exact .inl ⟨rfl, r, rfl, hr⟩

theorem endsWith_respondPath {n data : Nat} {flag : Bool} (h : respondPath s n flag data = .next t) :
    EndsWith .ok s t := by
  unfold respondPath at h
  split at h
  · exact endsWith_respond rfl h
  · cases h

theorem endsWith_withSym {k : Sym → Host.Outcome State Fault Refusal} (hk : ∀ y, k y = .next t → EndsWith .ok s t)
    (h : withSym a s k = .next t) : EndsWith (symCheck a) s t := by
  rcases withSym_cases h with ⟨hle, h⟩ | ⟨hgt, h⟩
  · rw [symCheck_of_le hle]
    exact hk _ h
  · cases h
    rw [symCheck_of_gt hgt]
    exact endsWith_takeFault (by decide) s

theorem endsWith_withIndex {k : Nat → Host.Outcome State Fault Refusal} (hk : ∀ n, k n = .next t → EndsWith .ok s t)
    (h : withIndex a s k = .next t) : EndsWith (indexCheck a s) s t := by
  rcases withIndex_cases h with ⟨hlt, h⟩ | ⟨hge, h⟩
  · rw [indexCheck_of_lt hlt]
    exact hk _ h
  · cases h
    rw [indexCheck_of_ge hge]
    exact endsWith_takeFault (by decide) s

theorem endsWith_execRdrank (h : execRdrank a s = .next t) : EndsWith (indexCheck a s) s t := by
  refine endsWith_withIndex (fun n hn => ?_) h
  split at hn
  · exact endsWith_respond rfl hn
  · cases hn

theorem endsWith_execInsert (h : execInsert a s = .next t) : EndsWith (insertCheck a s) s t := by
  rcases execInsert_cases h with ⟨hgt, rfl⟩ | ⟨hle, hw, rfl⟩ | ⟨hle, hw, u, -, rfl⟩
  · rw [insertCheck_of_gt hgt]
    exact endsWith_takeFault (by decide) s
  · rw [insertCheck_of_full hle hw]
    exact endsWith_takeFault (by decide) s
  · rw [insertCheck_of_room hle hw]
    exact endsWith_respond rfl rfl

/-- The decoder has checked the operand of `RDSR` (30_encoding.md R98). -/
theorem le_of_decode_rdsr (h : decode w = .ok (.rdsr a)) : a.toNat ≤ 3 := by
  unfold decode decodeFields at h
  split at h
  case h_7 =>
    split at h
    · cases h
      assumption
    · cases h
  case h_1 | h_2 => split at h <;> cases h
  all_goals cases h

/-- A register number in range names a register (10_state.md R25). -/
theorem exists_srOperand (ha : a.toNat ≤ 3) (s : State) : ∃ v, srOperand a s = some v := by
  have hr : a.toNat = 0 ∨ a.toNat = 1 ∨ a.toNat = 2 ∨ a.toNat = 3 := by omega
  rcases hr with hr | hr | hr | hr <;> simp [srOperand, hr]

/-- A command that goes on ends with the status that its checks find. -/
theorem exec_endsWith (hrdsr : ∀ a, i = .rdsr a → a.toNat ≤ 3) (h : exec i s = .next t) :
    EndsWith (commandCheck i s) s t := by
  cases i with
  | nop | init => exact endsWith_respond rfl h
  | rdsr a =>
    obtain ⟨v, hv⟩ := exists_srOperand (hrdsr a rfl) s
    rw [exec_rdsr_of_srOperand hv] at h
    exact endsWith_respond rfl h
  | lookup => exact endsWith_withSym (fun _ => endsWith_respond rfl) h
  | paths => exact endsWith_withSym (fun _ => endsWith_respondPath) h
  | insert => exact endsWith_execInsert h
  | pathn => exact endsWith_withIndex (fun _ => endsWith_respondPath) h
  | rdrank => exact endsWith_execRdrank h
  | rdw | rdsym | rdpar | rdleft | rdright | rdord => exact endsWith_withIndex (fun _ => endsWith_respond rfl) h

/-- An accepted word that goes on ends with the status that its checks find (60_exceptions.md R254, R256). -/
theorem acceptWord_endsWith (h : acceptWord w s = .next t) : EndsWith (wordCheck w s) s t := by
  rcases acceptWord_cases h with ⟨i, hi, h⟩ | ⟨e, he, h⟩
  · rw [wordCheck_of_ok hi]
    exact exec_endsWith (fun a hia => le_of_decode_rdsr (hia ▸ hi)) h
  · cases h
    rw [wordCheck_of_error he]
    exact endsWith_takeFault (by decide) s

/-! ## The statements -/

/-- Settles O34: a word whose checks find a fault ends with the entry of that fault, which is the claim field by field. -/
theorem faultChangesOnlyFlt : Obligations.FaultChangesOnlyFlt := by
  unfold Obligations.FaultChangesOnlyFlt
  intro w s t r h hr hfault
  have hends := acceptWord_endsWith h
  rw [← hends.status_eq hr] at hends
  obtain ⟨hok, -⟩ | ⟨-, rfl⟩ := hends
  · exact absurd hok hfault
  · have hzero : r = { status := r.status } := (Option.some.inj hr).symm
    refine ⟨hzero, ?_, rfl⟩
    rw [takeFault, ← hzero]

/-- Settles O35: reset and `INIT` end in the reset state, and every other word leaves `FLT` to the latch. -/
theorem fltLatchesTheFirstFault : Obligations.FltLatchesTheFirstFault := by
  unfold Obligations.FltLatchesTheFirstFault
  refine ⟨fun s t p hrst h => ?_, fun w s t r h hr => ⟨fun hinit => ?_, fun hinit => ?_⟩⟩
  · rw [portEdge, if_pos hrst] at h
    cases h
    rfl
  · rw [acceptWord, hinit] at h
    cases h
    rfl
  · obtain ⟨q, hq, hflt⟩ := acceptWord_latchesStatus hinit h
    rw [hq] at hr
    cases hr
    exact hflt

/-- Settles O37: the status of a response is what the checks of its word find, and each check finds a fault for its own cause
only. -/
theorem faultsHaveTheirCauses : Obligations.FaultsHaveTheirCauses := by
  unfold Obligations.FaultsHaveTheirCauses
  refine ⟨⟨rfl, rfl, rfl, rfl, rfl, fun c => by cases c <;> decide⟩, fun w s t r h hr => ?_⟩
  rw [(acceptWord_endsWith h).status_eq hr]
  cases hd : decode w with
  | error e => simp [wordCheck_of_error hd]
  | ok i =>
    simp only [wordCheck_of_ok hd, Except.ok.injEq]
    refine ⟨?_, commandCheck_eq_iff (by decide), commandCheck_eq_iff (by decide), commandCheck_eq_iff (by decide)⟩
    simp [commandCheck_eq_iff, CommandCause]

end Sys2Proof.Proofs
end

