-- ==== Sys2Proof/Proofs/ResetPin.lean ====
section
/-! PROOFS. The reset pin (70_reset_and_hazards.md R280): what an edge with `rst` asserted does, and what the two handshake
outputs show during it and after it. -/

namespace Sys2Proof.Proofs

open Sys2Proof.Machine Sys2Proof.Laws

variable {s : State} {p : PortIn} {rest : List PortIn}

/-! ## The handshake outputs -/

/-- No command is accepted under reset (70_reset_and_hazards.md R280). -/
@[simp] theorem cmdReady_rst (s : State) : cmdReady true s = false := rfl

/-- No response is valid under reset (70_reset_and_hazards.md R280). -/
@[simp] theorem rspValid_rst (s : State) : rspValid true s = false := rfl

/-- Without a response the engine is ready (30_encoding.md R91). -/
theorem cmdReady_of_rsp_none (h : s.rsp = none) : cmdReady false s = true := by simp [cmdReady, h]

/-- Without a response none is valid (30_encoding.md R92). -/
theorem rspValid_of_rsp_none (h : s.rsp = none) : rspValid false s = false := by simp [rspValid, h]

/-! ## The edge -/

/-- A step takes the next sample (30_encoding.md R90). -/
theorem step_of_inputs_cons (h : s.inputs = p :: rest) : step s = portEdge p { s with inputs := rest } := by
  rw [step, h]

/-- Reset wins over every other pin (70_reset_and_hazards.md R280). -/
theorem portEdge_of_rst (h : p.rst = true) : portEdge p s = .next (resetEngine s) := if_pos h

/-- The reset edge takes one sample and leaves the reset state. -/
theorem step_of_rst (hin : s.inputs = p :: rest) (hrst : p.rst = true) :
    step s = .next { State.resetOf s.weightBits with inputs := rest } := by
  rw [step_of_inputs_cons hin, portEdge_of_rst hrst, resetEngine]

/-! ## The statement -/

/-- Settles O9: the outputs are gated by `rst`, the reset edge ignores every other pin, and the reset state presents no
response. -/
theorem resetReplacesTheState : Obligations.ResetReplacesTheState := by
  unfold Obligations.ResetReplacesTheState
  intro s p rest hin hrst
  have hstep := step_of_rst hin hrst
  refine ⟨by rw [hrst, cmdReady_rst], by rw [hrst, rspValid_rst], hstep, fun t ht => ?_⟩
  have hrsp : t.rsp = none := by
    rw [hstep] at ht
    cases ht
    rfl
  exact ⟨cmdReady_of_rsp_none hrsp, rspValid_of_rsp_none hrsp⟩

end Sys2Proof.Proofs
end

