-- ==== Sys2Proof/Proofs/Encoding.lean ====
section
/-! PROOFS. The decoder, the encoder and the opcode table (30_encoding.md R93 to R105): the two functions are inverse, and the
table selects the command that the decoder reads. -/

namespace Sys2Proof.Proofs

open Sys2Proof.Machine Sys2Proof.Laws

/-! ## Decoding what was encoded -/

/-- Settles O1: the decoder reads the two fields that the encoder wrote. -/
theorem decodeOfEncode : Obligations.DecodeOfEncode := by
  unfold Obligations.DecodeOfEncode
  intro i hwf
  rw [encode, decode_append]
  cases i with
  | rdsr a => exact if_pos (of_decide_eq_true hwf)
  | _ => rfl

/-! ## Encoding what was decoded -/

/-- A word is its opcode above its operand (30_encoding.md R93). -/
theorem opField_append_argField (w : CmdWord) : opField w ++ argField w = w := by
  apply BitVec.eq_of_getLsbD_eq
  intro i hi
  rw [getLsbD_word, opField, argField, BitVec.getLsbD_extractLsb', BitVec.getLsbD_extractLsb']
  split
  next h => simp [h]
  next h =>
    have hop : i - 12 < 4 := by omega
    have hsum : 12 + (i - 12) = i := by omega
    simp [hop, hsum]

/-- A command whose operand is checked by `p` is decoded exactly when the check succeeds (30_encoding.md R98). -/
theorem ite_eq_ok_iff {p : Prop} [Decidable p] {i j : Instr} {r : DecodeReject} :
    (if p then Except.ok i else .error r) = .ok j ↔ p ∧ i = j := by
  by_cases hp : p <;> simp [hp]

/-- The fields that decode to a command are the command's opcode and operand, and the command is well formed. -/
theorem fields_of_decodeFields {op : Opcode} {a : Arg} {i : Instr} (h : decodeFields op a = .ok i) :
    i.wf = true ∧ opcodeOf i = op ∧ argOf i = a := by
  unfold decodeFields at h
  split at h
  case h_1 hop | h_2 hop => -- `NOP` and `INIT`, whose operand is 0
    obtain ⟨rfl, rfl⟩ := ite_eq_ok_iff.1 h
    exact ⟨rfl, BitVec.eq_of_toNat_eq hop.symm, rfl⟩
  case h_7 hop => -- `RDSR`, whose operand is a register number
    obtain ⟨ha, rfl⟩ := ite_eq_ok_iff.1 h
    exact ⟨decide_eq_true ha, BitVec.eq_of_toNat_eq hop.symm, rfl⟩
  case h_15 => cases h
  all_goals -- the other commands take every operand
    next hop =>
      cases h
      exact ⟨rfl, BitVec.eq_of_toNat_eq hop.symm, rfl⟩

/-- Settles O2: the decoded command has the fields of the word, and a word is its fields. -/
theorem encodeOfDecode : Obligations.EncodeOfDecode := by
  unfold Obligations.EncodeOfDecode
  intro w i h
  obtain ⟨hwf, hop, harg⟩ := fields_of_decodeFields h
  exact ⟨hwf, by rw [encode, hop, harg, opField_append_argField]⟩

/-! ## The table -/

/-- A row's fields: the opcode of a selected word under the mask is that of the pattern, and so is the operand. -/
theorem fields_of_selects {r : TableRow} {w : CmdWord} (h : r.selects w = true) :
    opField w &&& opField r.mask = opField r.pattern ∧ argField w &&& argField r.mask = argField r.pattern := by
  have hw : w &&& r.mask = r.pattern := of_decide_eq_true h
  rw [← hw]
  simp only [opField, argField, BitVec.extractLsb'_and, and_self]

/-- Every row's mask has the whole opcode (30_encoding.md R96). -/
theorem opField_mask {r : TableRow} (hr : r ∈ opcodeTable) : opField r.mask = BitVec.allOnes 4 := by
  revert r
  decide

/-- A row selects only words of its opcode (30_encoding.md R96). -/
theorem opField_of_selects {r : TableRow} {w : CmdWord} (hr : r ∈ opcodeTable) (h : r.selects w = true) :
    opField w = opField r.pattern := by
  obtain ⟨hop, -⟩ := fields_of_selects h
  rwa [opField_mask hr, BitVec.and_allOnes] at hop

/-- No two rows have the same opcode (30_encoding.md R96). -/
theorem nodup_opcodes : (opcodeTable.map fun r => opField r.pattern).Nodup := by decide

/-- An operand with no bit above the lowest two is a register number (30_encoding.md R98). -/
theorem le_three_of_and_eq_zero {a : Arg} (h : a &&& 0xFFC = 0) : a.toNat ≤ 3 := by
  have hlow : a = a &&& 3 := by
    calc a = a &&& (0xFFC ||| 3) := (BitVec.and_allOnes (x := a)).symm
      _ = 0 ||| (a &&& 3) := by rw [BitVec.and_or_distrib_left, h]
      _ = a &&& 3 := BitVec.zero_or
  rw [hlow, BitVec.toNat_and]
  exact Nat.and_le_right

/-- A word that some row selects decodes. -/
theorem exists_decode_of_selects {r : TableRow} {w : CmdWord} (hr : r ∈ opcodeTable) (h : r.selects w = true) :
    ∃ i, decode w = .ok i := by
  have hop := opField_of_selects hr h
  obtain ⟨-, harg⟩ := fields_of_selects h
  suffices hok : ∃ i, decodeFields (opField r.pattern) (argField w) = .ok i by rwa [decode, hop]
  simp only [opcodeTable, List.mem_cons, List.not_mem_nil, or_false] at hr
  rcases hr with rfl | rfl | rfl | rfl | rfl | rfl | rfl | rfl | rfl | rfl | rfl | rfl | rfl | rfl
  · exact ⟨.nop, if_pos ((BitVec.and_allOnes (x := argField w)).symm.trans harg)⟩
  · exact ⟨.init, if_pos ((BitVec.and_allOnes (x := argField w)).symm.trans harg)⟩
  iterate 4 exact ⟨_, rfl⟩ -- `LOOKUP` to `PATHN` take every operand
  · exact ⟨.rdsr _, if_pos (le_three_of_and_eq_zero harg)⟩
  iterate 7 exact ⟨_, rfl⟩ -- and so do `RDW` to `RDORD`

/-- The word of every well-formed command is selected by the row with its mnemonic (30_encoding.md R96). -/
theorem rowOfWord (i : Instr) : RowOfWord.Statement i := by
  cases i with
  | nop => exact RowOfWord.nop
  | init => exact RowOfWord.init
  | lookup a => exact RowOfWord.lookup a
  | insert a => exact RowOfWord.insert a
  | paths a => exact RowOfWord.paths a
  | pathn a => exact RowOfWord.pathn a
  | rdsr a => exact RowOfWord.rdsr a
  | rdw a => exact RowOfWord.rdw a
  | rdsym a => exact RowOfWord.rdsym a
  | rdpar a => exact RowOfWord.rdpar a
  | rdleft a => exact RowOfWord.rdleft a
  | rdright a => exact RowOfWord.rdright a
  | rdrank a => exact RowOfWord.rdrank a
  | rdord a => exact RowOfWord.rdord a

/-- The row of a decoded command selects the word. -/
theorem exists_row_of_decode {w : CmdWord} {i : Instr} (h : decode w = .ok i) :
    ∃ r ∈ opcodeTable, r.selects w = true ∧ r.mnemonic = mnemonicOf i := by
  obtain ⟨hwf, rfl⟩ := encodeOfDecode w i h
  obtain ⟨r, hr, hname, hsel⟩ := rowOfWord i hwf
  exact ⟨r, hr, hsel, hname⟩

/-- Settles O3: a row selects only words of its opcode, which no other row has; the rows' operand checks are the decoder's. -/
theorem tableRowsSelectTheDecodedCommand : Obligations.TableRowsSelectTheDecodedCommand := by
  unfold Obligations.TableRowsSelectTheDecodedCommand
  refine fun w => ⟨fun r₁ h₁ r₂ h₂ hs₁ hs₂ => ?_, ⟨?_, ?_⟩, fun i => exists_row_of_decode⟩
  · exact List.inj_on_of_nodup_map nodup_opcodes h₁ h₂
      ((opField_of_selects h₁ hs₁).symm.trans (opField_of_selects h₂ hs₂))
  · rintro ⟨r, hr, hsel⟩
    exact exists_decode_of_selects hr hsel
  · rintro ⟨i, hi⟩
    obtain ⟨r, hr, hsel, -⟩ := exists_row_of_decode hi
    exact ⟨r, hr, hsel⟩

/-- Settles O5: each word is a fixed value, which the decoder evaluates. -/
theorem sampleWordsDecode : Obligations.SampleWordsDecode := by
  unfold Obligations.SampleWordsDecode
  decide

end Sys2Proof.Proofs
end

