-- ==== Sys2Proof/Proofs/Ports.lean ====
section
/-! PROOFS. One edge without reset (30_encoding.md R91, R92): a response waits for the host, a command for a ready engine, and
without either nothing happens (60_exceptions.md R260). -/

namespace Sys2Proof.Proofs

open Sys2Proof.Machine Sys2Proof.Laws

variable {s t : State} {p : PortIn} {rest : List PortIn}

/-! ## The edge without reset -/

/-- A presented response stays until it is taken, whatever command is on the pins (30_encoding.md R92). -/
theorem portEdge_of_rsp {r : Response} (hrst : p.rst = false) (hr : s.rsp = some r) :
    portEdge p s = .next { s with rsp := if p.rspReady then none else some r } := by
  simp only [portEdge, hrst, hr, Bool.false_eq_true, if_false]
  cases p.rspReady
  · exact congrArg (fun q => Host.Outcome.next { s with rsp := q }) hr
  · rfl

/-- A command on the pins of a ready engine is accepted (30_encoding.md R91). -/
theorem portEdge_of_command (hrst : p.rst = false) (hcmd : p.cmdValid = true) (hr : s.rsp = none) :
    portEdge p s = acceptWord p.cmd s := by
  rw [portEdge, hrst, hr, hcmd]
  rfl

/-- Without a command a ready engine stays as it is (60_exceptions.md R260). -/
theorem portEdge_of_no_command (hrst : p.rst = false) (hcmd : p.cmdValid = false) (hr : s.rsp = none) :
    portEdge p s = .next s := by
  rw [portEdge, hrst, hr, hcmd]
  rfl

/-- A legal word runs its command (30_encoding.md R105). -/
theorem acceptWord_of_decode_ok {w : CmdWord} {i : Instr} (h : decode w = .ok i) (s : State) :
    acceptWord w s = exec i s := by
  rw [acceptWord, h]

/-- A step of a ready engine accepts the word on the pins. -/
theorem step_of_command (hin : s.inputs = p :: rest) (hrst : p.rst = false) (hcmd : p.cmdValid = true)
    (hr : s.rsp = none) : step s = acceptWord p.cmd { s with inputs := rest } :=
  (step_of_inputs_cons hin).trans (portEdge_of_command hrst hcmd hr)

/-- With a response on the port the engine is not ready (30_encoding.md R91). -/
theorem cmdReady_of_rsp_some {r : Response} (rst : Bool) (h : s.rsp = some r) : cmdReady rst s = false := by
  simp [cmdReady, h]

/-- A response on the port is valid without reset (30_encoding.md R92). -/
theorem rspValid_of_rsp_some {r : Response} (h : s.rsp = some r) : rspValid false s = true := by
  simp [rspValid, h]

/-! ## The statements -/

/-- Settles O6: the step accepts the word, which decodes. -/
theorem stepRunsDecodedCommand : Obligations.StepRunsDecodedCommand := by
  unfold Obligations.StepRunsDecodedCommand
  intro s p rest i hin hrst hcmd hr hi
  rw [step_of_command hin hrst hcmd hr, acceptWord_of_decode_ok hi]

/-- Settles O7: the step accepts the word, which does not decode. -/
theorem stepFaultsOnIllegalWord : Obligations.StepFaultsOnIllegalWord := by
  unfold Obligations.StepFaultsOnIllegalWord
  intro s p rest e hin hrst hcmd hr he
  rw [step_of_command hin hrst hcmd hr, acceptWord_of_decode_error he]

/-- Settles O8: the edge touches the response port alone, and a taken response frees the engine. -/
theorem commandWaitsUntilResponseIsTaken : Obligations.CommandWaitsUntilResponseIsTaken := by
  unfold Obligations.CommandWaitsUntilResponseIsTaken
  intro s p rest r hin hrst hr
  have hstep : step s = .next { s with inputs := rest, rsp := if p.rspReady then none else some r } :=
    (step_of_inputs_cons hin).trans (portEdge_of_rsp hrst hr)
  refine ⟨cmdReady_of_rsp_some false hr, rspValid_of_rsp_some hr, hstep, fun t ht htake => ?_⟩
  have hnone : t.rsp = none := by
    rw [hstep] at ht
    cases ht
    exact if_pos htake
  exact ⟨cmdReady_of_rsp_none hnone, rspValid_of_rsp_none hnone⟩

/-- Settles O10: no sample is an edge without effect, and so is one without reset and command. -/
theorem nothingHappensWithoutACommand : Obligations.NothingHappensWithoutACommand := by
  unfold Obligations.NothingHappensWithoutACommand
  refine ⟨fun s hin => by rw [step, hin], fun s p rest hin hrst hcmd hr => ?_⟩
  exact (step_of_inputs_cons hin).trans (portEdge_of_no_command hrst hcmd hr)

end Sys2Proof.Proofs
end

