-- ==== Sys2Proof/Proofs/Soundness.lean ====
section
/-! PROOFS. Every command of a sound state completes or faults, keeps the state sound and presents a response
(10_state.md section 9, 30_encoding.md R92, 93_implementation_defined.md U6, U9). -/

namespace Sys2Proof.Proofs

open Sys2Proof.Machine Sys2Proof.Laws

variable {s t : State} {a : Arg} {i : Instr}

/-! ## A command keeps soundness -/

theorem RespondsOrFaults.inv (h : RespondsOrFaults s t) (hs : Inv s) : Inv t := by
  obtain ⟨r, -, rfl⟩ | ⟨c, -, rfl⟩ := h
  · exact inv_withRsp _ hs
  · exact inv_takeFault c hs

/-- In a sound state the root's weight is below the greatest one, or is it (42_tree_update_engine.md R151). -/
theorem weight_root_lt (hs : Inv s) (hw : s.weight s.root ≠ weightMax s.weightBits) :
    s.weight s.root < weightMax s.weightBits :=
  lt_of_le_of_ne hs.width.2 hw

/-- The part of `INSERT` after its checks keeps soundness below the greatest weight. -/
theorem inv_insertSymbol {y : Sym} (hs : Inv s) (hw : s.weight s.root ≠ weightMax s.weightBits)
    (h : s.insertSymbol y = .ok t) : Inv t := by
  obtain ⟨u, hu, hsound, -⟩ := exists_insertSymbol hs (weight_root_lt hs hw) y
  cases hu.symm.trans h
  exact hsound

theorem inv_execInsert (hs : Inv s) (h : execInsert a s = .next t) : Inv t := by
  rcases execInsert_cases h with ⟨-, rfl⟩ | ⟨-, -, rfl⟩ | ⟨-, hw, u, hu, rfl⟩
  · exact inv_takeFault _ hs
  · exact inv_takeFault _ hs
  · exact inv_withRsp _ (inv_insertSymbol hs hw hu)

/-- Every command keeps soundness (70_reset_and_hazards.md R288). -/
theorem inv_exec (hs : Inv s) (h : exec i s = .next t) : Inv t := by
  by_cases hinit : i = .init
  · subst hinit
    rw [exec_init] at h
    cases h
    exact inv_withRsp _ (inv_resetEngine hs.width.1)
  by_cases hinsert : ∃ a, i = .insert a
  · obtain ⟨a, rfl⟩ := hinsert
    exact inv_execInsert hs h
  · exact (exec_respondsOrFaults hinit (not_exists.1 hinsert) h).inv hs

theorem inv_acceptWord {w : CmdWord} (hs : Inv s) (h : acceptWord w s = .next t) : Inv t := by
  rcases acceptWord_cases h with ⟨i, -, h⟩ | ⟨e, -, h⟩
  · exact inv_exec hs h
  · cases h
    exact inv_takeFault _ hs

theorem inv_portEdge {p : PortIn} (hs : Inv s) (h : portEdge p s = .next t) : Inv t := by
  rcases portEdge_cases h with ⟨-, h⟩ | ⟨-, r, -, h⟩ | ⟨-, -, -, h⟩ | ⟨-, -, -, h⟩
  · cases h
    exact inv_resetEngine hs.width.1
  · cases h
    split
    · exact inv_takeResponse hs
    · exact hs
  · exact inv_acceptWord hs h
  · cases h
    exact hs

/-! ## A command completes -/

/-- A command with an index operand completes where it does for an allocated node. -/
theorem exists_withIndex {k : Nat → Host.Outcome State Fault Refusal}
    (hk : a.toNat < s.ncount → ∃ t, k a.toNat = .next t) : ∃ t, withIndex a s k = .next t := by
  rcases Nat.lt_or_ge a.toNat s.ncount with hlt | hge
  · rw [withIndex_of_lt hlt]
    exact hk hlt
  · exact ⟨_, withIndex_of_ge hge⟩

/-- A command with a symbol operand completes where it does for a byte value. -/
theorem exists_withSym {k : Sym → Host.Outcome State Fault Refusal}
    (hk : a.toNat ≤ 255 → ∃ t, k (a.extractLsb' 0 8) = .next t) : ∃ t, withSym a s k = .next t := by
  rcases Nat.lt_or_ge 255 a.toNat with hgt | hle
  · exact ⟨_, withSym_of_gt hgt⟩
  · rw [withSym_of_le hle]
    exact hk hle

theorem exists_execRdsr (a : Arg) (s : State) : ∃ t, execRdsr a s = .next t := by
  unfold execRdsr withSr
  split
  · exact ⟨_, rfl⟩
  · exact ⟨_, rfl⟩

/-- In a sound state an allocated node's path can be answered (93_implementation_defined.md U9). -/
theorem exists_respondPath {n data : Nat} {flag : Bool} (hs : Inv s) (hn : n < s.ncount) :
    ∃ t, respondPath s n flag data = .next t := by
  obtain ⟨bits, hbits⟩ := exists_path hs hn
  exact ⟨_, respondPath_of_path hbits⟩

theorem exists_execRdrank (hs : Inv s) (a : Arg) : ∃ t, execRdrank a s = .next t := by
  refine exists_withIndex fun hlt => ?_
  obtain ⟨k, hk⟩ := exists_rank hs hlt
  rw [hk]
  exact ⟨_, rfl⟩

/-- In a sound state `INSERT` completes or faults (93_implementation_defined.md U6, U9). -/
theorem exists_execInsert (hs : Inv s) (a : Arg) : ∃ t, execInsert a s = .next t := by
  refine exists_withSym fun _ => ?_
  split
  · exact ⟨_, rfl⟩
  next hw =>
    obtain ⟨t, ht, -⟩ := exists_insertSymbol hs (weight_root_lt hs hw) (a.extractLsb' 0 8)
    rw [ht]
    exact ⟨_, rfl⟩

/-- In a sound state every command completes or faults. -/
theorem exists_exec (hs : Inv s) (i : Instr) : ∃ t, exec i s = .next t := by
  cases i with
  | nop | init => exact ⟨_, rfl⟩
  | rdsr a => exact exists_execRdsr a s
  | insert a => exact exists_execInsert hs a
  | lookup a => exact exists_withSym fun _ => ⟨_, rfl⟩
  | paths a => exact exists_withSym fun _ => exists_respondPath hs (pathTarget_lt hs _)
  | pathn a => exact exists_withIndex fun hlt => exists_respondPath hs hlt
  | rdrank a => exact exists_execRdrank hs a
  | rdw | rdsym | rdpar | rdleft | rdright | rdord => exact exists_withIndex fun _ => ⟨_, rfl⟩

theorem exists_acceptWord (hs : Inv s) (w : CmdWord) : ∃ t, acceptWord w s = .next t := by
  cases h : decode w with
  | ok i =>
    rw [acceptWord_of_decode_ok h]
    exact exists_exec hs i
  | error e => exact ⟨_, acceptWord_of_decode_error h s⟩

theorem exists_portEdge (hs : Inv s) (p : PortIn) : ∃ t, portEdge p s = .next t := by
  rcases portEdge_cases (p := p) (s := s) rfl with ⟨-, h⟩ | ⟨-, r, -, h⟩ | ⟨-, -, -, h⟩ | ⟨-, -, -, h⟩
  · exact ⟨_, h⟩
  · exact ⟨_, h⟩
  · rw [← h]
    exact exists_acceptWord hs p.cmd
  · exact ⟨_, h⟩

/-! ## The response of an accepted word -/

theorem RespondsOrFaults.inputs_eq (h : RespondsOrFaults s t) : t.inputs = s.inputs := by
  obtain ⟨r, -, rfl⟩ | ⟨c, -, rfl⟩ := h <;> rfl

theorem inputs_execInsert (h : execInsert a s = .next t) : t.inputs = s.inputs := by
  rcases execInsert_cases h with ⟨-, rfl⟩ | ⟨-, -, rfl⟩ | ⟨-, -, u, hu, rfl⟩
  · rfl
  · rfl
  · obtain ⟨-, -, hinputs⟩ := frame_insertSymbol hu
    exact hinputs

/-- A command that goes on presents a response and reads no pin sample (30_encoding.md R92). -/
theorem exec_responds (h : exec i s = .next t) : (∃ r, t.rsp = some r) ∧ t.inputs = s.inputs := by
  by_cases hinit : i = .init
  · subst hinit
    rw [exec_init] at h
    cases h
    exact ⟨⟨_, rfl⟩, rfl⟩
  obtain ⟨r, hr, -⟩ := exec_latchesStatus hinit h
  refine ⟨⟨r, hr⟩, ?_⟩
  by_cases hinsert : ∃ a, i = .insert a
  · obtain ⟨a, rfl⟩ := hinsert
    exact inputs_execInsert h
  · exact (exec_respondsOrFaults hinit (not_exists.1 hinsert) h).inputs_eq

theorem acceptWord_responds {w : CmdWord} (h : acceptWord w s = .next t) :
    (∃ r, t.rsp = some r) ∧ t.inputs = s.inputs := by
  rcases acceptWord_cases h with ⟨i, -, h⟩ | ⟨e, -, h⟩
  · exact exec_responds h
  · cases h
    exact ⟨⟨_, rfl⟩, rfl⟩

/-! ## The statements -/

/-- Settles O33: it is how every command but `INIT` and `INSERT` ends. -/
theorem readCommandsChangeNoState : Obligations.ReadCommandsChangeNoState :=
  fun _ _ _ hinit hinsert h => exec_respondsOrFaults hinit hinsert h

/-- Settles O13: it is where sessions start. -/
theorem resetStateIsSound : Obligations.ResetStateIsSound := fun _ => inv_resetOf

/-- Settles O14: the step is one edge, and every command keeps soundness. -/
theorem stepKeepsStateSound : Obligations.StepKeepsStateSound := by
  unfold Obligations.StepKeepsStateSound
  intro s t hs h
  rcases step_cases h with ⟨-, h⟩ | ⟨p, rest, -, h⟩
  · cases h
    exact hs
  · exact inv_portEdge (inv_withInputs rest hs) h

/-- In a sound state every step goes on. -/
theorem exists_step (hs : Inv s) : ∃ t, step s = .next t := by
  rcases step_cases (s := s) rfl with ⟨-, h⟩ | ⟨p, rest, -, h⟩
  · exact ⟨s, h⟩
  · rw [← h]
    exact exists_portEdge (inv_withInputs rest hs) p

/-- A run goes on after a step that does (Host/Core.lean). -/
theorem run_succ_of_next {M : Host.Core} {u v : M.State} (h : M.step u = .next v) (k : Nat) :
    M.run (k + 1) u = M.run k v := by
  rw [Host.Core.run, h]

/-- Settles O15, by induction on the number of steps: each goes on in a sound state. -/
theorem soundStateNeverStops : Obligations.SoundStateNeverStops := by
  unfold Obligations.SoundStateNeverStops
  intro s hs k
  induction k generalizing s with
  | zero => exact ⟨s, rfl⟩
  | succ k ih =>
    obtain ⟨t, ht⟩ := exists_step hs
    obtain ⟨u, hu⟩ := ih t (stepKeepsStateSound s t hs ht)
    exact ⟨u, (run_succ_of_next (M := Sys2Proof.core) ht k).trans hu⟩

/-- Settles O11: the step accepts the word, whose command completes and presents a response. -/
theorem everyAcceptedWordGetsItsResponse : Obligations.EveryAcceptedWordGetsItsResponse := by
  unfold Obligations.EveryAcceptedWordGetsItsResponse
  intro s p rest hs hin hrst hcmd hr
  rw [step_of_command hin hrst hcmd hr]
  obtain ⟨t, ht⟩ := exists_acceptWord (inv_withInputs rest hs) p.cmd
  obtain ⟨⟨r, hresponse⟩, hinputs⟩ := acceptWord_responds ht
  exact ⟨t, r, ht, hresponse, hinputs⟩

end Sys2Proof.Proofs
end

