-- ==== Sys2Proof/Proofs/InsertFrame.lean ====
section
/-! PROOFS. `INSERT` of a sound state below the weight limit (42_tree_update_engine.md R150 to R160): its checks, its answer,
its frame, the first tree of a session, two of its parts, and the room that a split needs. -/

namespace Sys2Proof.Proofs

open Sys2Proof.Machine Sys2Proof.Laws

variable {s t : State} {a : Arg} {y : Sym} {n : Nat}

/-! ## The checks (42_tree_update_engine.md R151) -/

/-- `INSERT` of a value that is no byte faults first. -/
theorem exec_insert_of_gt (ha : 255 < a.toNat) : exec (.insert a) s = .next (takeFault .alphabet s) :=
  withSym_of_gt ha

/-- `INSERT` at the greatest root weight faults. -/
theorem exec_insert_of_full (ha : a.toNat ≤ 255) (hw : s.weight s.root = weightMax s.weightBits) :
    exec (.insert a) s = .next (takeFault .weightOverflow s) := by
  rw [exec, execInsert, withSym_of_le ha, if_pos hw, raise_eq]

/-- Settles O38: the two checks by the equations of `INSERT`. -/
theorem insertChecksAlphabetThenWeight : Obligations.InsertChecksAlphabetThenWeight :=
  ⟨fun _ _ => exec_insert_of_gt, fun _ _ => exec_insert_of_full⟩

/-! ## The answer -/

/-- `INSERT` that passes its checks ends in the updated tree with the response of R150. -/
theorem exec_insert_cases (ha : a.toNat ≤ 255) (hw : s.weight s.root ≠ weightMax s.weightBits)
    (h : exec (.insert a) s = .next t) :
    ∃ u, s.insertSymbol (a.extractLsb' 0 8) = .ok u ∧
      t = { u with rsp := some { flag := (s.lookup (a.extractLsb' 0 8)).isNone,
                                 data := (u.lookup (a.extractLsb' 0 8)).getD 0 } } := by
  rcases execInsert_cases h with ⟨hgt, -⟩ | ⟨-, hfull, -⟩ | ⟨-, -, hu⟩
  · omega
  · exact absurd hfull hw
  · exact hu

/-- After `INSERT` its symbol owns its old leaf, or the second of the two new nodes (42_tree_update_engine.md R150, R154). -/
theorem lookup_insertSymbol_self (h : s.insertSymbol y = .ok t) :
    t.lookup y = some ((s.lookup y).getD (s.ncount + 1)) := by
  rcases insertSymbol_cases h with ⟨f, hf, hphase⟩ | ⟨u, cur, hy, hsplit, hphase⟩
  · rw [lookup_congr (sidx_incrementPhase hphase), hf, Option.getD_some]
  · rw [lookup_congr (sidx_incrementPhase hphase), lookup_split_eq hsplit, if_pos rfl, hy, Option.getD_none]

/-- `INSERT` of a symbol writes no other symbol's entry (41_symbol_leaf_mapper.md R141). -/
theorem lookup_insertSymbol_of_ne {z : Sym} (hz : z ≠ y) (h : s.insertSymbol y = .ok t) : t.lookup z = s.lookup z := by
  rcases insertSymbol_cases h with ⟨f, -, hphase⟩ | ⟨u, cur, -, hsplit, hphase⟩
  · exact lookup_congr (sidx_incrementPhase hphase) z
  · rw [lookup_congr (sidx_incrementPhase hphase), lookup_split_eq hsplit, if_neg hz.symm]

/-- Settles O39: the update completes in a sound state, and the response reads the entry that it leaves. -/
theorem insertCompletes : Obligations.InsertCompletes := by
  unfold Obligations.InsertCompletes
  intro a s hs ha hw
  obtain ⟨t, ht⟩ := exists_exec hs (.insert a)
  obtain ⟨u, hu, rfl⟩ := exec_insert_cases ha hw ht
  have hf := lookup_insertSymbol_self hu
  exact ⟨_, _, ht, hf, by rw [hf, Option.getD_some], rfl⟩

/-! ## The frame -/

/-- `INSERT` of an unseen symbol allocates two nodes (42_tree_update_engine.md R154). -/
theorem ncount_insertSymbol (h : s.insertSymbol y = .ok t) :
    t.ncount = if s.lookup y = none then s.ncount + 2 else s.ncount := by
  rcases insertSymbol_cases h with ⟨f, hf, hphase⟩ | ⟨u, cur, hy, hsplit, hphase⟩
  · obtain ⟨-, -, -, hncount, -⟩ := sameBut_incrementPhase hphase
    rw [hncount, if_neg (by simp [hf])]
  · obtain ⟨-, -, -, hncount, -⟩ := sameBut_incrementPhase hphase
    obtain ⟨hncount', -⟩ := fields_split hsplit
    rw [hncount, hncount', if_pos hy]

/-- `INSERT` keeps the symbol and the kind of every old node (10_state.md R30). -/
theorem kind_insertSymbol (hs : Inv s) (h : s.insertSymbol y = .ok t) (hn : n < s.ncount) :
    t.sym n = s.sym n ∧ (t.kids n).isSome = (s.kids n).isSome := by
  rcases insertSymbol_cases h with ⟨f, -, hphase⟩ | ⟨u, cur, -, hsplit, hphase⟩
  · obtain ⟨-, -, -, -, -, -, -, -, -, -, hkind⟩ := sameBut_incrementPhase hphase
    exact hkind n
  · obtain ⟨-, -, -, -, -, -, -, -, -, -, hkind⟩ := sameBut_incrementPhase hphase
    obtain ⟨-, hsym, -, hkids⟩ := fields_split_old hs hsplit hn
    obtain ⟨hsym', hkids'⟩ := hkind n
    exact ⟨hsym'.trans hsym, by rw [hkids', hkids, Option.isSome_map]⟩

/-- While only the NYT leaf is allocated no symbol is seen (10_state.md R23). -/
theorem lookup_eq_none_of_ncount_one (hs : Inv s) (h : s.ncount = 1) (y : Sym) : s.lookup y = none := by
  rcases hy : s.lookup y with _ | f
  · rfl
  · obtain ⟨hlt, -⟩ := leaf_of_lookup hs hy
    have hne := ne_zero_of_lookup hs hy
    omega

/-- `ROOT` changes only at the first split of a session, to 1: it is 0 with one node and 1 with more (10_state.md R25). -/
theorem root_insertSymbol (hs : Inv s) (ht : Inv t) (h : s.insertSymbol y = .ok t) :
    t.root = if s.ncount = 1 then 1 else s.root := by
  obtain ⟨-, hroot⟩ := hs.registers
  obtain ⟨-, hroot'⟩ := ht.registers
  have hncount := ncount_insertSymbol h
  have hpos := Inv.root_lt hs
  by_cases hone : s.ncount = 1
  · rw [if_pos (lookup_eq_none_of_ncount_one hs hone y)] at hncount
    rw [hroot', if_pos hone, if_neg (by omega)]
  · have hmore : t.ncount ≠ 1 := by split at hncount <;> omega
    rw [hroot', hroot, if_neg hone, if_neg hone, if_neg hmore]

/-- Settles O47: each clause is what the split and the increment phase leave, and the registers are those of a sound state. -/
theorem insertLeavesTheRestUnchanged : Obligations.InsertLeavesTheRestUnchanged := by
  unfold Obligations.InsertLeavesTheRestUnchanged
  intro a s t hs ha hw h
  obtain ⟨u, hu, rfl⟩ := exec_insert_cases ha hw h
  have hsound := inv_insertSymbol hs hw hu
  obtain ⟨hwidth, -, hinputs⟩ := frame_insertSymbol hu
  obtain ⟨hnyt, -⟩ := hs.registers
  obtain ⟨hnyt', -⟩ := hsound.registers
  exact ⟨hwidth, hinputs, hnyt'.trans hnyt.symm, flt_insertSymbol (t := u) hu,
    fun _ _ hf => lookup_insertSymbol (t := u) hf hu,
    fun _ hz => lookup_insertSymbol_of_ne (t := u) hz hu, fun _ hn => kind_insertSymbol (t := u) hs hu hn,
    ncount_insertSymbol (t := u) hu, root_insertSymbol (t := u) hs hsound hu⟩

/-! ## The first tree of a session -/

/-- The first symbol of a session is split off the root, and there is no node to increment
(42_tree_update_engine.md R166, example 1). -/
theorem insertSymbol_resetOf (wb : Nat) (y : Sym) :
    (State.resetOf wb).insertSymbol y = .ok
      { State.resetOf wb with
        root := 1
        ncount := 3
        nodes := [⟨0, none, some 1, none⟩, ⟨1, none, none, some (0, 2)⟩, ⟨1, some y, some 1, none⟩]
        ord := [0, 2, 1]
        sidx := [(y, 2)] } := rfl

/-- A width of at least one bit leaves room for the first symbol. -/
theorem weightMax_pos {wb : Nat} (h : 1 ≤ wb) : 0 < weightMax wb :=
  Nat.sub_pos_of_lt (Nat.one_lt_two_pow (Nat.one_le_iff_ne_zero.1 h))

/-- Settles O40: the first split of a session, evaluated for every symbol. -/
theorem firstInsertBuildsTheFirstTree : Obligations.FirstInsertBuildsTheFirstTree := by
  unfold Obligations.FirstInsertBuildsTheFirstTree
  intro wb a hwb ha
  have hroom : (State.resetOf wb).weight (State.resetOf wb).root ≠ weightMax (State.resetOf wb).weightBits :=
    (weightMax_pos hwb).ne
  rw [exec, execInsert, withSym_of_le ha, if_neg hroom, insertSymbol_resetOf]
  simp [State.lookup, indexLookup]

/-! ## Two parts of `INSERT` -/

/-- Settles O44: the two ranks are there, and one of the two parents is not. -/
theorem swapWithoutParentIsStuck : Obligations.SwapWithoutParentIsStuck := by
  unfold Obligations.SwapWithoutParentIsStuck
  intro s a b ha hb hp
  obtain ⟨ka, hka⟩ := Option.ne_none_iff_exists'.1 ha
  obtain ⟨kb, hkb⟩ := Option.ne_none_iff_exists'.1 hb
  rw [State.swap, hka, hkb]
  rcases hp with hp | hp
  · rw [hp]
  · rw [hp]
    cases s.parent a <;> rfl

/-- Settles O45: the weight's successor does not wrap, and an entry's update touches no other. -/
theorem incrementAddsOne : Obligations.IncrementAddsOne := by
  unfold Obligations.IncrementAddsOne
  intro s n hn hw
  have hsucc : weightSucc s.weightBits (s.weight n) = s.weight n + 1 := Nat.mod_eq_of_lt (by omega)
  refine ⟨?_, fun m hm => ?_, rfl⟩
  · rw [State.increment, hsucc, State.setWeight, node_modNode, if_pos ⟨rfl, hn⟩]
  · rw [State.increment, State.setWeight, node_modNode, if_neg (fun h => hm h.1.symm)]

/-! ## Room for a split -/

/-- Settles O50: at most 255 symbols are seen, and `NCOUNT` counts two nodes for each. -/
theorem anUnseenSymbolLeavesRoom : Obligations.AnUnseenSymbolLeavesRoom := by
  unfold Obligations.AnUnseenSymbolLeavesRoom
  intro s y hs hy
  have hseen := length_le_of_unseen hs.index hy
  obtain ⟨-, hcount, -⟩ := hs.count
  exact ⟨by omega, show s.ncount + 2 ≤ 513 by omega⟩

end Sys2Proof.Proofs
end

