-- ==== Sys2Proof/Proofs/InsertWeights.lean ====
section
/-! PROOFS. The weights after `INSERT` (42_tree_update_engine.md R162): the nodes visited by the increment phase stand on one
another as child and parent, and when the phase ends they are the leaf and its ancestors. -/

namespace Sys2Proof.Proofs

open Sys2Proof.Machine Sys2Proof.Laws

/-! ## A climb along parent links -/

/-- The nodes of the list are each the parent of the one before it, from the node `start` on, and the link of the last leads
to `stop`. -/
def Climbs (s : State) (start : Option Nat) : List Nat → Option Nat → Prop
  | [], stop => start = stop
  | n :: ns, stop => start = some n ∧ Climbs s (s.parent n) ns stop

section Climb

variable {s t : State} {start stop : Option Nat} {ns : List Nat} {n m : Nat}

/-- A climb that has come to a node can go on to its parent. -/
theorem Climbs.concat (h : Climbs s start ns (some n)) : Climbs s start (ns ++ [n]) (s.parent n) := by
  induction ns generalizing start with
  | nil => exact ⟨h, rfl⟩
  | cons m ns ih =>
    obtain ⟨hstart, h⟩ := h
    exact ⟨hstart, ih h⟩

/-- A climb stays one where the links of its nodes stay. -/
theorem Climbs.congr (h : Climbs s start ns stop) (hp : ∀ m ∈ ns, t.parent m = s.parent m) : Climbs t start ns stop := by
  induction ns generalizing start with
  | nil => exact h
  | cons m ns ih =>
    obtain ⟨hstart, h⟩ := h
    refine ⟨hstart, ?_⟩
    rw [hp m List.mem_cons_self]
    exact ih h fun k hk => hp k (List.mem_cons_of_mem _ hk)

/-- A climb leads upward in rank: all its nodes rank below the one that it has come to (10_state.md R40). -/
theorem Climbs.idxOf_lt (h : Climbs s start ns (some n)) (hs : Shape s) (hstart : ∀ k, start = some k → k < s.ncount) :
    ∀ m ∈ ns, m < s.ncount ∧ s.ord.idxOf m < s.ord.idxOf n := by
  induction ns generalizing start with
  | nil => simp
  | cons k ns ih =>
    obtain ⟨rfl, h⟩ := h
    have hk : k < s.ncount := hstart k rfl
    have habove := ih h fun _ => hs.parent_lt hk
    have hkn : s.ord.idxOf k < s.ord.idxOf n := by
      cases ns with
      | nil => exact hs.idxOf_lt_parent hk h
      | cons p ns =>
        obtain ⟨hp, -⟩ := h
        exact (hs.idxOf_lt_parent hk hp).trans (habove p List.mem_cons_self).2
    intro m hm
    rcases List.mem_cons.1 hm with rfl | hm
    · exact ⟨hk, hkn⟩
    · exact habove m hm

/-- A climb that ends at the root has passed the node and its ancestors; each link leads to a higher rank, so as many links
as there are ranks from the node on are enough. -/
theorem Climbs.upward_eq {fuel : Nat} (h : Climbs s (some n) ns none) (hs : Shape s) (hn : n < s.ncount)
    (hfuel : s.ncount ≤ fuel + s.ord.idxOf n) : s.upward fuel n = ns := by
  induction ns generalizing n fuel with
  | nil => cases h
  | cons k ns ih =>
    obtain ⟨hk, h⟩ := h
    cases hk
    unfold State.upward
    rcases hp : s.parent k with _ | p
    · cases ns with
      | nil => rfl
      | cons m ns =>
        obtain ⟨hm, -⟩ := h
        cases hm.symm.trans hp
    · have hlt : s.ord.idxOf k < s.ord.idxOf p := hs.idxOf_lt_parent hn hp
      have hrank : s.ord.idxOf p < s.ncount := hs.idxOf_lt (hs.parent_lt hn hp)
      obtain ⟨fuel, rfl⟩ := Nat.exists_eq_add_of_le' (show 1 ≤ fuel by omega)
      exact congrArg (k :: ·) (ih (hp ▸ h) (hs.parent_lt hn hp) (by omega))

/-- The nodes up to the root depend on the node store alone. -/
theorem upward_congr (h : t.nodes = s.nodes) (fuel n : Nat) : t.upward fuel n = s.upward fuel n := by
  induction fuel generalizing n with
  | zero =>
    unfold State.upward
    rw [State.parent, State.parent, node_congr h]
  | succ fuel ih =>
    unfold State.upward
    rw [State.parent, State.parent, node_congr h]
    simp only [ih]

theorem upward_withRsp (r : Option Response) (fuel n : Nat) :
    { s with rsp := r }.upward fuel n = s.upward fuel n :=
  upward_congr (s := s) (t := { s with rsp := r }) rfl fuel n

end Climb

/-! ## The nodes visited -/

/-- The increment phase that began with the weights `w` at the leaf `f` has come to the cursor `cur`: the nodes `ns` up to it
weigh one more, and no others. -/
def Raised (w : Nat → Nat) (f : Nat) (cur : Option Nat) (ns : List Nat) (s : State) : Prop :=
  f < s.ncount ∧ Climbs s (some f) ns cur ∧ ∀ m, m < s.ncount → s.weight m = w m + if m ∈ ns then 1 else 0

section Visit

variable {s t : State} {w : Nat → Nat} {f n m total : Nat} {ns : List Nat}

/-- `enforce` keeps every weight, and the parent of every node that ranks below the cursor's (42_tree_update_engine.md R157,
R159): it moves the node and its leader, which ranks no lower. -/
theorem enforce_keeps (hs : Shape s) (hn : n < s.ncount) (h : s.enforce n = .ok t) :
    (∀ m, t.weight m = s.weight m) ∧ ∀ m, s.ord.idxOf m < s.ord.idxOf n → t.parent m = s.parent m := by
  obtain ⟨l, hl, -, -, hle, -⟩ := hs.exists_leader hn
  obtain ⟨l', hl', ⟨-, hswap⟩ | ⟨-, rfl⟩⟩ := enforce_cases h
  · cases hl.symm.trans hl'
    obtain ⟨ka, kb, pa, pb, sa, sb, -, -, -, -, -, -, rfl⟩ := swap_cases hswap
    refine ⟨weight_exchange, fun m hm => ?_⟩
    have hmn : n ≠ m := by
      rintro rfl
      exact hm.ne rfl
    have hml : l ≠ m := by
      rintro rfl
      omega
    rw [parent_exchange, if_neg fun h => hml h.1, if_neg fun h => hmn h.1]
  · exact ⟨fun _ => rfl, fun _ _ => rfl⟩

/-- A visit adds the cursor's node to the ones raised (42_tree_update_engine.md R156, R160). -/
theorem raised_visit (hr : Raised w f (some n) ns s) (hp : Phase total (some n) s) (h : s.enforce n = .ok t)
    (hv : Visited total n s t) : Raised w f (t.parent n) (ns ++ [n]) (t.increment n) := by
  obtain ⟨hf, hclimb, hweight⟩ := hr
  obtain ⟨hn, -⟩ := hp.cursor n rfl
  obtain ⟨hsame, hlinks⟩ := enforce_keeps hp.shape hn h
  have hbelow := hclimb.idxOf_lt hp.shape fun k hk => Option.some.inj hk ▸ hf
  obtain ⟨-, -, -, hncount, -⟩ := hv.frame
  have hbump : (t.increment n).weight = bump n t.weight :=
    weight_increment_eq (by rw [hv.here.shape.length_nodes, hncount]; exact hn) (hv.here.weight_lt.trans_le hv.here.width.2)
  refine ⟨?_, ?_, fun m hm => ?_⟩
  · rw [ncount_increment, hncount]
    exact hf
  · exact (hclimb.congr fun m hm => hlinks m (hbelow m hm).2).concat.congr fun m _ => parent_increment n m
  · rw [ncount_increment, hncount] at hm
    have hfresh : n ∉ ns := fun hmem => (hbelow n hmem).2.ne rfl
    rw [hbump, bump, hsame, hweight m hm]
    by_cases hmn : m = n
    · simp [hmn, hfresh]
    · simp [hmn]

/-- An increment phase raises its leaf and the leaf's ancestors in the tree that it leaves (42_tree_update_engine.md R162). -/
theorem weight_incrementPhase {fuel : Nat} {cur : Option Nat} (hp : Phase total cur s) (hr : Raised w f cur ns s)
    (h : State.incrementPhase fuel cur s = .ok t) (hm : m < t.ncount) :
    t.weight m = w m + if m ∈ t.upward t.ncount f then 1 else 0 := by
  have hend : Phase total none t ∧ ∃ ns, Raised w f none ns t := by
    refine incrementPhase_keeps (P := fun cur s => Phase total cur s ∧ ∃ ns, Raised w f cur ns s) ?_ ⟨hp, ns, hr⟩ h
    rintro n s t ⟨hp, ns, hr⟩ h
    obtain ⟨t', ht', hv⟩ := exists_visited hp
    cases ht'.symm.trans h
    have hcursor : (t.increment n).ascend n = t.parent n := parent_increment n n
    rw [hcursor]
    exact ⟨hv.next, _, raised_visit hr hp h hv⟩
  obtain ⟨hphase, ns, hf, hclimb, hweight⟩ := hend
  rw [hclimb.upward_eq hphase.shape hf (Nat.le_add_right ..)]
  exact hweight m hm

end Visit

/-! ## INSERT -/

section Insert

variable {s t : State} {y : Sym} {f n m : Nat}

/-- A phase that starts at a seen symbol's leaf has raised no node. -/
theorem raised_start (hf : f < s.ncount) : Raised s.weight f (some f) [] s :=
  ⟨hf, rfl, fun _ _ => rfl⟩

/-- What a node weighs before `INSERT`, an allocated one to come counting 0. -/
def weightBefore (s : State) (n : Nat) : Nat := if n < s.ncount then s.weight n else 0

/-- A split raises the two new nodes, which weigh 1, and starts the phase above them (42_tree_update_engine.md R154). -/
theorem raised_split {cur : Option Nat} (hs : Inv s) (h : s.split y = .ok (t, cur)) :
    Raised (weightBefore s) (s.ncount + 1) cur [s.ncount + 1, s.ncount] t := by
  obtain ⟨rfl, -⟩ := split_cases h
  obtain ⟨hncount, -⟩ := fields_split h
  obtain ⟨hwi, -, hpi, -⟩ := fields_split_internal hs h
  obtain ⟨hwf, -, hpf, -⟩ := fields_split_leaf hs h
  refine ⟨by omega, ⟨rfl, hpf, hpi⟩, fun m hm => ?_⟩
  rw [hncount] at hm
  rcases lt_add_two_cases hm with hm | rfl | rfl
  · obtain ⟨hw, -⟩ := fields_split_old hs h hm
    have hnew : m ≠ s.ncount + 1 ∧ m ≠ s.ncount := by omega
    simp [weightBefore, hw, hm, hnew]
  · simp [weightBefore, hwi]
  · simp [weightBefore, hwf]

/-- `INSERT` raises its symbol's leaf and the leaf's ancestors in the new tree (42_tree_update_engine.md R162). -/
theorem weight_insertSymbol (hs : Inv s) (hw : s.weight s.root < weightMax s.weightBits) (h : s.insertSymbol y = .ok t)
    (hf : t.lookup y = some f) (hn : n < t.ncount) :
    t.weight n = weightBefore s n + if n ∈ t.upward t.ncount f then 1 else 0 := by
  rw [lookup_insertSymbol_self h] at hf
  cases hf
  rcases insertSymbol_cases h with ⟨f, hf, hphase⟩ | ⟨u, cur, hy, hsplit, hphase⟩
  · obtain ⟨-, -, -, hncount, -⟩ := sameBut_incrementPhase hphase
    obtain ⟨hlt, -⟩ := leaf_of_lookup hs hf
    rw [hf, Option.getD_some, weightBefore, if_pos (hncount ▸ hn)]
    exact weight_incrementPhase (phase_of_lookup hs hf hw) (raised_start hlt) hphase hn
  · rw [hy, Option.getD_none]
    exact weight_incrementPhase (phase_of_split hs hy hsplit hw) (raised_split hs hsplit) hphase hn

end Insert

/-- Settles O46: the phase raises the nodes that it visits, which are the leaf and its ancestors when it ends. -/
theorem insertRaisesTheLeafAndItsAncestors : Obligations.InsertRaisesTheLeafAndItsAncestors := by
  unfold Obligations.InsertRaisesTheLeafAndItsAncestors
  intro a s t f hs ha hw h hf n hn
  obtain ⟨u, hu, rfl⟩ := exec_insert_cases ha hw h
  rw [upward_withRsp]
  exact weight_insertSymbol hs (weight_root_lt hs hw) hu hf hn

end Sys2Proof.Proofs
end

