-- ==== Sys2Proof/Proofs/WeightCount.lean ====
section
/-! PROOFS. The weight-count law (10_state.md R39): a session's weights count its symbols, so `WEIGHT_OVERFLOW` comes with the
symbol after the last count (60_exceptions.md R255). -/

namespace Sys2Proof.Proofs

open Sys2Proof.Machine Sys2Proof.Laws

variable {s t : State} {y z : Sym} {f g n m fuel : Nat} {ys : List Sym}

/-! ## The weights of leaves after INSERT -/

theorem self_mem_upward (s : State) (fuel n : Nat) : n ∈ s.upward fuel n := by
  unfold State.upward
  split
  · exact List.mem_cons_self
  · split <;> exact List.mem_cons_self

/-- A node on the way to the root is the first one, or is on the way from the first one's parent. -/
theorem mem_upward_cases (h : m ∈ s.upward fuel n) :
    m = n ∨ ∃ fuel' p, fuel = fuel' + 1 ∧ s.parent n = some p ∧ m ∈ s.upward fuel' p := by
  unfold State.upward at h
  rcases hp : s.parent n with _ | p
  · simp only [hp] at h
    exact .inl (List.mem_singleton.1 h)
  · cases fuel with
    | zero =>
      simp only [hp] at h
      exact .inl (List.mem_singleton.1 h)
    | succ fuel =>
      simp only [hp] at h
      exact (List.mem_cons.1 h).imp_right fun h => ⟨fuel, p, rfl, rfl, h⟩

/-- Above a node stand internal nodes only, which have odd indices (10_state.md R29). -/
theorem odd_of_mem_upward (hs : Inv s) (hn : n < s.ncount) (h : m ∈ s.upward fuel n) : m = n ∨ m % 2 = 1 := by
  induction fuel generalizing n with
  | zero =>
    rcases mem_upward_cases h with heq | ⟨_, _, hzero, -⟩
    · exact .inl heq
    · cases hzero
  | succ fuel ih =>
    rcases mem_upward_cases h with heq | ⟨fuel', p, hfuel, hp, h⟩
    · exact .inl heq
    · cases hfuel
      rcases ih (Inv.parent_lt hs hn hp) h with rfl | hodd
      · exact .inr (parent_odd hs hn hp)
      · exact .inr hodd

/-- In a sound state two symbols own different leaves (10_state.md R38). -/
theorem leaf_ne_of_ne (hs : Inv s) (hf : s.lookup y = some f) (hg : s.lookup z = some g) (hne : z ≠ y) : g ≠ f := by
  rintro rfl
  obtain ⟨-, -, hsym⟩ := leaf_of_lookup hs hf
  obtain ⟨-, -, hsym'⟩ := leaf_of_lookup hs hg
  exact hne (Option.some.inj (hsym'.symm.trans hsym))

/-- The leaf of a symbol has an even index (10_state.md R29). -/
theorem leaf_even (hs : Inv s) (hf : s.lookup y = some f) : f % 2 = 0 := by
  obtain ⟨hlt, -, hsym⟩ := leaf_of_lookup hs hf
  obtain ⟨-, hleaf, -⟩ := hs.kinds f hlt
  obtain ⟨heven, -⟩ := hleaf.1 (by rw [hsym, Option.isSome_some])
  exact heven

/-! ## The weights of symbols -/

/-- How often a symbol has occurred by its leaf's weight, an unseen one never (10_state.md R39). -/
def occurrences (s : State) (y : Sym) : Nat := ((s.lookup y).map s.weight).getD 0

theorem occurrences_of_seen (h : s.lookup y = some f) : occurrences s y = s.weight f := by
  rw [occurrences, h, Option.map_some, Option.getD_some]

theorem occurrences_of_unseen (h : s.lookup y = none) : occurrences s y = 0 := by
  rw [occurrences, h, Option.map_none, Option.getD_none]

/-- `INSERT` counts its own symbol. -/
theorem occurrences_insertSymbol_self (hs : Inv s) (hw : s.weight s.root < weightMax s.weightBits)
    (h : s.insertSymbol y = .ok t) : occurrences t y = occurrences s y + 1 := by
  have ht : Inv t := inv_insertSymbol hs hw.ne h
  have hf := lookup_insertSymbol_self h
  obtain ⟨hlt, -⟩ := leaf_of_lookup ht hf
  rw [occurrences_of_seen hf, weight_insertSymbol hs hw h hf hlt, if_pos (self_mem_upward ..)]
  rcases hy : s.lookup y with _ | f
  · rw [occurrences_of_unseen hy, Option.getD_none, weightBefore, if_neg (by omega)]
  · obtain ⟨hlt', -⟩ := leaf_of_lookup hs hy
    rw [occurrences_of_seen hy, Option.getD_some, weightBefore, if_pos hlt']

/-- `INSERT` counts no other symbol: another leaf is not above the symbol's. -/
theorem occurrences_insertSymbol_of_ne (hs : Inv s) (hw : s.weight s.root < weightMax s.weightBits)
    (h : s.insertSymbol y = .ok t) (hz : z ≠ y) : occurrences t z = occurrences s z := by
  have ht : Inv t := inv_insertSymbol hs hw.ne h
  have hkeep := lookup_insertSymbol_of_ne hz h
  rcases hg : s.lookup z with _ | g
  · rw [occurrences_of_unseen hg, occurrences_of_unseen (hkeep.trans hg)]
  · have hg' : t.lookup z = some g := hkeep.trans hg
    have hf := lookup_insertSymbol_self h
    obtain ⟨hglt, -⟩ := leaf_of_lookup hs hg
    obtain ⟨hglt', -⟩ := leaf_of_lookup ht hg'
    obtain ⟨hflt, -⟩ := leaf_of_lookup ht hf
    have hother := leaf_ne_of_ne ht hf hg' hz
    have habove : g ∉ t.upward t.ncount ((s.lookup y).getD (s.ncount + 1)) := by
      intro hmem
      have heven := leaf_even hs hg
      have hodd := odd_of_mem_upward ht hflt hmem
      omega
    rw [occurrences_of_seen hg, occurrences_of_seen hg', weight_insertSymbol hs hw h hf hglt', if_neg habove, Nat.add_zero,
      weightBefore, if_pos hglt]

/-! ## A session -/

/-- The engine after a session's symbols: ready and sound, the weights count the symbols, and exactly they are seen
(10_state.md R39). -/
structure Counts (ys : List Sym) (s : State) : Prop where
  sound : Inv s
  ready : s.rsp = none
  total : s.weight s.root = ys.length
  count : ∀ y, occurrences s y = ys.count y
  seen  : ∀ y, (s.lookup y).isSome = true ↔ y ∈ ys

/-- The reset engine has counted nothing. -/
theorem counts_resetEngine (h : 1 ≤ s.weightBits) : Counts [] (resetEngine s) :=
  ⟨inv_resetEngine h, rfl, rfl, fun _ => rfl, fun _ => by simp [State.lookup, indexLookup]⟩

/-- `INSERT` counts one more symbol. -/
theorem Counts.insertSymbol (hs : Counts ys s) (hw : ys.length < weightMax s.weightBits) (y : Sym) :
    ∃ t, s.insertSymbol y = .ok t ∧ Counts (ys ++ [y]) t := by
  rw [← hs.total] at hw
  obtain ⟨t, ht, hsound, hroot⟩ := exists_insertSymbol hs.sound hw y
  obtain ⟨-, hrsp, -⟩ := frame_insertSymbol ht
  refine ⟨t, ht, hsound, hrsp.trans hs.ready, ?_, fun z => ?_, fun z => ?_⟩
  · rw [hroot, hs.total, List.length_append, List.length_singleton]
  · rw [List.count_append, ← hs.count z]
    by_cases hz : z = y
    · rw [hz, occurrences_insertSymbol_self hs.sound hw ht, List.count_singleton_self]
    · rw [occurrences_insertSymbol_of_ne hs.sound hw ht hz, List.count_singleton]
      simp [Ne.symm hz]
  · rw [List.mem_append, ← hs.seen z, List.mem_singleton]
    by_cases hz : z = y
    · simp [hz, lookup_insertSymbol_self ht]
    · simp [hz, lookup_insertSymbol_of_ne hz ht]

/-- `INIT` and `INSERT` of fewer than `2^WEIGHT_BITS` symbols succeed and count the symbols. -/
theorem counts_issueAll (hwb : 1 ≤ s.weightBits) (hlen : ys.length ≤ weightMax s.weightBits) :
    ∃ rs t, issueAll (.init :: ys.map fun y => .insert (argSym y)) s = .ok (rs, t) ∧ t.weightBits = s.weightBits ∧
      Counts ys t := by
  induction ys using List.reverseRecOn with
  | nil => exact ⟨[{}], resetEngine s, issueAll_cons (issue_init s) rfl, rfl, counts_resetEngine hwb⟩
  | append_singleton ys y ih =>
    rw [List.length_append, List.length_singleton] at hlen
    obtain ⟨rs, u, hu, hwidth, hcounts⟩ := ih (by omega)
    obtain ⟨t, ht, hcounts'⟩ := hcounts.insertSymbol (by rw [hwidth]; omega) y
    have hroom : u.weight u.root ≠ weightMax u.weightBits := by
      rw [hcounts.total, hwidth]
      omega
    obtain ⟨r, hr⟩ := issue_insert hroom hcounts.ready ht
    obtain ⟨hwidth', -⟩ := frame_insertSymbol ht
    refine ⟨rs ++ [r], t, ?_, hwidth'.trans hwidth, hcounts'⟩
    rw [List.map_append, ← List.cons_append]
    exact issueAll_append hu (issueAll_cons hr rfl)

/-- A seen symbol's leaf weighs its count. -/
theorem Counts.leaf (hs : Counts ys s) (hy : y ∈ ys) : ∃ f, s.lookup y = some f ∧ s.weight f = ys.count y := by
  obtain ⟨f, hf⟩ := Option.isSome_iff_exists.1 ((hs.seen y).2 hy)
  exact ⟨f, hf, (occurrences_of_seen hf).symm.trans (hs.count y)⟩

theorem Counts.unseen (hs : Counts ys s) (hy : y ∉ ys) : s.lookup y = none :=
  Option.not_isSome_iff_eq_none.1 (mt (hs.seen y).1 hy)

/-- Settles O48: the session's engine counts its symbols; a width of no bits leaves only the empty session. -/
theorem weightsCountOccurrences : Obligations.WeightsCountOccurrences := by
  unfold Obligations.WeightsCountOccurrences
  intro s ys hlen
  rcases Nat.eq_zero_or_pos s.weightBits with hzero | hwb
  · rw [hzero, pow_zero, Nat.lt_one_iff, List.length_eq_zero_iff] at hlen
    subst hlen
    exact ⟨[{}], resetEngine s, issueAll_cons (issue_init s) rfl, rfl, by simp, fun _ _ => rfl⟩
  · obtain ⟨rs, t, ht, -, hcounts⟩ := counts_issueAll hwb (Nat.le_sub_one_of_lt hlen)
    exact ⟨rs, t, ht, hcounts.total, fun _ => hcounts.leaf, fun _ => hcounts.unseen⟩

/-! ## The overflow -/

/-- `INSERT` below the greatest weight responds with status 0 (42_tree_update_engine.md R150). -/
theorem exec_insert_ok {a : Arg} (hs : Inv s) (ha : a.toNat ≤ 255) (hw : s.weight s.root ≠ weightMax s.weightBits) :
    ∃ u r, exec (.insert a) s = .next u ∧ u.rsp = some r ∧ r.status = .ok := by
  obtain ⟨u, f, hu, -, hr, -⟩ := insertCompletes a s hs ha hw
  exact ⟨u, _, hu, hr, rfl⟩

/-- Settles O49: the root weighs the number of the session's symbols. -/
theorem overflowIsTheInsertAfterTheLastCount : Obligations.OverflowIsTheInsertAfterTheLastCount := by
  unfold Obligations.OverflowIsTheInsertAfterTheLastCount
  intro s ys hwb hlen
  obtain ⟨rs, t, ht, hwidth, hcounts⟩ := counts_issueAll hwb (Nat.le_sub_one_of_lt hlen)
  refine ⟨rs, t, ht, hcounts.sound, fun a ha => ⟨fun hroom => ?_, fun hfull c => ?_⟩⟩
  · exact exec_insert_ok hcounts.sound ha (by rw [hcounts.total, hwidth]; exact hroom.ne)
  · have hweight : t.weight t.root = weightMax t.weightBits := by rw [hcounts.total, hwidth]; exact hfull
    exact exec_insert_of_full (s := { t with flt := c }) ha hweight

end Sys2Proof.Proofs
end

