-- ==== Sys2Proof/Proofs/Paths.lean ====
section
/-! PROOFS. Root paths of a sound state (43_tree_readout.md R190): the recursion by branches, that no leaf's path begins
another's, and the greatest length. -/

namespace Sys2Proof.Proofs

open Sys2Proof.Machine Sys2Proof.Laws

variable {s : State} {n m p l r : Nat} {bits : List Bool}

/-! ## Branches -/

/-- In a sound state a child's path ends with the bit of the slot that holds it (43_tree_readout.md R190). -/
theorem path_of_kids (hs : Inv s) (hn : n < s.ncount) (hp : s.parent n = some p) (hk : s.kids p = some (l, r))
    (hb : s.path p = some bits) :
    (l = n → s.path n = some (bits ++ [false])) ∧ (r = n → s.path n = some (bits ++ [true])) ∧ (l = n ↔ r ≠ n) := by
  obtain ⟨d, hd⟩ := exists_childSide hs hn hp
  have hpath := path_child hs hn hp hd hb
  obtain ⟨l', r', hk', hslot⟩ := childSide_eq_some.1 hd
  cases hk.symm.trans hk'
  rcases hslot with ⟨rfl, hl, hr⟩ | ⟨rfl, hr, hl⟩
  · exact ⟨fun _ => hpath, fun h => absurd h hr, fun _ => hr, fun _ => hl⟩
  · exact ⟨fun h => absurd h hl, fun _ => hpath, fun h => absurd h hl, fun h => absurd hr h⟩

/-- Settles O29: at the root the recursion ends, and a parent's path goes on with the child's slot. -/
theorem pathFollowsTheBranches : Obligations.PathFollowsTheBranches := by
  unfold Obligations.PathFollowsTheBranches
  refine fun s n hs hn => ⟨path_root, fun p l r hp hk => ?_⟩
  obtain ⟨bits, hbits⟩ := exists_path hs (Inv.parent_lt hs hn hp)
  exact ⟨bits, hbits, path_of_kids hs hn hp hk hbits⟩

/-! ## Leaves -/

/-- From a leaf no branch can be taken. -/
theorem descend_leaf (hn : s.kids n = none) (h : s.descend n bits = some m) : n = m := by
  cases bits with
  | nil => exact Option.some.inj h
  | cons b bits => simp [State.descend, hn] at h

/-- Settles O30: a path that goes on after a leaf's path would take a branch at the leaf. -/
theorem leafPathsArePrefixFree : Obligations.LeafPathsArePrefixFree := by
  unfold Obligations.LeafPathsArePrefixFree
  rintro s n m p q hs hn hm hne hleaf - hp hq ⟨rest, rfl⟩
  have hdescend := descend_path hs hm hq
  rw [descend_append, descend_path hs hn hp] at hdescend
  exact hne (descend_leaf hleaf hdescend)

/-! ## Length -/

/-- In a sound state no root path is longer than `MAX_DEPTH` (10_state.md R31). -/
theorem length_path_le (hs : Inv s) (hn : n < s.ncount) (h : s.path n = some bits) : bits.length ≤ 256 :=
  (length_le_card_internalAbove hs hn h).trans (card_internalAbove_le hs n)

/-- Settles O31: an allocated node has a path, whose links lead through internal nodes. -/
theorem pathsHaveAtMost256Bits : Obligations.PathsHaveAtMost256Bits := by
  unfold Obligations.PathsHaveAtMost256Bits
  intro s n hs hn
  obtain ⟨bits, hbits⟩ := exists_path hs hn
  exact ⟨bits, hbits, length_path_le hs hn hbits⟩

end Sys2Proof.Proofs
end

