-- ==== Sys2Proof/Proofs/ResponsePorts.lean ====
section
/-! PROOFS. The response ports (30_encoding.md R90, R100): every response of a sound state fits them. -/

namespace Sys2Proof.Proofs

open Sys2Proof.Machine Sys2Proof.Laws

/-! ## The wires -/

section Wires

variable {r : Response} {wb : Nat}

/-- The response fits its ports on an engine with `WEIGHT_BITS` = `wb` (30_encoding.md R90, R100). -/
def FitsPorts (wb : Nat) (r : Response) : Prop := r.data < 2 ^ Config.dataBits wb ∧ r.path.length ≤ 256

theorem toNat_dataWire (h : FitsPorts wb r) : (r.dataWire wb).toNat = r.data := by
  obtain ⟨hdata, -⟩ := h
  exact (BitVec.toNat_ofNat ..).trans (Nat.mod_eq_of_lt hdata)

theorem toNat_lenWire (h : FitsPorts wb r) : r.lenWire.toNat = r.path.length := by
  obtain ⟨-, hlen⟩ := h
  exact (BitVec.toNat_ofNat ..).trans (Nat.mod_eq_of_lt (by omega))

/-- The number whose bits are listed, the least significant first, has them (20_memory.md R62). -/
theorem testBit_foldr (bits : List Bool) (k : Nat) :
    (bits.foldr (fun (b : Bool) n => b.toNat + 2 * n) 0).testBit k = bits[k]?.getD false := by
  induction bits generalizing k with
  | nil => simp
  | cons b bits ih =>
    cases k with
    | zero => cases b <;> simp [Nat.testBit_zero, Nat.add_mod]
    | succ k =>
      have hdiv : (b.toNat + 2 * bits.foldr (fun b n => b.toNat + 2 * n) 0) / 2 =
          bits.foldr (fun b n => b.toNat + 2 * n) 0 := by
        have := b.toNat_le
        omega
      rw [List.foldr_cons, Nat.testBit_succ, hdiv, ih, List.getElem?_cons_succ]

theorem getLsbD_pathWire (r : Response) {k : Nat} (hk : k < 256) : r.pathWire.getLsbD k = r.path[k]?.getD false := by
  rw [Response.pathWire, BitVec.getLsbD_ofNat, testBit_foldr]
  simp [hk]

end Wires

/-! ## Bounds of a sound state -/

section Bounds

variable {s t : State} {n p : Nat}

/-- A number of `IDX_BITS` bits fits the data port (00_scope.md R6). -/
theorem lt_dataBits_of_lt_index {v : Nat} (h : v < 2 ^ Config.idxBits) (wb : Nat) : v < 2 ^ Config.dataBits wb :=
  h.trans_le (Nat.pow_le_pow_right Nat.two_pos (Nat.le_max_right ..))

/-- A weight fits the data port (00_scope.md R6). -/
theorem lt_dataBits_of_le_weightMax {v wb : Nat} (h : v ≤ weightMax wb) : v < 2 ^ Config.dataBits wb :=
  (Nat.lt_of_le_pred (Nat.two_pow_pos wb) h).trans_le (Nat.pow_le_pow_right Nat.two_pos (Nat.le_max_left ..))

/-- The root is the heaviest node: it stands at the highest rank (10_state.md R36, R40). -/
theorem weight_le_max (hs : Inv s) (hn : n < s.ncount) : s.weight n ≤ weightMax s.weightBits := by
  have hordered := (ordered_iff_weightOrder (shape_of_inv hs)).2 hs.sorted
  obtain ⟨-, hroot⟩ := hs.width
  exact (hordered n s.root hn (Inv.root_lt hs) ((shape_of_inv hs).idxOf_le_root hn)).trans hroot

/-- An allocated index fits the data port. -/
theorem index_fits (hs : Inv s) (hn : n < s.ncount) (wb : Nat) : n < 2 ^ Config.dataBits wb := by
  obtain ⟨-, -, hncount, -⟩ := hs.indices
  exact lt_dataBits_of_lt_index (hn.trans hncount) wb

end Bounds

/-! ## The response of a command -/

section Responses

variable {s t : State} {a : Arg} {r : Response} {wb : Nat}

/-- The response of the state, if it presents one, fits the ports. -/
def PresentsFitting (wb : Nat) (t : State) : Prop := ∀ r, t.rsp = some r → FitsPorts wb r

theorem fitsPorts_status (wb : Nat) (c : Status) : FitsPorts wb { status := c } :=
  ⟨Nat.two_pow_pos _, Nat.zero_le _⟩

theorem fitsPorts_data {v : Nat} {flag : Bool} (h : v < 2 ^ Config.dataBits wb) :
    FitsPorts wb { flag := flag, data := v } := ⟨h, Nat.zero_le _⟩

theorem fitsPorts_optional {o : Option Nat} (h : ∀ v ∈ o, v < 2 ^ Config.dataBits wb) :
    FitsPorts wb (optionalResponse o) := by
  cases o with
  | none => exact fitsPorts_status wb .ok
  | some v => exact fitsPorts_data (h v rfl)

theorem presentsFitting_takeFault {c : Status} : PresentsFitting wb (takeFault c s) := by
  rintro r hr
  cases hr
  exact fitsPorts_status wb c

theorem presentsFitting_respond (hr : FitsPorts wb r) (h : respond r s = .next t) : PresentsFitting wb t := by
  cases h
  rintro q hq
  cases hq
  exact hr

theorem presentsFitting_withSym {k : Sym → Host.Outcome State Fault Refusal}
    (hk : k (a.extractLsb' 0 8) = .next t → PresentsFitting wb t) (h : withSym a s k = .next t) :
    PresentsFitting wb t := by
  rcases withSym_cases h with ⟨-, h⟩ | ⟨-, h⟩
  · exact hk h
  · cases h
    exact presentsFitting_takeFault

theorem presentsFitting_withIndex {k : Nat → Host.Outcome State Fault Refusal}
    (hk : a.toNat < s.ncount → k a.toNat = .next t → PresentsFitting wb t) (h : withIndex a s k = .next t) :
    PresentsFitting wb t := by
  rcases withIndex_cases h with ⟨hlt, h⟩ | ⟨-, h⟩
  · exact hk hlt h
  · cases h
    exact presentsFitting_takeFault

theorem presentsFitting_respondPath {n data : Nat} {flag : Bool} (hs : Inv s) (hn : n < s.ncount)
    (hdata : data < 2 ^ Config.dataBits wb) (h : respondPath s n flag data = .next t) : PresentsFitting wb t := by
  obtain ⟨bits, hbits⟩ := exists_path hs hn
  rw [respondPath, hbits] at h
  exact presentsFitting_respond ⟨hdata, length_path_le hs hn hbits⟩ h

/-- The registers are indices or status codes (10_state.md R25). -/
theorem srOperand_lt (hs : Inv s) {v : Nat} (h : srOperand a s = some v) : v < 2 ^ Config.idxBits := by
  obtain ⟨hroot, hnyt, hncount, -⟩ := hs.indices
  unfold srOperand at h
  split at h <;> cases h
  · exact hroot
  · exact hnyt
  · exact hncount
  · exact (statusCode s.flt).isLt.trans (by decide)

theorem presentsFitting_execRdsr (hs : Inv s) (h : execRdsr a s = .next t) : PresentsFitting wb t := by
  unfold execRdsr withSr at h
  split at h
  · exact presentsFitting_respond (fitsPorts_data (lt_dataBits_of_lt_index (srOperand_lt hs ‹_›) wb)) h
  · cases h
    exact presentsFitting_takeFault

theorem presentsFitting_execRdrank (hs : Inv s) (h : execRdrank a s = .next t) : PresentsFitting wb t := by
  refine presentsFitting_withIndex (fun hlt h => ?_) h
  obtain ⟨k, hk⟩ := exists_rank hs hlt
  obtain ⟨hklt, -⟩ := (rank_eq_some_iff hs).1 hk
  rw [hk] at h
  exact presentsFitting_respond (fitsPorts_data (index_fits hs hklt wb)) h

theorem presentsFitting_execInsert (hs : Inv s) (h : execInsert a s = .next t) : PresentsFitting wb t := by
  rcases execInsert_cases h with ⟨-, rfl⟩ | ⟨-, -, rfl⟩ | ⟨-, hw, u, hu, rfl⟩
  · exact presentsFitting_takeFault
  · exact presentsFitting_takeFault
  · have hf := lookup_insertSymbol_self hu
    obtain ⟨hlt, -⟩ := leaf_of_lookup (inv_insertSymbol hs hw hu) hf
    refine presentsFitting_respond (s := u) (fitsPorts_data ?_) rfl
    rw [hf, Option.getD_some]
    exact index_fits (inv_insertSymbol hs hw hu) hlt wb

/-- In a sound state the fields of an allocated node fit the data port. -/
theorem fields_fit (hs : Inv s) {n : Nat} (hn : n < s.ncount) (wb : Nat) :
    (∀ v ∈ (s.sym n).map BitVec.toNat, v < 2 ^ Config.dataBits wb) ∧ (∀ p ∈ s.parent n, p < 2 ^ Config.dataBits wb) ∧
    (∀ l ∈ (s.kids n).map Prod.fst, l < 2 ^ Config.dataBits wb) ∧
    (∀ r ∈ (s.kids n).map Prod.snd, r < 2 ^ Config.dataBits wb) := by
  refine ⟨fun v hv => ?_, fun p hp => index_fits hs (Inv.parent_lt hs hn hp) wb, fun l hl => ?_, fun r hr => ?_⟩
  · obtain ⟨y, -, rfl⟩ := Option.map_eq_some_iff.1 hv
    exact lt_dataBits_of_lt_index (y.isLt.trans (by decide)) wb
  · obtain ⟨⟨l', r'⟩, hk, rfl⟩ := Option.map_eq_some_iff.1 hl
    obtain ⟨hlt, -⟩ := children_of_kids hs hn hk
    exact index_fits hs hlt wb
  · obtain ⟨⟨l', r'⟩, hk, rfl⟩ := Option.map_eq_some_iff.1 hr
    obtain ⟨-, hlt, -⟩ := children_of_kids hs hn hk
    exact index_fits hs hlt wb

/-- The response of every command of a sound state fits the ports (30_encoding.md R100). -/
theorem presentsFitting_exec {i : Instr} (hs : Inv s) (h : exec i s = .next t) : PresentsFitting s.weightBits t := by
  cases i with
  | nop => exact presentsFitting_respond (fitsPorts_status _ .ok) h
  | init => exact presentsFitting_respond (fitsPorts_status _ .ok) h
  | rdsr a => exact presentsFitting_execRdsr hs h
  | insert a => exact presentsFitting_execInsert hs h
  | rdrank a => exact presentsFitting_execRdrank hs h
  | lookup a =>
    refine presentsFitting_withSym (presentsFitting_respond (fitsPorts_optional fun f hf => ?_)) h
    obtain ⟨hlt, -⟩ := leaf_of_lookup hs hf
    exact index_fits hs hlt _
  | paths a =>
    have htarget := pathTarget_lt hs (a.extractLsb' 0 8)
    exact presentsFitting_withSym (presentsFitting_respondPath hs htarget (index_fits hs htarget _)) h
  | pathn a =>
    exact presentsFitting_withIndex (k := fun n => respondPath s n false 0)
      (fun hlt => presentsFitting_respondPath hs hlt (Nat.two_pow_pos _)) h
  | rdw a =>
    exact presentsFitting_withIndex (fun hlt => presentsFitting_respond
      (fitsPorts_data (lt_dataBits_of_le_weightMax (weight_le_max hs hlt)))) h
  | rdord a =>
    exact presentsFitting_withIndex (fun hlt => presentsFitting_respond
      (fitsPorts_data (index_fits hs ((shape_of_inv hs).nodeAt_lt hlt) _))) h
  | rdsym a =>
    refine presentsFitting_withIndex (fun hlt => presentsFitting_respond (fitsPorts_optional ?_)) h
    obtain ⟨hsym, -⟩ := fields_fit hs hlt s.weightBits
    exact hsym
  | rdpar a =>
    refine presentsFitting_withIndex (fun hlt => presentsFitting_respond (fitsPorts_optional ?_)) h
    obtain ⟨-, hpar, -⟩ := fields_fit hs hlt s.weightBits
    exact hpar
  | rdleft a =>
    refine presentsFitting_withIndex (fun hlt => presentsFitting_respond (fitsPorts_optional ?_)) h
    obtain ⟨-, -, hleft, -⟩ := fields_fit hs hlt s.weightBits
    exact hleft
  | rdright a =>
    refine presentsFitting_withIndex (fun hlt => presentsFitting_respond (fitsPorts_optional ?_)) h
    obtain ⟨-, -, -, hright⟩ := fields_fit hs hlt s.weightBits
    exact hright

theorem presentsFitting_acceptWord {w : CmdWord} (hs : Inv s) (h : acceptWord w s = .next t) :
    PresentsFitting s.weightBits t := by
  rcases acceptWord_cases h with ⟨i, -, h⟩ | ⟨e, -, h⟩
  · exact presentsFitting_exec hs h
  · cases h
    exact presentsFitting_takeFault

end Responses

/-- Settles O32: a fitting response is on the wires whole, and a fault's response has its status alone. -/
theorem responseFitsItsPorts : Obligations.ResponseFitsItsPorts := by
  unfold Obligations.ResponseFitsItsPorts
  intro w s t r hs h hr
  have hfits := presentsFitting_acceptWord hs h r hr
  refine ⟨toNat_dataWire hfits, toNat_lenWire hfits, fun k hk => getLsbD_pathWire r hk, fun hfault => ?_⟩
  obtain ⟨hzero, -⟩ := faultChangesOnlyFlt w s t r h hr hfault
  rw [hzero]
  exact ⟨rfl, rfl, rfl⟩

end Sys2Proof.Proofs
end

