-- ==== Sys2Proof/Proofs/FltGatesNothing.lean ====
section
/-! PROOFS. `FLT` gates nothing (60_exceptions.md R258): no part of a command but `RDSR 3` reads it. -/

namespace Sys2Proof.Proofs

open Sys2Proof.Machine Sys2Proof.Laws

/-! ## The update engine beside another `FLT` -/

/-- The state with another value in `FLT`. -/
def withFlt (f : Status) (s : State) : State := { s with flt := f }

section Update

theorem swap_withFlt (f : Status) (s : State) (a b : Nat) :
    (withFlt f s).swap a b = (s.swap a b).map (withFlt f) := by
  have hka : (withFlt f s).rank a = s.rank a := rfl
  have hkb : (withFlt f s).rank b = s.rank b := rfl
  have hpa : (withFlt f s).parent a = s.parent a := rfl
  have hpb : (withFlt f s).parent b = s.parent b := rfl
  have hside (p n : Nat) : (withFlt f s).childSide p n = s.childSide p n := rfl
  simp only [State.swap, hka, hkb, hpa, hpb, hside]
  split
  · split
    · split <;> rfl
    · rfl
  · rfl

theorem enforce_withFlt (f : Status) (s : State) (n : Nat) :
    (withFlt f s).enforce n = (s.enforce n).map (withFlt f) := by
  have hleader : (withFlt f s).leader ((withFlt f s).weight n) = s.leader (s.weight n) := rfl
  have hallowed (l : Nat) : (withFlt f s).swapAllowed n l = s.swapAllowed n l := rfl
  simp only [State.enforce, hleader, hallowed, swap_withFlt]
  split
  · rfl
  · split <;> rfl

theorem incrementPhase_withFlt (f : Status) (fuel : Nat) (cur : Option Nat) (s : State) :
    State.incrementPhase fuel cur (withFlt f s) = (State.incrementPhase fuel cur s).map (withFlt f) := by
  induction fuel generalizing cur s with
  | zero => cases cur <;> rfl
  | succ fuel ih =>
    rcases cur with _ | n
    · rfl
    · rw [State.incrementPhase, State.incrementPhase, enforce_withFlt]
      cases s.enforce n with
      | error e => rfl
      | ok t => exact ih ((t.increment n).ascend n) (t.increment n)

theorem giveNytPlace_withFlt (f : Status) (s : State) (p : Option Nat) (i : Nat) :
    (withFlt f s).giveNytPlace p i = (s.giveNytPlace p i).map (withFlt f) := by
  rcases p with _ | p
  · rfl
  · have hside : (withFlt f s).childSide p (withFlt f s).nyt = s.childSide p s.nyt := rfl
    simp only [State.giveNytPlace, hside]
    split <;> rfl

theorem split_withFlt (f : Status) (s : State) (y : Sym) :
    (withFlt f s).split y = (s.split y).map (Prod.map (withFlt f) id) := by
  have hplace : (withNewPair (withFlt f s) y).giveNytPlace ((withFlt f s).parent (withFlt f s).nyt) (withFlt f s).ncount =
      ((withNewPair s y).giveNytPlace (s.parent s.nyt) s.ncount).map (withFlt f) :=
    giveNytPlace_withFlt f (withNewPair s y) (s.parent s.nyt) s.ncount
  unfold withNewPair at hplace
  simp only [State.split, hplace]
  cases ((s.allocPair s.ncount (s.ncount + 1) y).setParent s.nyt s.ncount).giveNytPlace (s.parent s.nyt) s.ncount <;> rfl

theorem insertSymbol_withFlt (f : Status) (s : State) (y : Sym) :
    (withFlt f s).insertSymbol y = (s.insertSymbol y).map (withFlt f) := by
  have hlookup : (withFlt f s).lookup y = s.lookup y := rfl
  simp only [State.insertSymbol, hlookup, split_withFlt]
  cases s.lookup y with
  | some g => exact incrementPhase_withFlt f s.ncount (some g) s
  | none =>
    cases s.split y with
    | error e => rfl
    | ok p => exact incrementPhase_withFlt f p.1.ncount p.2 p.1

theorem pathWithin_withFlt (f : Status) (s : State) (fuel n : Nat) :
    (withFlt f s).pathWithin fuel n = s.pathWithin fuel n := by
  have hparent (n : Nat) : (withFlt f s).parent n = s.parent n := rfl
  have hside (p n : Nat) : (withFlt f s).childSide p n = s.childSide p n := rfl
  induction fuel generalizing n with
  | zero =>
    unfold State.pathWithin
    rw [hparent]
  | succ fuel ih =>
    unfold State.pathWithin
    simp only [hparent, hside, ih]

end Update

/-! ## The commands beside another `FLT` -/

section Commands

variable {s : State} {f : Status} {a : Arg}

/-- The second outcome goes on like the first but for `FLT`, and stops like it (60_exceptions.md R258). -/
def AgreesButFlt (o o' : Host.Outcome State Fault Refusal) : Prop :=
  (∀ t, o = .next t → ∃ g, o' = .next (withFlt g t)) ∧ ∀ e, o = .fault e → o' = .fault e

theorem agreesButFlt_next (g : Status) (t : State) : AgreesButFlt (.next t) (.next (withFlt g t)) :=
  ⟨fun _ h => ⟨g, by cases h; rfl⟩, fun _ h => nomatch h⟩

theorem agreesButFlt_fault (e : Fault) : AgreesButFlt (.fault e) (.fault e) :=
  ⟨fun _ h => (nomatch h), fun _ h => h⟩

theorem agreesButFlt_respond (r : Response) (s : State) (f : Status) :
    AgreesButFlt (respond r s) (respond r (withFlt f s)) := agreesButFlt_next f { s with rsp := some r }

/-- A fault is entered in the same way; what it leaves in `FLT` is the latch's (60_exceptions.md R257). -/
theorem agreesButFlt_takeFault (c : Status) (s : State) (f : Status) :
    AgreesButFlt (.next (takeFault c s)) (.next (takeFault c (withFlt f s))) :=
  agreesButFlt_next (if f = .ok then c else f) (takeFault c s)

theorem agreesButFlt_withSym {k k' : Sym → Host.Outcome State Fault Refusal} (hk : ∀ y, AgreesButFlt (k y) (k' y)) :
    AgreesButFlt (withSym a s k) (withSym a (withFlt f s) k') := by
  rcases Nat.lt_or_ge 255 a.toNat with hgt | hle
  · rw [withSym_of_gt hgt, withSym_of_gt hgt]
    exact agreesButFlt_takeFault ..
  · rw [withSym_of_le hle, withSym_of_le hle]
    exact hk _

theorem agreesButFlt_withIndex {k k' : Nat → Host.Outcome State Fault Refusal} (hk : ∀ n, AgreesButFlt (k n) (k' n)) :
    AgreesButFlt (withIndex a s k) (withIndex a (withFlt f s) k') := by
  rcases Nat.lt_or_ge a.toNat s.ncount with hlt | hge
  · rw [withIndex_of_lt hlt, withIndex_of_lt (s := withFlt f s) hlt]
    exact hk _
  · rw [withIndex_of_ge hge, withIndex_of_ge (s := withFlt f s) hge]
    exact agreesButFlt_takeFault ..

theorem agreesButFlt_respondPath (s : State) (f : Status) (n data : Nat) (flag : Bool) :
    AgreesButFlt (respondPath s n flag data) (respondPath (withFlt f s) n flag data) := by
  have hpath : (withFlt f s).path n = s.path n := pathWithin_withFlt f s s.ncount n
  unfold respondPath
  rw [hpath]
  split
  · exact agreesButFlt_respond ..
  · exact agreesButFlt_fault _

/-- The registers but `FLT` have their own numbers (10_state.md R25). -/
theorem srOperand_withFlt (ha : a ≠ 3) (s : State) (f : Status) : srOperand a (withFlt f s) = srOperand a s := by
  have hflt : a.toNat ≠ 3 := fun h => ha (BitVec.eq_of_toNat_eq h)
  unfold srOperand
  split
  case h_4 h => exact absurd h hflt
  all_goals rfl

theorem agreesButFlt_execRdsr (ha : a ≠ 3) (s : State) (f : Status) :
    AgreesButFlt (execRdsr a s) (execRdsr a (withFlt f s)) := by
  unfold execRdsr withSr
  rw [srOperand_withFlt ha]
  split
  · exact agreesButFlt_respond ..
  · exact agreesButFlt_takeFault ..

theorem agreesButFlt_execRdrank (a : Arg) (s : State) (f : Status) :
    AgreesButFlt (execRdrank a s) (execRdrank a (withFlt f s)) := by
  refine agreesButFlt_withIndex fun n => ?_
  have hrank : (withFlt f s).rank n = s.rank n := rfl
  rw [hrank]
  split
  · exact agreesButFlt_respond ..
  · exact agreesButFlt_fault _

theorem agreesButFlt_execInsert (a : Arg) (s : State) (f : Status) :
    AgreesButFlt (execInsert a s) (execInsert a (withFlt f s)) := by
  refine agreesButFlt_withSym fun y => ?_
  by_cases hw : s.weight s.root = weightMax s.weightBits
  · have hw' : (withFlt f s).weight (withFlt f s).root = weightMax (withFlt f s).weightBits := hw
    rw [if_pos hw, if_pos hw']
    exact agreesButFlt_takeFault ..
  · have hw' : (withFlt f s).weight (withFlt f s).root ≠ weightMax (withFlt f s).weightBits := hw
    rw [if_neg hw, if_neg hw', insertSymbol_withFlt]
    cases s.insertSymbol y with
    | error e => exact agreesButFlt_fault e
    | ok t => exact agreesButFlt_respond ..

/-- Every command but `RDSR 3` does the same whatever `FLT` holds (60_exceptions.md R258). -/
theorem agreesButFlt_exec {i : Instr} (hi : i ≠ .rdsr 3) (s : State) (f : Status) :
    AgreesButFlt (exec i s) (exec i (withFlt f s)) := by
  cases i with
  | nop => exact agreesButFlt_respond ..
  | init => exact agreesButFlt_next .ok { resetEngine s with rsp := some {} }
  | rdsr a => exact agreesButFlt_execRdsr (fun h => hi (congrArg Instr.rdsr h)) s f
  | insert a => exact agreesButFlt_execInsert a s f
  | rdrank a => exact agreesButFlt_execRdrank a s f
  | lookup a => exact agreesButFlt_withSym fun _ => agreesButFlt_respond _ s f
  | paths a => exact agreesButFlt_withSym fun _ => agreesButFlt_respondPath s f ..
  | pathn a => exact agreesButFlt_withIndex fun _ => agreesButFlt_respondPath s f ..
  | rdw | rdsym | rdpar | rdleft | rdright | rdord =>
    exact agreesButFlt_withIndex fun _ => agreesButFlt_respond _ s f

end Commands

/-- Settles O36: it is the agreement of the two runs of the command. -/
theorem fltGatesNothing : Obligations.FltGatesNothing :=
  fun _ s f hi => agreesButFlt_exec hi s f

end Sys2Proof.Proofs
end

