-- ==== Sys2Proof/Proofs/NodeAndEncode.lean ====
section
/-! PROOFS. `RDW`, and the pseudo-commands `RDNODE` and `ENCODE` (43_tree_readout.md R193, R200, 44_encoder_decoder_drivers.md
R222): the reads of a node, and what is emitted for a symbol. -/

namespace Sys2Proof.Proofs

open Sys2Proof.Machine Sys2Proof.Laws

/-! ## RDW and RDNODE -/

section Rdnode

variable {s : State} {a : Arg}

/-- `RDW` of an allocated node (43_tree_readout.md R193). -/
theorem exec_rdw_of_lt (ha : a.toNat < s.ncount) :
    exec (.rdw a) s = .next { s with rsp := some (dataResponse (s.weight a.toNat)) } :=
  withIndex_of_lt ha

/-- Settles O22: the answer by the equation of `RDW`; node 0 is the NYT leaf, of weight 0. -/
theorem rdwReadsTheWeight : Obligations.RdwReadsTheWeight := by
  unfold Obligations.RdwReadsTheWeight
  refine ⟨fun a => decode_append 0x7 a, fun a s ha => exec_rdw_of_lt ha, fun a s ha => withIndex_of_ge ha, fun s hs => ?_⟩
  have hzero : (0 : Arg).toNat < s.ncount := toNat_zero_eq_nyt hs ▸ nyt_lt hs
  obtain ⟨-, -, hweight⟩ := hs.nyt
  rw [exec_rdw_of_lt hzero, toNat_zero_eq_nyt hs, hweight]
  rfl

/-- A command that only responds gives its response, with the engine otherwise as it was. -/
theorem ask_of_respond {i : Instr} {r : Response} (h : exec i s = .next { s with rsp := some r }) :
    ask i s = .ok (r, takeResponse s) := ask_ok (t := { s with rsp := some r }) h rfl

/-- The six reads of `RDNODE` (43_tree_readout.md R200). -/
def nodeReads (a : Arg) : List Instr := [.rdw a, .rdsym a, .rdpar a, .rdleft a, .rdright a, .rdrank a]

/-- Each of the six reads checks its index. -/
theorem exec_nodeReads_of_ge {i : Instr} (hi : i ∈ nodeReads a) (ha : s.ncount ≤ a.toNat) :
    exec i s = .next (takeFault .badIndex s) := by
  simp only [nodeReads, List.mem_cons, List.not_mem_nil, or_false] at hi
  rcases hi with rfl | rfl | rfl | rfl | rfl | rfl <;> exact withIndex_of_ge ha

/-- A second fault of the same code changes nothing more (60_exceptions.md R257). -/
theorem takeFault_takeFault (c : Status) (s : State) :
    takeFault c (takeResponse (takeFault c s)) = takeFault c s := by
  simp only [takeFault, takeResponse]
  split <;> simp [*]

/-- Commands that all fault with one code give that fault for each, and `FLT` latches it once. -/
theorem askAll_of_fault {c : Status} {is : List Instr} (hne : is ≠ [])
    (h : ∀ i ∈ is, ∀ t : State, t.ncount = s.ncount → exec i t = .next (takeFault c t)) :
    askAll is s = .ok (List.replicate is.length { status := c }, takeResponse (takeFault c s)) := by
  induction is generalizing s with
  | nil => exact absurd rfl hne
  | cons i is ih =>
    have hi : ask i s = .ok ({ status := c }, takeResponse (takeFault c s)) :=
      ask_ok (h i List.mem_cons_self s rfl) rfl
    rcases is with _ | ⟨j, js⟩
    · exact askAll_cons hi rfl
    · have hrest := ih (s := takeResponse (takeFault c s)) (List.cons_ne_nil j js)
        fun k hk => h k (List.mem_cons_of_mem i hk)
      rw [takeFault_takeFault] at hrest
      exact askAll_cons hi hrest

/-- Settles O52: out of range every read faults with the same code; in range each read answers its field and leaves the
engine ready for the next. -/
theorem rdnodeReadsTheNode : Obligations.RdnodeReadsTheNode := by
  unfold Obligations.RdnodeReadsTheNode
  refine ⟨fun a s ha => ?_, fun a s hs ha => ?_⟩
  · exact askAll_of_fault (is := nodeReads a) (by simp [nodeReads])
      fun i hi t ht => exec_nodeReads_of_ge hi (ht ▸ ha)
  · obtain ⟨k, hk⟩ := exists_rank hs ha
    refine ⟨k, hk, ?_⟩
    have ha' : a.toNat < (takeResponse s).ncount := ha
    exact askAll_cons (ask_of_respond (exec_rdw_of_lt ha)) <|
      askAll_cons (ask_of_respond (s := takeResponse s) (exec_rdsym_of_lt ha')) <|
      askAll_cons (ask_of_respond (s := takeResponse s) (exec_rdpar_of_lt ha')) <|
      askAll_cons (ask_of_respond (s := takeResponse s) (exec_rdleft_of_lt ha')) <|
      askAll_cons (ask_of_respond (s := takeResponse s) (exec_rdright_of_lt ha')) <|
      askAll_cons (ask_of_respond (s := takeResponse s) (exec_rdrank_of_rank ha' hk)) rfl

end Rdnode

/-! ## ENCODE -/

/-- A driver's command that only responds leaves the engine otherwise as it was, with the response taken. -/
theorem issue_of_answer {s : State} {i : Instr} {r : Response} (h : exec i s = .next { s with rsp := some r })
    (hok : r.status = .ok) : issue i s = .ok (r, takeResponse s) :=
  issue_ok (t := { s with rsp := some r }) h rfl hok

/-- Settles O53: `PATHS` answers the path and takes no part of the tree, and the `INSERT` completes below the limit. -/
theorem encodeEmitsThePathThenTheLiteral : Obligations.EncodeEmitsThePathThenTheLiteral := by
  unfold Obligations.EncodeEmitsThePathThenTheLiteral
  intro s y hs hw
  obtain ⟨bits, hbits⟩ := exists_path hs (pathTarget_lt hs y)
  obtain ⟨u, hu, -⟩ := exists_insertSymbol (inv_takeResponse hs) (weight_root_lt (s := s) hs hw) y
  have hpaths : issue (.paths (argSym y)) s =
      .ok ({ flag := (s.lookup y).isSome, data := pathTarget s y, path := bits }, takeResponse s) := by
    refine issue_of_answer ?_ rfl
    rw [exec_paths_of_path (argSym_le y) (by rw [extract_argSym, hbits]), extract_argSym]
  have hinsert := exec_insert_of_insertSymbol (s := takeResponse s) hw hu
  refine ⟨bits, _, hbits, hinsert, ?_⟩
  simp only [encodeSymbol, hpaths, issue_ok hinsert rfl rfl]

end Sys2Proof.Proofs
end

