-- ==== Sys2Proof/Proofs/DecodeEnds.lean ====
section
/-! PROOFS. How `DECODE` can go in a sound state (44_encoder_decoder_drivers.md R226 to R234): the end of the stream, an input
error, or one `INSERT` after at least one character; so a session ends in one of three ways. -/

namespace Sys2Proof.Proofs

open Sys2Proof.Machine Sys2Proof.Laws

variable {s t : State} {y : Sym} {n l r root : Nat} {c : Char} {cs rest : List Char}

/-- The two errors that the decoder's input can cause (44_encoder_decoder_drivers.md R229, R230). -/
def InputError (e : DriverError) : Prop := e = .incompleteInput ∨ e = .malformedInput

theorem inputError_incomplete : InputError .incompleteInput := .inl rfl

theorem inputError_malformed : InputError .malformedInput := .inr rfl

/-! ## The walk, one level at a time (44_encoder_decoder_drivers.md R226) -/

theorem walkDown_leaf (hs : Inv s) (hr : s.rsp = none) (hn : n < s.ncount) (hk : s.kids n = none) (root : Nat)
    (cs : List Char) : walkDown root cs n s = .leaf n cs s := by
  unfold walkDown
  simp [issue_rdleft hs hr hn, hk]

theorem walkDown_nil (hs : Inv s) (hr : s.rsp = none) (hn : n < s.ncount) (hk : s.kids n = some (l, r)) (root : Nat) :
    walkDown root [] n s = if n = root then .endOfStream s else .failed .incompleteInput s := by
  unfold walkDown
  simp [issue_rdleft hs hr hn, hk]

theorem walkDown_of_charBit_none (hs : Inv s) (hr : s.rsp = none) (hn : n < s.ncount) (hk : s.kids n = some (l, r))
    (hc : charBit c = none) (root : Nat) (cs : List Char) :
    walkDown root (c :: cs) n s = .failed .malformedInput s := by
  unfold walkDown
  simp [issue_rdleft hs hr hn, hk, hc]

theorem walkDown_of_charBit_some (hs : Inv s) (hr : s.rsp = none) (hn : n < s.ncount) (hk : s.kids n = some (l, r))
    {b : Bool} (hc : charBit c = some b) (root : Nat) (cs : List Char) :
    walkDown root (c :: cs) n s = walkDown root cs (if b then r else l) s := by
  rw [walkDown]
  cases b
  · simp [issue_rdleft hs hr hn, hk, hc]
  · simp [issue_rdleft hs hr hn, issue_rdright hs hr hn, hk, hc]

/-- Where a walk can end, with the engine as it was: at the end of the stream, with an input error, or at a leaf with the
characters not consumed, which are fewer unless the walk began at that leaf. -/
theorem walkDown_cases (hs : Inv s) (hr : s.rsp = none) (hn : n < s.ncount) (root : Nat) (cs : List Char) :
    walkDown root cs n s = .endOfStream s ∨ (∃ e, InputError e ∧ walkDown root cs n s = .failed e s) ∨
    ∃ m rest, walkDown root cs n s = .leaf m rest s ∧ m < s.ncount ∧ s.kids m = none ∧
      (rest.length < cs.length ∨ (rest = cs ∧ m = n)) := by
  induction cs generalizing n with
  | nil =>
    rcases hk : s.kids n with _ | ⟨l, r⟩
    · exact .inr (.inr ⟨n, [], walkDown_leaf hs hr hn hk .., hn, hk, .inr ⟨rfl, rfl⟩⟩)
    · rw [walkDown_nil hs hr hn hk]
      split
      · exact .inl rfl
      · exact .inr (.inl ⟨_, inputError_incomplete, rfl⟩)
  | cons c cs ih =>
    rcases hk : s.kids n with _ | ⟨l, r⟩
    · exact .inr (.inr ⟨n, c :: cs, walkDown_leaf hs hr hn hk .., hn, hk, .inr ⟨rfl, rfl⟩⟩)
    rcases hc : charBit c with _ | b
    · exact .inr (.inl ⟨_, inputError_malformed, walkDown_of_charBit_none hs hr hn hk hc ..⟩)
    · obtain ⟨hl, hr', -⟩ := children_of_kids hs hn hk
      have hchild : (if b then r else l) < s.ncount := by split <;> assumption
      rw [walkDown_of_charBit_some hs hr hn hk hc]
      rcases ih hchild with hend | herr | ⟨m, rest, hleaf, hm, hkm, hrest⟩
      · exact .inl hend
      · exact .inr (.inl herr)
      · refine .inr (.inr ⟨m, rest, hleaf, hm, hkm, .inl ?_⟩)
        rcases hrest with hlt | ⟨rfl, -⟩
        · exact hlt.trans (Nat.lt_succ_self _)
        · exact Nat.lt_succ_self _

/-! ## The leaf -/

/-- A literal is read whole, or the input is in error (44_encoder_decoder_drivers.md R229, R230). -/
theorem readLiteral_cases (cs : List Char) :
    (∃ e, InputError e ∧ readLiteral cs = .error e) ∨
    ∃ y rest, readLiteral cs = .ok (y, rest) ∧ rest.length < cs.length := by
  unfold readLiteral
  split
  · exact .inl ⟨_, inputError_incomplete, rfl⟩
  · split
    · refine .inr ⟨_, _, rfl, ?_⟩
      rw [List.length_drop]
      omega
    · exact .inl ⟨_, inputError_malformed, rfl⟩

/-- At the NYT leaf a literal in error is the error of `DECODE`. -/
theorem decodeLeaf_nyt (hr : s.rsp = none) {e : DriverError} (h : readLiteral cs = .error e) :
    decodeLeaf s.nyt cs s = .failed e s := by
  simp only [decodeLeaf, issue_rdsr_nyt hr, h, if_true]

/-- At another leaf its symbol is read. -/
theorem decodeLeaf_of_ne (hs : Inv s) (hr : s.rsp = none) (hn : n < s.ncount) (h : n ≠ s.nyt) (cs : List Char) :
    decodeLeaf n cs s =
      decodeInsert (BitVec.ofNat 8 (optionalResponse ((s.sym n).map BitVec.toNat)).data) cs s := by
  simp only [decodeLeaf, issue_rdsr_nyt hr, h, if_false, issue_rdsym hs hr hn]

/-- A leaf gives a symbol to insert, or the input is in error; the literal at the NYT leaf consumes characters. -/
theorem decodeLeaf_cases (hs : Inv s) (hr : s.rsp = none) (hn : n < s.ncount) (cs : List Char) :
    (∃ e, InputError e ∧ decodeLeaf n cs s = .failed e s) ∨
    ∃ y rest, decodeLeaf n cs s = decodeInsert y rest s ∧ (rest.length < cs.length ∨ (rest = cs ∧ n ≠ s.nyt)) := by
  by_cases hnyt : n = s.nyt
  · subst hnyt
    rcases readLiteral_cases cs with ⟨e, he, h⟩ | ⟨y, rest, h, hlt⟩
    · exact .inl ⟨e, he, decodeLeaf_nyt hr h⟩
    · exact .inr ⟨y, rest, by simp only [decodeLeaf, issue_rdsr_nyt hr, h, if_true], .inl hlt⟩
  · exact .inr ⟨_, cs, decodeLeaf_of_ne hs hr hn hnyt cs, .inr ⟨rfl, hnyt⟩⟩

/-! ## `DECODE` -/

/-- A root without children is the NYT leaf (10_state.md R25). -/
theorem root_eq_nyt_of_leaf (hs : Inv s) (hk : s.kids s.root = none) : s.root = s.nyt := by
  by_contra hne
  have hmore : 1 < s.ncount := by
    have hroot := Inv.root_lt hs
    have hnyt := nyt_lt hs
    omega
  obtain ⟨l, r, hk'⟩ := exists_kids_root hs hmore
  cases hk.symm.trans hk'

/-- How `DECODE` goes before its `INSERT`, with the engine as it was: the end of the stream, an input error, or a symbol to
insert once a character has been consumed (44_encoder_decoder_drivers.md R226 to R230). -/
theorem decodeSymbol_cases (hs : Inv s) (hr : s.rsp = none) (cs : List Char) :
    decodeSymbol cs s = .endOfStream s ∨ (∃ e, InputError e ∧ decodeSymbol cs s = .failed e s) ∨
    ∃ y rest, rest.length < cs.length ∧ decodeSymbol cs s = decodeInsert y rest s := by
  unfold decodeSymbol
  simp only [issue_rdsr_root hr]
  rcases walkDown_cases hs hr (Inv.root_lt hs) s.root cs with h | ⟨e, he, h⟩ | ⟨m, rest, h, hm, hk, hrest⟩
  · rw [h]
    exact .inl rfl
  · rw [h]
    exact .inr (.inl ⟨e, he, rfl⟩)
  · rw [h]
    rcases decodeLeaf_cases hs hr hm rest with ⟨e, he, h'⟩ | ⟨y, rest', h', hrest'⟩
    · exact .inr (.inl ⟨e, he, h'⟩)
    · refine .inr (.inr ⟨y, rest', ?_, h'⟩)
      rcases hrest with hlt | ⟨rfl, rfl⟩
      · rcases hrest' with hlt' | ⟨rfl, -⟩
        · exact hlt'.trans hlt
        · exact hlt
      · rcases hrest' with hlt' | ⟨-, hne⟩
        · exact hlt'
        · exact absurd (root_eq_nyt_of_leaf hs hk) hne

/-- A command that faults ends a driver's session with its status (44_encoder_decoder_drivers.md R231). -/
theorem issue_of_fault {i : Instr} {c : Status} (hc : c ≠ .ok) (h : exec i s = .next (takeFault c s)) :
    issue i s = .error ⟨.engineFault c, takeResponse (takeFault c s)⟩ := by
  simp [issue, ask_ok h rfl, hc]

/-- How the `INSERT` of `DECODE` goes: it overflows, or it completes (42_tree_update_engine.md R150, R151). -/
theorem decodeInsert_cases (hs : Inv s) (hr : s.rsp = none) (y : Sym) (rest : List Char) :
    (s.weight s.root = weightMax s.weightBits ∧
      decodeInsert y rest s =
        .insertFailed y (.engineFault .weightOverflow) (takeResponse (takeFault .weightOverflow s))) ∨
    ∃ t, decodeInsert y rest s = .symbol y rest t ∧ Inv t ∧ t.rsp = none ∧ t.weightBits = s.weightBits ∧
      t.weight t.root = s.weight s.root + 1 := by
  by_cases hw : s.weight s.root = weightMax s.weightBits
  · refine .inl ⟨hw, ?_⟩
    rw [decodeInsert, issue_of_fault (by decide) (exec_insert_of_full (argSym_le y) hw)]
  · obtain ⟨t, ht, hsound, hroot⟩ := exists_insertSymbol hs (weight_root_lt hs hw) y
    obtain ⟨hwidth, hrsp, -⟩ := frame_insertSymbol ht
    exact .inr ⟨t, decodeInsert_of_insertSymbol hr hw ht rest, hsound, hrsp.trans hr, hwidth, hroot⟩

/-- `DECODE` begins with `RDSR 0`, whose response replaces one that waits. -/
theorem decodeSymbol_takeResponse (cs : List Char) (s : State) : decodeSymbol cs (takeResponse s) = decodeSymbol cs s := by
  have hroot : issue (.rdsr 0) s = .ok ({ data := s.root }, takeResponse s) :=
    issue_of_answer (exec_rdsr_of_srOperand rfl) rfl
  rw [decodeSymbol, decodeSymbol, hroot, issue_rdsr_root (rsp_takeResponse s)]
  rfl

/-! ## A symbol boundary -/

/-- At an internal root a character that is no bit is malformed input (44_encoder_decoder_drivers.md R230). -/
theorem decodeSymbol_of_charBit_none (hs : Inv s) (hr : s.rsp = none) (h : 1 < s.ncount) (hc : charBit c = none)
    (cs : List Char) : decodeSymbol (c :: cs) s = .failed .malformedInput s := by
  obtain ⟨l, r, hk⟩ := exists_kids_root hs h
  simp only [decodeSymbol, issue_rdsr_root hr, walkDown_of_charBit_none hs hr (Inv.root_lt hs) hk hc]

/-- At the single NYT root fewer than eight characters are no literal (44_encoder_decoder_drivers.md R229). -/
theorem decodeSymbol_of_short_literal (hs : Inv s) (hr : s.rsp = none) (h : s.ncount = 1) (hcs : cs.length < 8) :
    decodeSymbol cs s = .failed .incompleteInput s := by
  have hroot : s.root = s.nyt := by
    have hroot := Inv.root_lt hs
    have hnyt := nyt_lt hs
    omega
  have hleaf : s.kids s.nyt = none := (shape_of_inv hs).kids_nyt
  simp only [decodeSymbol, issue_rdsr_root hr, hroot, walkDown_leaf hs hr (nyt_lt hs) hleaf]
  exact decodeLeaf_nyt hr (if_pos hcs)

/-- Settles O56: with the response taken, each stream ends the walk at the root. -/
theorem decodeAtASymbolBoundary : Obligations.DecodeAtASymbolBoundary := by
  unfold Obligations.DecodeAtASymbolBoundary
  refine ⟨fun s hs h => ?_, fun s c cs hs h h0 h1 => ?_, fun s cs hs h hcs => ?_⟩
  · rw [← decodeSymbol_takeResponse]
    exact decodeSymbol_nil (inv_takeResponse hs) rfl h
  · have hc : charBit c = none := by rw [charBit, if_neg h0, if_neg h1]
    rw [← decodeSymbol_takeResponse]
    exact decodeSymbol_of_charBit_none (inv_takeResponse hs) rfl h hc cs
  · rw [← decodeSymbol_takeResponse]
    exact decodeSymbol_of_short_literal (inv_takeResponse hs) rfl h hcs

/-! ## Errors -/

/-- A failing `INSERT` ends the session with its symbol in the output (44_encoder_decoder_drivers.md R226, R231). -/
theorem decodeAll_of_insertFailed {e : DriverError} (h : decodeSymbol cs s = .insertFailed y e t) (fuel : Nat) :
    decodeAll (fuel + 1) cs s = ⟨[y], .failed e, t⟩ := by
  rw [decodeAll, h]

/-- Settles O57: of the ways that `DECODE` can go, one fails before its `INSERT` and one in it. -/
theorem decoderErrorsLeaveTheEngineAlone : Obligations.DecoderErrorsLeaveTheEngineAlone := by
  unfold Obligations.DecoderErrorsLeaveTheEngineAlone
  refine ⟨fun s t cs e hs h => ?_, fun s t cs y e hs h => ?_⟩
  · rw [← decodeSymbol_takeResponse] at h
    rcases decodeSymbol_cases (inv_takeResponse hs) rfl cs with h' | ⟨e', he, h'⟩ | ⟨y, rest, -, h'⟩
    · cases h'.symm.trans h
    · cases h'.symm.trans h
      exact ⟨he, rfl⟩
    · rcases decodeInsert_cases (inv_takeResponse hs) rfl y rest with ⟨-, hi⟩ | ⟨u, hi, -⟩
      · cases hi.symm.trans (h'.symm.trans h)
      · cases hi.symm.trans (h'.symm.trans h)
  · have hall := decodeAll_of_insertFailed h
    rw [← decodeSymbol_takeResponse] at h
    rcases decodeSymbol_cases (inv_takeResponse hs) rfl cs with h' | ⟨e', -, h'⟩ | ⟨z, rest, -, h'⟩
    · cases h'.symm.trans h
    · cases h'.symm.trans h
    · rcases decodeInsert_cases (inv_takeResponse hs) rfl z rest with ⟨hw, hi⟩ | ⟨u, hi, -⟩
      · cases hi.symm.trans (h'.symm.trans h)
        exact ⟨rfl, hw, rfl, hall⟩
      · cases hi.symm.trans (h'.symm.trans h)

/-! ## A session -/

/-- The ways that a decode session can end (44_encoder_decoder_drivers.md R234). -/
def InputEnding (e : Ending) : Prop :=
  e = .endOfStream ∨ e = .failed .incompleteInput ∨ e = .failed .malformedInput

theorem inputEnding_failed {e : DriverError} (h : InputError e) : InputEnding (.failed e) := by
  rcases h with rfl | rfl
  · exact .inr (.inl rfl)
  · exact .inr (.inr rfl)

/-- Each symbol consumes a character and adds one to the root, so no `INSERT` overflows while the characters left still fit
the root's weight, and the fuel lasts. -/
theorem decodeAll_ends {fuel : Nat} (hs : Inv s) (hr : s.rsp = none) (hfuel : cs.length < fuel)
    (hw : s.weight s.root + cs.length ≤ weightMax s.weightBits) :
    Inv (decodeAll fuel cs s).engine ∧ InputEnding (decodeAll fuel cs s).ending := by
  induction fuel generalizing cs s with
  | zero => exact absurd hfuel (Nat.not_lt_zero _)
  | succ fuel ih =>
    rw [decodeAll]
    rcases decodeSymbol_cases hs hr cs with h | ⟨e, he, h⟩ | ⟨y, rest, hlt, h⟩
    · rw [h]
      exact ⟨hs, .inl rfl⟩
    · rw [h]
      exact ⟨hs, inputEnding_failed he⟩
    · rcases decodeInsert_cases hs hr y rest with ⟨hfull, -⟩ | ⟨t, ht, hsound, hrsp, hwidth, hroot⟩
      · omega
      · rw [h, ht]
        exact ih hsound hrsp (by omega) (by rw [hroot, hwidth]; omega)

/-- Settles O58: a session starts from the reset engine, whose root weighs nothing. -/
theorem decodeSessionEndsInOneOfThreeWays : Obligations.DecodeSessionEndsInOneOfThreeWays := by
  unfold Obligations.DecodeSessionEndsInOneOfThreeWays
  intro s cs hwb hlen
  rw [decodeSession, issue_init]
  refine decodeAll_ends (inv_resetEngine hwb) rfl (Nat.lt_succ_self _) ?_
  rw [root_resetEngine, weight_resetEngine_zero, Nat.zero_add]
  exact Nat.le_sub_one_of_lt hlen

end Sys2Proof.Proofs
end

