-- ==== Sys2Proof/Proofs/FixedExamples.lean ====
section
/-! PROOFS. Literals (00_scope.md R8) and script lines (30_encoding.md R103) on the spec's fixed values. -/

namespace Sys2Proof.Proofs

open Sys2Proof.Machine

/-- Settles O51: the eight bits one by one, and the byte from its bits. -/
theorem literalIsMostSignificantBitFirst : Obligations.LiteralIsMostSignificantBitFirst := by
  unfold Obligations.LiteralIsMostSignificantBitFirst
  refine ⟨fun y k hk => ?_, byte8_lit8⟩
  interval_cases k <;> rfl

/-- Settles O60: the lines are fixed, and the assembler evaluates them. -/
theorem scriptExamplesAssemble : Obligations.ScriptExamplesAssemble := by
  unfold Obligations.ScriptExamplesAssemble
  exact ⟨rfl, rfl, rfl, rfl, rfl, rfl, rfl, rfl⟩

end Sys2Proof.Proofs
end
